-- ==== Sys2Proof/Word.lean ====
section
/-! DEFINITION. The word types: `Word32`, `Byte` and register indices (spec 00 R6, 10 R10). -/

namespace Sys2Proof

/-- A `Word32` of the spec: 32 bits, bit 0 the least significant; `+`, `-` and `<<<` wrap modulo 2^32 (00 R6). -/
abbrev Word := BitVec 32

/-- A `Byte` of the spec: 8 bits (00 R6). -/
abbrev Byte := BitVec 8

/-- A register index: a 5-bit field, so every index names one of the 32 registers (10 R10). -/
abbrev RegIdx := BitVec 5

end Sys2Proof
end

