-- ==== Sys2Proof/Config.lean ====
section
/-! DEFINITION. The parameters of the hardware that 00 R5 fixes, and the values `State.reset` gives to the two
parameters it leaves open (HALT_WORD, SEED). The open parameters themselves stand in State. -/

namespace Sys2Proof

/-- `MEM_SIZE`: 1 MiB (00 R5, 20 R30). -/
def Config.memSize : Nat := 0x100000

/-- `ENTRY`: the value of `pc` at reset (00 R5, 10 R26). -/
def Config.entryPc : Word := 0x00001000#32

/-- `SP_INIT`: the value of the stack pointer register at reset (00 R5, 10 R26). -/
def Config.spInit : Word := 0x00008000#32

/-- `SP_INDEX`: the register the reset value `SP_INIT` goes to.
PRESUMED (log 5; the spec's decision D7, from general knowledge). -/
def Config.spIndex : RegIdx := 29#5

/-- `RA_INDEX`: the register `jal` links into.
PRESUMED (log 5; the spec's decision D7, from general knowledge). -/
def Config.raIndex : RegIdx := 31#5

/-- `STALL_CYCLES`: fetch bubbles per `j`, `jal`, `beq`, `bne` (00 R5, 40 R83). -/
def Config.stallCycles : Fin 4 := 3

/-- The longest seeded region the spec allows: `SEED_LEN <= 0x1000` (00 R5, D11). -/
def Config.maxSeedLen : Nat := 0x1000

/-- The value `State.reset` gives the open parameter `HALT_WORD`.
DESIGN CHOICE (log 3): the value of the spec's test vectors; no statement rests on it. -/
def Config.haltWordAtReset : Word := 0xFFFFFFFF#32

/-- The value `State.reset` gives the open parameter `SEED`.
DESIGN CHOICE (log 4): no seeded byte, as in the spec's test vectors; no statement rests on it. -/
def Config.seedAtReset : List Byte := []

end Sys2Proof
end

