-- ==== Sys2Proof/Syntax.lean ====
section
/-! DEFINITION. The instruction set (spec 30 R56 and 46 R135): one constructor per row of the opcode table. Each
constructor keeps every operand bit of its word, the ignored fields too (30 R57), in the order of the word's fields. -/

namespace Sys2Proof

/-- The 20 instructions of the closed table and the halt instruction. -/
inductive Instr where
  | sll  (rs rt rd shamt : RegIdx)
  | srl  (rs rt rd shamt : RegIdx)
  | sra  (rs rt rd shamt : RegIdx)
  | jr   (rs rt rd shamt : RegIdx)
  | add  (rs rt rd shamt : RegIdx)
  | sub  (rs rt rd shamt : RegIdx)
  | and  (rs rt rd shamt : RegIdx)
  | or   (rs rt rd shamt : RegIdx)
  | nor  (rs rt rd shamt : RegIdx)
  | slt  (rs rt rd shamt : RegIdx)
  | j    (target26 : BitVec 26)
  | jal  (target26 : BitVec 26)
  | beq  (rs rt : RegIdx) (imm16 : BitVec 16)
  | bne  (rs rt : RegIdx) (imm16 : BitVec 16)
  | addi (rs rt : RegIdx) (imm16 : BitVec 16)
  | slti (rs rt : RegIdx) (imm16 : BitVec 16)
  | andi (rs rt : RegIdx) (imm16 : BitVec 16)
  | ori  (rs rt : RegIdx) (imm16 : BitVec 16)
  | lw   (rs rt : RegIdx) (imm16 : BitVec 16)
  | sw   (rs rt : RegIdx) (imm16 : BitVec 16)
  | halt
  deriving DecidableEq, Repr

end Sys2Proof
end

