-- ==== Sys2Proof/Decode.lean ====
section
/-! DEFINITION. The decoder, total on every word (spec 30 R50 to R60), and after it the encoder, both written from the
field layout of 30 R51 and the opcode table of 30 R56. The field layout is PRESUMED (log 5; the spec's decision D7). -/

namespace Sys2Proof

/-! The raw fields of a word (30 R51, R52). -/

def Word.opcode (w : Word) : BitVec 6 := w.extractLsb' 26 6
def Word.rs (w : Word) : RegIdx := w.extractLsb' 21 5
def Word.rt (w : Word) : RegIdx := w.extractLsb' 16 5
def Word.rd (w : Word) : RegIdx := w.extractLsb' 11 5
def Word.shamt (w : Word) : RegIdx := w.extractLsb' 6 5
def Word.funct (w : Word) : BitVec 6 := w.extractLsb' 0 6
def Word.imm16 (w : Word) : BitVec 16 := w.extractLsb' 0 16
def Word.target26 (w : Word) : BitVec 26 := w.extractLsb' 0 26

/-- What the decoder answers: an instruction, or the name of the reason why the word is none (30 R52, R58). -/
inductive Decoded where
  | known (i : Instr)
  /-- `UNKNOWN_OPCODE`: the opcode is in no row of the table. -/
  | unknownOpcode
  /-- `UNKNOWN_FUNCT`: the opcode is 0 and the funct is in no row of the table. -/
  | unknownFunct
  deriving DecidableEq, Repr

/-- The R-format rows of 30 R54: opcode 0, selected by `funct`. -/
def decodeR (w : Word) : Decoded :=
  if w.funct = 0x20#6 then .known (.add w.rs w.rt w.rd w.shamt)
  else if w.funct = 0x22#6 then .known (.sub w.rs w.rt w.rd w.shamt)
  else if w.funct = 0x24#6 then .known (.and w.rs w.rt w.rd w.shamt)
  else if w.funct = 0x25#6 then .known (.or w.rs w.rt w.rd w.shamt)
  else if w.funct = 0x27#6 then .known (.nor w.rs w.rt w.rd w.shamt)
  else if w.funct = 0x00#6 then .known (.sll w.rs w.rt w.rd w.shamt)
  else if w.funct = 0x02#6 then .known (.srl w.rs w.rt w.rd w.shamt)
  else if w.funct = 0x03#6 then .known (.sra w.rs w.rt w.rd w.shamt)
  else if w.funct = 0x2A#6 then .known (.slt w.rs w.rt w.rd w.shamt)
  else if w.funct = 0x08#6 then .known (.jr w.rs w.rt w.rd w.shamt)
  else .unknownFunct

/-- The J- and I-format rows of 30 R54, selected by the opcode alone. -/
def decodeIJ (w : Word) : Decoded :=
  if w.opcode = 0x02#6 then .known (.j w.target26)
  else if w.opcode = 0x03#6 then .known (.jal w.target26)
  else if w.opcode = 0x08#6 then .known (.addi w.rs w.rt w.imm16)
  else if w.opcode = 0x0C#6 then .known (.andi w.rs w.rt w.imm16)
  else if w.opcode = 0x0D#6 then .known (.ori w.rs w.rt w.imm16)
  else if w.opcode = 0x23#6 then .known (.lw w.rs w.rt w.imm16)
  else if w.opcode = 0x2B#6 then .known (.sw w.rs w.rt w.imm16)
  else if w.opcode = 0x04#6 then .known (.beq w.rs w.rt w.imm16)
  else if w.opcode = 0x05#6 then .known (.bne w.rs w.rt w.imm16)
  else if w.opcode = 0x0A#6 then .known (.slti w.rs w.rt w.imm16)
  else .unknownOpcode

/-- `decode`, 30 R54: the comparison with `HALT_WORD` comes first, on the whole word (D1); then the format is selected by
the opcode (30 R53). -/
def decode (haltWord w : Word) : Decoded :=
  if w = haltWord then .known .halt
  else if w.opcode = 0x00#6 then decodeR w
  else decodeIJ w

/-- A word from the four bytes that hold it, the byte at the lowest address first: big-endian (30 R50, 20 R33). -/
def wordOfBytes (b0 b1 b2 b3 : Byte) : Word := b0 ++ b1 ++ b2 ++ b3

/-- Byte `k` (0 to 3) of a word in memory order: byte 0 holds bits 31:24 (20 R32, R33). -/
def byteOfWord (w : Word) (k : Nat) : Byte := w.extractLsb' (8 * (3 - k)) 8

/-- The decoder on the four bytes of an instruction as memory holds them. -/
def decodeBytes (haltWord : Word) (b0 b1 b2 b3 : Byte) : Decoded :=
  decode haltWord (wordOfBytes b0 b1 b2 b3)

def Decoded.toOption : Decoded → Option Instr
  | .known i => some i
  | .unknownOpcode => none
  | .unknownFunct => none

/-- The instruction the decoder reads from a table row's word, with `HALT_WORD` at the value `State.reset` gives it. -/
def decodeTableWord (nbits w : Nat) : Option Instr :=
  let word := BitVec.ofNat 32 (w % 2 ^ nbits)
  (decodeBytes Config.haltWordAtReset (byteOfWord word 0) (byteOfWord word 1) (byteOfWord word 2)
    (byteOfWord word 3)).toOption

/-! The encoder (30 R51: "the word built from fields"; opcode and funct numbers from 30 R56). -/

def encodeR (rs rt rd shamt : RegIdx) (funct : BitVec 6) : Word := 0x00#6 ++ rs ++ rt ++ rd ++ shamt ++ funct
def encodeI (opcode : BitVec 6) (rs rt : RegIdx) (imm16 : BitVec 16) : Word := opcode ++ rs ++ rt ++ imm16
def encodeJ (opcode : BitVec 6) (target26 : BitVec 26) : Word := opcode ++ target26

/-- The word of an instruction; halt's word is the parameter `HALT_WORD`. -/
def encode (haltWord : Word) : Instr → Word
  | .sll rs rt rd shamt => encodeR rs rt rd shamt 0x00#6
  | .srl rs rt rd shamt => encodeR rs rt rd shamt 0x02#6
  | .sra rs rt rd shamt => encodeR rs rt rd shamt 0x03#6
  | .jr rs rt rd shamt => encodeR rs rt rd shamt 0x08#6
  | .add rs rt rd shamt => encodeR rs rt rd shamt 0x20#6
  | .sub rs rt rd shamt => encodeR rs rt rd shamt 0x22#6
  | .and rs rt rd shamt => encodeR rs rt rd shamt 0x24#6
  | .or rs rt rd shamt => encodeR rs rt rd shamt 0x25#6
  | .nor rs rt rd shamt => encodeR rs rt rd shamt 0x27#6
  | .slt rs rt rd shamt => encodeR rs rt rd shamt 0x2A#6
  | .j target26 => encodeJ 0x02#6 target26
  | .jal target26 => encodeJ 0x03#6 target26
  | .beq rs rt imm16 => encodeI 0x04#6 rs rt imm16
  | .bne rs rt imm16 => encodeI 0x05#6 rs rt imm16
  | .addi rs rt imm16 => encodeI 0x08#6 rs rt imm16
  | .slti rs rt imm16 => encodeI 0x0A#6 rs rt imm16
  | .andi rs rt imm16 => encodeI 0x0C#6 rs rt imm16
  | .ori rs rt imm16 => encodeI 0x0D#6 rs rt imm16
  | .lw rs rt imm16 => encodeI 0x23#6 rs rt imm16
  | .sw rs rt imm16 => encodeI 0x2B#6 rs rt imm16
  | .halt => haltWord

end Sys2Proof
end

