-- ==== Sys2Proof/Machine/State.lean ====
section
/-! DEFINITION. The state of the machine as plain data (spec 10 R10 to R29), the reasons a step can stop, and the
state after reset (10 R26). -/

namespace Sys2Proof.Machine

/-- The 32 general registers `x[0]` to `x[31]` (10 R10). -/
abbrev Regs := Vector Word 32

/-- The memory array (10 R15). `cells` lists (address, byte) with rising addresses, and no cell holds what its address
reads as when unlisted: the seed byte below `SEED_LEN`, else 0. `seed` is the open parameter SEED (log 4): no operation
changes it. -/
structure Memory where
  seed  : List Byte
  cells : List Host.Cell
  deriving DecidableEq, Repr

/-- The decoded instruction a latch carries: the operation and the raw word (30 R52, the latch field `instr`). -/
structure SlotInstr where
  op   : Decoded
  word : Word
  deriving DecidableEq, Repr

/-- IF_ID record (10 R18). -/
structure IfId where
  word   : Word
  nextPc : Word
  deriving DecidableEq, Repr

/-- ID_EX record (10 R19). -/
structure IdEx where
  instr     : SlotInstr
  nextPc    : Word
  reg1Value : Word
  reg2Value : Word
  rtIndex   : RegIdx
  rdIndex   : RegIdx
  immediate : Word
  deriving DecidableEq, Repr

/-- EX_MEM record (10 R20). -/
structure ExMem where
  instr         : SlotInstr
  aluOut        : Word
  nextPc        : Word
  fallthroughPc : Word
  storeValue    : Word
  destIndex     : RegIdx
  regWrite      : Bool
  deriving DecidableEq, Repr

/-- MEM_WB record (10 R21). -/
structure MemWb where
  instr         : SlotInstr
  result        : Word
  destIndex     : RegIdx
  regWrite      : Bool
  fallthroughPc : Word
  deriving DecidableEq, Repr

/-- A latch: a live record, or the bubble that marks a slot holding no instruction (10 R17). -/
inductive Latch (α : Type) where
  | bubble
  | live (record : α)
  deriving DecidableEq, Repr

/-- The kinds of fatal error of the core (10 R24, 60 R141 to R143). -/
inductive FaultKind where
  | unknownOpcode
  | unknownFunct
  | outOfBoundsAddress
  deriving DecidableEq, Repr

/-- The diagnostic of a fatal error (10 R24; which fields each kind fills: 60 R141 to R143). -/
structure FaultInfo where
  pc   : Word
  word : Option Word
  addr : Option Word
  deriving DecidableEq, Repr

/-- The run status (10 R24). -/
inductive RunStatus where
  | running
  | halted
  | faulted (kind : FaultKind) (info : FaultInfo)
  deriving DecidableEq, Repr

/-- The stage evaluations in which an instruction acts. IF is not among them: it does not look at the word (40 R85). -/
inductive Stage where
  | wb
  | mem
  | ex
  | id
  deriving DecidableEq, Repr

/-- What exists only while a tick runs (00 R7, 40 R70, R71): the stage under evaluation, `x_start`, and the primed latches
this tick produces. Between ticks it is `Scratch.idle` (log 1). -/
structure Scratch where
  stage     : Stage
  xStart    : Regs
  ifIdNext  : Latch IfId
  idExNext  : Latch IdEx
  exMemNext : Latch ExMem
  memWbNext : Latch MemWb
  deriving DecidableEq, Repr

/-- The scratch between ticks. -/
def Scratch.idle : Scratch where
  stage     := .wb
  xStart    := Vector.replicate 32 0#32
  ifIdNext  := .bubble
  idExNext  := .bubble
  exMemNext := .bubble
  memWbNext := .bubble

/-- The whole machine: the tuple of 10 R29, then the model's own fields `haltWord` (log 3) and `scratch` (log 1). -/
structure State where
  x          : Regs
  hi         : Word
  lo         : Word
  pc         : Word
  mem        : Memory
  ifId       : Latch IfId
  idEx       : Latch IdEx
  exMem      : Latch ExMem
  memWb      : Latch MemWb
  fetchStall : Fin 4
  haltSeen   : Bool
  run        : RunStatus
  haltWord   : Word
  scratch    : Scratch
  deriving DecidableEq, Repr

/-- Why `step` stops. A fatal error of the machine is not one of these: it is a next state whose `run` is `faulted`
(log 2). -/
inductive Fault where
  /-- Raised by `step` on a halted machine: "A tick is defined only when `run == Running`" (10 R24, 93 U13). Safe: the
  machine makes no further step. -/
  | tickWhenHalted
  /-- Raised by `step` on a machine that a fatal error has ended (10 R24, 60 R140 (e)). Safe: as above. -/
  | tickWhenFaulted (kind : FaultKind) (info : FaultInfo)
  deriving DecidableEq, Repr

/-- What the model turns away. -/
inductive Refusal where
  /-- An instruction of the table without a meaning; every instruction has one, so nothing raises it. Safe. -/
  | notModelled (mnemonic : String)
  /-- Raised by `hostLoad` for a program that does not fit in memory: refused whole (70 R166, D18). Safe. -/
  | loadDoesNotFit
  /-- Raised by `hostDump` for a range that leaves memory (70 R169, 93 U15). Safe. -/
  | dumpDoesNotFit
  /-- Raised by `hostRun` on a machine that is not `Running` (70 R167, 93 U14). Safe. -/
  | runWhenStopped
  /-- Raised by every host call on a machine in the middle of a run (70 R165, D18; log 18). Safe. -/
  | hostDuringRun
  deriving DecidableEq, Repr

/-- What a meaning, a stage and a step answer. -/
abbrev Result := Host.Outcome State Fault Refusal

/-- The registers at reset (10 R26): the stack pointer register at `SP_INIT`, every other register 0 (DESIGN CHOICE of the
spec, D9; log 6). -/
def Regs.reset : Regs := (Vector.replicate 32 0#32).set Config.spIndex.toNat Config.spInit Config.spIndex.isLt

/-- The state after reset (10 R26, 70 R160) for given values of the open parameters `HALT_WORD` and `SEED`. -/
def State.resetWith (haltWord : Word) (seed : List Byte) : State where
  x          := Regs.reset
  hi         := 0#32
  lo         := 0#32
  pc         := Config.entryPc
  mem        := { seed := seed, cells := [] }
  ifId       := .bubble
  idEx       := .bubble
  exMem      := .bubble
  memWb      := .bubble
  fetchStall := 0
  haltSeen   := false
  run        := .running
  haltWord   := haltWord
  scratch    := Scratch.idle

/-- The state after reset, the open parameters at the values of the spec's test vectors (DESIGN CHOICE, logs 3 and 4). -/
def State.reset : State := State.resetWith Config.haltWordAtReset Config.seedAtReset

end Sys2Proof.Machine
end

