-- ==== Sys2Proof/Machine/Flags.lean ====
section
/-! DEFINITION. There are no status flags (spec 10 R16): a comparison is an ordinary value in `alu_out`. These are the
comparisons the instructions make. -/

namespace Sys2Proof.Machine

/-- 1 if `a <s b`, else 0: exact, on the two's-complement values (41 R105, 43 R118). -/
def setLessThan (a b : Word) : Word := if a.toInt < b.toInt then 1#32 else 0#32

/-- The comparison result of `beq` and `bne`: "a comparison result (subtraction)" (45 R125). -/
def branchDifference (a b : Word) : Word := a - b

/-- `beq` is taken when `alu_out == 0` (40 R76). -/
def beqTaken (aluOut : Word) : Bool := aluOut == 0#32

/-- `bne` is taken when `alu_out != 0` (40 R76). -/
def bneTaken (aluOut : Word) : Bool := aluOut != 0#32

end Sys2Proof.Machine
end

