-- ==== Sys2Proof/Machine/Memory.lean ====
section
/-! DEFINITION. The operations of memory: one byte, then the two 4-byte primitives of the spec (20 R30 to R36), and the
canonical form they keep. -/

namespace Sys2Proof.Machine

/-- What an unlisted address reads as: its seed byte below `SEED_LEN`, else 0 (10 R26, 20 R38). -/
def Memory.unlisted (m : Memory) (a : Nat) : Byte := m.seed.getD a 0#8

/-- The listed byte at `a`, if any. -/
def lookupCell (a : Nat) : List Host.Cell → Option Byte
  | [] => none
  | (k, b) :: rest => if a = k then some b else lookupCell a rest

/-- The cells with address `a` listed as `b`, in rising order. -/
def insertCell (a : Nat) (b : Byte) : List Host.Cell → List Host.Cell
  | [] => [(a, b)]
  | (k, v) :: rest =>
    if a < k then (a, b) :: (k, v) :: rest
    else if a = k then (a, b) :: rest
    else (k, v) :: insertCell a b rest

/-- The cells with address `a` unlisted. -/
def eraseCell (a : Nat) : List Host.Cell → List Host.Cell
  | [] => []
  | (k, v) :: rest => if a = k then rest else (k, v) :: eraseCell a rest

/-- `mem[a]`. -/
def Memory.readByte (m : Memory) (a : Nat) : Byte := (lookupCell a m.cells).getD (m.unlisted a)

/-- `mem[a] := b`, in canonical form: writing what an unlisted address reads as unlists it. -/
def Memory.writeByte (m : Memory) (a : Nat) (b : Byte) : Memory :=
  if b = m.unlisted a then { m with cells := eraseCell a m.cells } else { m with cells := insertCell a b m.cells }

/-- Addresses rise strictly, from `low` on. -/
def cellsRiseFrom (low : Nat) : List Host.Cell → Bool
  | [] => true
  | (k, _) :: rest => decide (low ≤ k) && cellsRiseFrom (k + 1) rest

/-- The canonical form: rising addresses, all inside the array, none listed with what it reads as when unlisted, and the
seeded region no longer than the spec allows (D11). -/
def Memory.wf (m : Memory) : Bool :=
  cellsRiseFrom 0 m.cells
    && m.cells.all (fun c => decide (c.1 < Config.memSize) && c.2 != m.unlisted c.1)
    && decide (m.seed.length ≤ Config.maxSeedLen)

/-- `InBounds` (20 R34): all four bytes exist; the comparison is on the unsigned value, with no wrap. -/
def inBounds (addr : Word) : Bool := decide (addr.toNat ≤ Config.memSize - 4)

/-- The four bytes at `a .. a+3`, the byte at the lowest address the most significant (20 R31, R33). -/
def Memory.wordAt (m : Memory) (a : Nat) : Word :=
  wordOfBytes (m.readByte a) (m.readByte (a + 1)) (m.readByte (a + 2)) (m.readByte (a + 3))

/-- `mem` with the four bytes of `v` at `a .. a+3` (20 R32, R33). -/
def Memory.setWordAt (m : Memory) (a : Nat) (v : Word) : Memory :=
  (((m.writeByte a (byteOfWord v 0)).writeByte (a + 1) (byteOfWord v 1)).writeByte (a + 2)
    (byteOfWord v 2)).writeByte (a + 3) (byteOfWord v 3)

/-- `MemRead(addr, 4)` (20 R31): `none` where the access is out of bounds. No alignment is needed (20 R35, D8). -/
def Memory.readWord (m : Memory) (addr : Word) : Option Word :=
  if inBounds addr then some (m.wordAt addr.toNat) else none

/-- `MemWrite(addr, 4, v)` (20 R32): `none`, and no byte written, where the access is out of bounds. -/
def Memory.writeWord (m : Memory) (addr v : Word) : Option Memory :=
  if inBounds addr then some (m.setWordAt addr.toNat v) else none

end Sys2Proof.Machine
end

