-- ==== Sys2Proof/Machine/Operands.lean ====
section
/-! DEFINITION. How ID assembles an instruction's operands from its fields (spec 30 R55, 40 R80, R81). -/

namespace Sys2Proof.Machine

/-- `sext_16` (00 R6): the 16-bit value with bit 15 copied into bits 31:16. -/
def sext16 (v : BitVec 16) : Word := v.signExtend 32

/-- The absolute jump target (40 R81): `(next_pc & 0xF0000000) | (target26 << 2)`, `target26` raw from the word. -/
def jumpTarget (nextPc : Word) (target26 : BitVec 26) : Word :=
  (nextPc &&& 0xF0000000#32) ||| (target26.setWidth 32 <<< 2)

/-- What ID reads off an instruction: the two source indices, the two destination fields and the immediate. Both sources
are read whatever the format (40 R82, D20). -/
structure IdOperands where
  rs        : RegIdx
  rt        : RegIdx
  rd        : RegIdx
  immediate : Word
  deriving DecidableEq, Repr

/-- Cut from a raw word: bits 25:21, 20:16, 15:11 and the sign-extended low 16 bits (30 R52). -/
def operandsOfWord (w : Word) : IdOperands :=
  { rs := w.rs, rt := w.rt, rd := w.rd, immediate := sext16 w.imm16 }

/-- R-format: the immediate is the sign extension of the low 16 bits, which no R-format instruction uses (40 R81). -/
def operandsR (rs rt rd shamt : RegIdx) (funct : BitVec 6) : IdOperands :=
  { rs := rs, rt := rt, rd := rd, immediate := sext16 (rd ++ shamt ++ funct : BitVec 16) }

/-- I-format: the `rd` index is bits 15:11 of the immediate, which no I-format instruction uses. -/
def operandsI (rs rt : RegIdx) (imm16 : BitVec 16) : IdOperands :=
  { rs := rs, rt := rt, rd := imm16.extractLsb' 11 5, immediate := sext16 imm16 }

/-- J-format: the register fields are bits of the target, read and unused (45 R127); the immediate is the absolute
target. -/
def operandsJ (nextPc : Word) (target26 : BitVec 26) : IdOperands :=
  { rs := target26.extractLsb' 21 5, rt := target26.extractLsb' 16 5, rd := target26.extractLsb' 11 5,
    immediate := jumpTarget nextPc target26 }

end Sys2Proof.Machine
end

