-- ==== Sys2Proof/Machine/Ops.lean ====
section
/-! DEFINITION. The named operations on the state, and the stage actions that instructions share (spec 40 R73 to R84).
Raising a fatal error is `State.raise`, from 60 R140; there is no trap entry and no return from one (60 R148, R150). -/

namespace Sys2Proof.Machine

/-! ### Registers -/

def Regs.read (r : Regs) (i : RegIdx) : Word := r[i.toNat]'(i.isLt)

/-- `x[i] <- v` (10 R11): the guarded write; a write to register 0 is discarded. -/
def Regs.write (r : Regs) (i : RegIdx) (v : Word) : Regs := if i = 0#5 then r else r.set i.toNat v i.isLt

/-! ### Updates of the state -/

def State.writeReg (s : State) (i : RegIdx) (v : Word) : State := { s with x := s.x.write i v }
def State.setPc (s : State) (v : Word) : State := { s with pc := v }
def State.setMem (s : State) (m : Memory) : State := { s with mem := m }
def State.setFetchStall (s : State) (n : Fin 4) : State := { s with fetchStall := n }
def State.setHaltSeen (s : State) (b : Bool) : State := { s with haltSeen := b }
def State.setRun (s : State) (r : RunStatus) : State := { s with run := r }
def State.setScratch (s : State) (c : Scratch) : State := { s with scratch := c }

/-- The stage under evaluation. -/
def State.atStage (s : State) (st : Stage) : State := s.setScratch { s.scratch with stage := st }
/-- `IF_ID' := l` -/
def State.putIfId (s : State) (l : Latch IfId) : State := s.setScratch { s.scratch with ifIdNext := l }
/-- `ID_EX' := l` -/
def State.putIdEx (s : State) (l : Latch IdEx) : State := s.setScratch { s.scratch with idExNext := l }
/-- `EX_MEM' := l` -/
def State.putExMem (s : State) (l : Latch ExMem) : State := s.setScratch { s.scratch with exMemNext := l }
/-- `MEM_WB' := l` -/
def State.putMemWb (s : State) (l : Latch MemWb) : State := s.setScratch { s.scratch with memWbNext := l }

/-- The start of a tick: `x_start := copy of S.x` (40 R70). -/
def State.beginTick (s : State) : State := s.setScratch { Scratch.idle with xStart := s.x }

/-- The end of a tick that ran to its end: the primed latches become the latches (40 R70, R71). -/
def State.handOver (s : State) : State :=
  { s with ifId := s.scratch.ifIdNext, idEx := s.scratch.idExNext, exMem := s.scratch.exMemNext,
           memWb := s.scratch.memWbNext, scratch := Scratch.idle }

/-- The end of a tick that a fatal error or the halt instruction cut: the primed latches are dropped and the latches keep
their values (60 R140 (c), 40 R73). -/
def State.dropTick (s : State) : State := s.setScratch Scratch.idle

/-- `raise K(info)` (60 R140): `run := Faulted(K, info)`. The rest of the tick not running, the latches keeping their
values and earlier writes staying is how the driver (`andThen`, `endTick`) treats a state that is not `Running`. -/
def State.raise (s : State) (kind : FaultKind) (info : FaultInfo) : State := s.setRun (.faulted kind info)

/-! ### The action of an instruction, by stage -/

/-- What an instruction does in the stage evaluation the driver is at. -/
def byStage (s : State) (onId onEx onMem onWb : Result) : Result :=
  match s.scratch.stage with
  | .id => onId
  | .ex => onEx
  | .mem => onMem
  | .wb => onWb

/-! ### ID (40 R80) -/

/-- No effect on the stall controller: every instruction but `j`, `jal`, `beq`, `bne` and halt. -/
def keepFetching (s : State) : State := s

/-- `fetch_stall := 3` (40 R83). -/
def requestStall (s : State) : State := s.setFetchStall Config.stallCycles

/-- `halt_seen := true` (40 R84). -/
def noteHalt (s : State) : State := s.setHaltSeen true

/-- The ID_EX record ID forms: register values as of the start of the tick (40 R82). -/
def decodedRecord (op : Decoded) (ops : IdOperands) (f : IfId) (xStart : Regs) : IdEx :=
  { instr := { op := op, word := f.word }, nextPc := f.nextPc, reg1Value := xStart.read ops.rs,
    reg2Value := xStart.read ops.rt, rtIndex := ops.rt, rdIndex := ops.rd, immediate := ops.immediate }

/-- ID of one instruction: `control` is its action on the stall controller. A bubble passes (40 R89). -/
def decodeSlot (op : Decoded) (ops : IfId → IdOperands) (control : State → State) (s : State) : Result :=
  match s.ifId with
  | .bubble => .next (s.putIdEx .bubble)
  | .live f => .next ((control s).putIdEx (.live (decodedRecord op (ops f) f s.scratch.xStart)))

/-! ### EX (40 R77) -/

/-- The defaults of EX. -/
def exDefaults (d : IdEx) : ExMem :=
  { instr := d.instr, aluOut := 0#32, nextPc := d.nextPc, fallthroughPc := d.nextPc, storeValue := d.reg2Value,
    destIndex := 0#5, regWrite := false }

/-- An ALU result for `rd` (40 R78). -/
def resultToRd (d : IdEx) (v : Word) : ExMem :=
  { exDefaults d with aluOut := v, destIndex := d.rdIndex, regWrite := true }

/-- An ALU result, or the effective address of a load, for `rt` (40 R78). -/
def resultToRt (d : IdEx) (v : Word) : ExMem :=
  { exDefaults d with aluOut := v, destIndex := d.rtIndex, regWrite := true }

/-- The effective address of `lw` and `sw` (44, Addressing mode): base plus sign-extended displacement. -/
def effectiveAddress (d : IdEx) : Word := d.reg1Value + d.immediate

/-- The branch target (45 R125): `next_pc + (immediate << 2)`. -/
def branchTarget (d : IdEx) : Word := d.nextPc + (d.immediate <<< 2)

/-- EX of one instruction: `compute` is its rule. A bubble passes (40 R89). -/
def executeSlot (compute : IdEx → ExMem) (s : State) : Result :=
  match s.idEx with
  | .bubble => .next (s.putExMem .bubble)
  | .live d => .next (s.putExMem (.live (compute d)))

/-- EX of an unknown instruction (40 R79, 60 R141, R142): the fatal error, with the address the word was fetched from
and the raw word. -/
def raiseUnknownSlot (kind : FaultKind) (s : State) : Result :=
  match s.idEx with
  | .bubble => .next (s.putExMem .bubble)
  | .live d => .next (s.raise kind { pc := d.nextPc - 4#32, word := some d.instr.word, addr := none })

/-! ### MEM (40 R75) -/

/-- The MEM_WB record MEM forms around a result. -/
def forwardRecord (e : ExMem) (result : Word) : MemWb :=
  { instr := e.instr, result := result, destIndex := e.destIndex, regWrite := e.regWrite,
    fallthroughPc := e.fallthroughPc }

/-- The diagnostic of an out-of-bounds data access (60 R143). -/
def dataFaultInfo (e : ExMem) : FaultInfo :=
  { pc := e.fallthroughPc - 4#32, word := some e.instr.word, addr := some e.aluOut }

/-- MEM of an instruction that accesses no data memory: `commit` is its write of `pc` and of the link register, if any.
A bubble passes (40 R89). -/
def commitSlot (commit : ExMem → State → State) (s : State) : Result :=
  match s.exMem with
  | .bubble => .next (s.putMemWb .bubble)
  | .live e => .next ((commit e s).putMemWb (.live (forwardRecord e e.aluOut)))

/-- MEM of an instruction that only passes its result through. -/
def passSlot (s : State) : Result := commitSlot (fun _ s => s) s

/-- `pc <- next_pc` (40 R76). -/
def commitPc (e : ExMem) (s : State) : State := s.setPc e.nextPc

/-- `pc <- next_pc` if the branch is taken, else nothing (40 R76). -/
def commitPcIf (taken : Word → Bool) (e : ExMem) (s : State) : State :=
  if taken e.aluOut then s.setPc e.nextPc else s

/-- `pc <- next_pc ; x[31] <- fallthrough_pc` (40 R75, 45 R128). -/
def commitPcAndLink (e : ExMem) (s : State) : State := (s.setPc e.nextPc).writeReg Config.raIndex e.fallthroughPc

/-- MEM of `lw`: the word at `alu_out`, or the fatal error (40 R75, 44 R120). -/
def loadSlot (s : State) : Result :=
  match s.exMem with
  | .bubble => .next (s.putMemWb .bubble)
  | .live e =>
    match s.mem.readWord e.aluOut with
    | some v => .next (s.putMemWb (.live (forwardRecord e v)))
    | none => .next (s.raise .outOfBoundsAddress (dataFaultInfo e))

/-- MEM of `sw`: `store_value` to `alu_out`, or the fatal error with no byte written (40 R75, 44 R121). -/
def storeSlot (s : State) : Result :=
  match s.exMem with
  | .bubble => .next (s.putMemWb .bubble)
  | .live e =>
    match s.mem.writeWord e.aluOut e.storeValue with
    | some m => .next ((s.setMem m).putMemWb (.live (forwardRecord e e.aluOut)))
    | none => .next (s.raise .outOfBoundsAddress (dataFaultInfo e))

/-! ### WB (40 R73) -/

/-- WB of every instruction but halt: the guarded register write where `reg_write` is set, else nothing. -/
def writeBackSlot (s : State) : Result :=
  match s.memWb with
  | .bubble => .next s
  | .live m => .next (if m.regWrite then s.writeReg m.destIndex m.result else s)

/-- WB of halt: `run := Halted` (40 R73, 46 R135). -/
def haltSlot (s : State) : Result :=
  match s.memWb with
  | .bubble => .next s
  | .live _ => .next (s.setRun .halted)

end Sys2Proof.Machine
end

