-- ==== Sys2Proof/Machine/AluImmediate.lean ====
section
/-! DEFINITION. Register-immediate arithmetic, logic and compare: `addi andi ori slti` (spec 43 R115 to R118). The
immediate is sign-extended in all four, `andi` and `ori` included (D6, log 13); the result is for `rt`. -/

namespace Sys2Proof.Machine

/-- `alu_out := reg1_value + immediate` modulo 2^32 (43 R115). -/
def execAddi (rs rt : RegIdx) (imm16 : BitVec 16) (s : State) : Result :=
  byStage s
    (decodeSlot (.known (.addi rs rt imm16)) (fun _ => operandsI rs rt imm16) keepFetching s)
    (executeSlot (fun d => resultToRt d (d.reg1Value + d.immediate)) s)
    (passSlot s)
    (writeBackSlot s)

/-- `alu_out := reg1_value & immediate` (43 R116). -/
def execAndi (rs rt : RegIdx) (imm16 : BitVec 16) (s : State) : Result :=
  byStage s
    (decodeSlot (.known (.andi rs rt imm16)) (fun _ => operandsI rs rt imm16) keepFetching s)
    (executeSlot (fun d => resultToRt d (d.reg1Value &&& d.immediate)) s)
    (passSlot s)
    (writeBackSlot s)

/-- `alu_out := reg1_value | immediate` (43 R117). -/
def execOri (rs rt : RegIdx) (imm16 : BitVec 16) (s : State) : Result :=
  byStage s
    (decodeSlot (.known (.ori rs rt imm16)) (fun _ => operandsI rs rt imm16) keepFetching s)
    (executeSlot (fun d => resultToRt d (d.reg1Value ||| d.immediate)) s)
    (passSlot s)
    (writeBackSlot s)

/-- `alu_out := 1 if signed(reg1_value) < signed(immediate) else 0` (43 R118). -/
def execSlti (rs rt : RegIdx) (imm16 : BitVec 16) (s : State) : Result :=
  byStage s
    (decodeSlot (.known (.slti rs rt imm16)) (fun _ => operandsI rs rt imm16) keepFetching s)
    (executeSlot (fun d => resultToRt d (setLessThan d.reg1Value d.immediate)) s)
    (passSlot s)
    (writeBackSlot s)

end Sys2Proof.Machine
end

