-- ==== Sys2Proof/Machine/AluRegister.lean ====
section
/-! DEFINITION. Register-register arithmetic, logic and compare: `add sub and or nor slt` (spec 41 R100 to R106). In each:
ID as 40 R80 with no stall, EX by the instruction's rule with the result for `rd`, MEM passes, WB writes. `shamt` is
ignored (30 R57). That `add` and `sub` wrap and never trap, and what each mnemonic computes, is the spec's decision D14
(log 13). -/

namespace Sys2Proof.Machine

/-- `alu_out := reg1_value + reg2_value` modulo 2^32 (41 R100). -/
def execAdd (rs rt rd shamt : RegIdx) (s : State) : Result :=
  byStage s
    (decodeSlot (.known (.add rs rt rd shamt)) (fun _ => operandsR rs rt rd shamt 0x20#6) keepFetching s)
    (executeSlot (fun d => resultToRd d (d.reg1Value + d.reg2Value)) s)
    (passSlot s)
    (writeBackSlot s)

/-- `alu_out := reg1_value - reg2_value` modulo 2^32 (41 R101). -/
def execSub (rs rt rd shamt : RegIdx) (s : State) : Result :=
  byStage s
    (decodeSlot (.known (.sub rs rt rd shamt)) (fun _ => operandsR rs rt rd shamt 0x22#6) keepFetching s)
    (executeSlot (fun d => resultToRd d (d.reg1Value - d.reg2Value)) s)
    (passSlot s)
    (writeBackSlot s)

/-- `alu_out := reg1_value & reg2_value` (41 R102). -/
def execAnd (rs rt rd shamt : RegIdx) (s : State) : Result :=
  byStage s
    (decodeSlot (.known (.and rs rt rd shamt)) (fun _ => operandsR rs rt rd shamt 0x24#6) keepFetching s)
    (executeSlot (fun d => resultToRd d (d.reg1Value &&& d.reg2Value)) s)
    (passSlot s)
    (writeBackSlot s)

/-- `alu_out := reg1_value | reg2_value` (41 R103). -/
def execOr (rs rt rd shamt : RegIdx) (s : State) : Result :=
  byStage s
    (decodeSlot (.known (.or rs rt rd shamt)) (fun _ => operandsR rs rt rd shamt 0x25#6) keepFetching s)
    (executeSlot (fun d => resultToRd d (d.reg1Value ||| d.reg2Value)) s)
    (passSlot s)
    (writeBackSlot s)

/-- `alu_out := ~(reg1_value | reg2_value)` (41 R104). -/
def execNor (rs rt rd shamt : RegIdx) (s : State) : Result :=
  byStage s
    (decodeSlot (.known (.nor rs rt rd shamt)) (fun _ => operandsR rs rt rd shamt 0x27#6) keepFetching s)
    (executeSlot (fun d => resultToRd d (~~~(d.reg1Value ||| d.reg2Value))) s)
    (passSlot s)
    (writeBackSlot s)

/-- `alu_out := 1 if signed(reg1_value) < signed(reg2_value) else 0` (41 R105). -/
def execSlt (rs rt rd shamt : RegIdx) (s : State) : Result :=
  byStage s
    (decodeSlot (.known (.slt rs rt rd shamt)) (fun _ => operandsR rs rt rd shamt 0x2A#6) keepFetching s)
    (executeSlot (fun d => resultToRd d (setLessThan d.reg1Value d.reg2Value)) s)
    (passSlot s)
    (writeBackSlot s)

end Sys2Proof.Machine
end

