-- ==== Sys2Proof/Machine/ControlTransfer.lean ====
section
/-! DEFINITION. Control transfer: `beq bne j jal jr` (spec 45 R125 to R130). The first four request the three-tick stall
in ID (40 R83); `jr` does not (C4). MEM commits `pc`, and the link register for `jal`. None writes a register in WB. -/

namespace Sys2Proof.Machine

/-- EX of the two branches: the target and the subtraction (45 R125, R126). -/
def branchRecord (d : IdEx) : ExMem :=
  { exDefaults d with aluOut := branchDifference d.reg1Value d.reg2Value, nextPc := branchTarget d }

/-- Taken when `alu_out == 0` (45 R125). -/
def execBeq (rs rt : RegIdx) (imm16 : BitVec 16) (s : State) : Result :=
  byStage s
    (decodeSlot (.known (.beq rs rt imm16)) (fun _ => operandsI rs rt imm16) requestStall s)
    (executeSlot branchRecord s)
    (commitSlot (commitPcIf beqTaken) s)
    (writeBackSlot s)

/-- Taken when `alu_out != 0` (45 R126). -/
def execBne (rs rt : RegIdx) (imm16 : BitVec 16) (s : State) : Result :=
  byStage s
    (decodeSlot (.known (.bne rs rt imm16)) (fun _ => operandsI rs rt imm16) requestStall s)
    (executeSlot branchRecord s)
    (commitSlot (commitPcIf bneTaken) s)
    (writeBackSlot s)

/-- EX: `next_pc := immediate`, the absolute target formed in ID. MEM: `pc <- next_pc` (45 R127). -/
def execJ (target26 : BitVec 26) (s : State) : Result :=
  byStage s
    (decodeSlot (.known (.j target26)) (fun f => operandsJ f.nextPc target26) requestStall s)
    (executeSlot (fun d => { exDefaults d with nextPc := d.immediate }) s)
    (commitSlot commitPc s)
    (writeBackSlot s)

/-- As `j`; the link value is the address of the `jal` + 4, written to `x[31]` by MEM (45 R128; D5, log 14). -/
def execJal (target26 : BitVec 26) (s : State) : Result :=
  byStage s
    (decodeSlot (.known (.jal target26)) (fun f => operandsJ f.nextPc target26) requestStall s)
    (executeSlot (fun d => { exDefaults d with nextPc := d.immediate, destIndex := Config.raIndex }) s)
    (commitSlot commitPcAndLink s)
    (writeBackSlot s)

/-- EX: `next_pc := reg1_value`. MEM: `pc <- next_pc`, unconditionally, and no stall (45 R129; D4, log 14). -/
def execJr (rs rt rd shamt : RegIdx) (s : State) : Result :=
  byStage s
    (decodeSlot (.known (.jr rs rt rd shamt)) (fun _ => operandsR rs rt rd shamt 0x08#6) keepFetching s)
    (executeSlot (fun d => { exDefaults d with nextPc := d.reg1Value }) s)
    (commitSlot commitPc s)
    (writeBackSlot s)

end Sys2Proof.Machine
end

