-- ==== Sys2Proof/Machine/Halt.lean ====
section
/-! DEFINITION. The halt instruction (spec 46 R135) and the two kinds of unknown encoding (46 R136, R137), which are no
constructors of Instr. -/

namespace Sys2Proof.Machine

/-- ID: `halt_seen := true`. EX: the defaults. MEM: nothing. WB: `run := Halted` (46 R135; D2, log 20). The raw fields ID
reads registers by are those of the word (30 R54). -/
def execHalt (s : State) : Result :=
  byStage s
    (decodeSlot (.known .halt) (fun f => operandsOfWord f.word) noteHalt s)
    (executeSlot exDefaults s)
    (passSlot s)
    (haltSlot s)

/-- ID passes it on with no stall; EX raises `UnknownOpcode` (46 R136). It never reaches MEM or WB in a run; there, as any
other operation without a rule, it passes (40 R73, R75; log 10). -/
def execUnknownOpcode (s : State) : Result :=
  byStage s
    (decodeSlot .unknownOpcode (fun f => operandsOfWord f.word) keepFetching s)
    (raiseUnknownSlot .unknownOpcode s)
    (passSlot s)
    (writeBackSlot s)

/-- As `execUnknownOpcode`, with `UnknownFunct` (46 R137). -/
def execUnknownFunct (s : State) : Result :=
  byStage s
    (decodeSlot .unknownFunct (fun f => operandsOfWord f.word) keepFetching s)
    (raiseUnknownSlot .unknownFunct s)
    (passSlot s)
    (writeBackSlot s)

end Sys2Proof.Machine
end

