-- ==== Sys2Proof/Machine/LoadStore.lean ====
section
/-! DEFINITION. Loads and stores: `lw sw` (spec 44 R120, R121). Base register plus sign-extended displacement; the access
is in MEM; an address above 0x000FFFFC is the fatal error `OutOfBoundsAddress` (60 R143). -/

namespace Sys2Proof.Machine

/-- EX: the effective address, for `rt`. MEM: the word there. WB: `x[rt] <- result` (44 R120). -/
def execLw (rs rt : RegIdx) (imm16 : BitVec 16) (s : State) : Result :=
  byStage s
    (decodeSlot (.known (.lw rs rt imm16)) (fun _ => operandsI rs rt imm16) keepFetching s)
    (executeSlot (fun d => resultToRt d (effectiveAddress d)) s)
    (loadSlot s)
    (writeBackSlot s)

/-- EX: the effective address and the value to store (the default `store_value`). MEM: the four bytes. WB: nothing
(44 R121). -/
def execSw (rs rt : RegIdx) (imm16 : BitVec 16) (s : State) : Result :=
  byStage s
    (decodeSlot (.known (.sw rs rt imm16)) (fun _ => operandsI rs rt imm16) keepFetching s)
    (executeSlot (fun d => { exDefaults d with aluOut := effectiveAddress d }) s)
    (storeSlot s)
    (writeBackSlot s)

end Sys2Proof.Machine
end

