-- ==== Sys2Proof/Machine/Shifts.lean ====
section
/-! DEFINITION. Shifts by a constant amount: `sll srl sra` (spec 42 R110 to R112). The value shifted is `reg2_value` (the
`rt` register), the amount is the `shamt` field, 0 to 31; `rs` is ignored (D14, log 13). -/

namespace Sys2Proof.Machine

/-- `alu_out := reg2_value << shamt`, zeros enter at bit 0 (42 R110). -/
def execSll (rs rt rd shamt : RegIdx) (s : State) : Result :=
  byStage s
    (decodeSlot (.known (.sll rs rt rd shamt)) (fun _ => operandsR rs rt rd shamt 0x00#6) keepFetching s)
    (executeSlot (fun d => resultToRd d (d.reg2Value <<< shamt.toNat)) s)
    (passSlot s)
    (writeBackSlot s)

/-- `alu_out := reg2_value >>u shamt`, zeros enter at bit 31 (42 R111). -/
def execSrl (rs rt rd shamt : RegIdx) (s : State) : Result :=
  byStage s
    (decodeSlot (.known (.srl rs rt rd shamt)) (fun _ => operandsR rs rt rd shamt 0x02#6) keepFetching s)
    (executeSlot (fun d => resultToRd d (d.reg2Value >>> shamt.toNat)) s)
    (passSlot s)
    (writeBackSlot s)

/-- `alu_out := reg2_value >>s shamt`, copies of bit 31 enter at bit 31 (42 R112). -/
def execSra (rs rt rd shamt : RegIdx) (s : State) : Result :=
  byStage s
    (decodeSlot (.known (.sra rs rt rd shamt)) (fun _ => operandsR rs rt rd shamt 0x03#6) keepFetching s)
    (executeSlot (fun d => resultToRd d (d.reg2Value.sshiftRight shamt.toNat)) s)
    (passSlot s)
    (writeBackSlot s)

end Sys2Proof.Machine
end

