-- ==== Sys2Proof/Machine/Tick.lean ====
section
/-! DEFINITION. The cycle driver: the five stage evaluations and the tick (spec 40 R70 to R90). -/

namespace Sys2Proof.Machine

/-- The action, in the stage under evaluation, of whatever a slot holds. -/
def execDecoded (op : Decoded) (s : State) : Result :=
  match op with
  | .known i => exec i s
  | .unknownOpcode => execUnknownOpcode s
  | .unknownFunct => execUnknownFunct s

/-- WB (40 R73). A bubble does nothing (40 R89). -/
def wbStage (s : State) : Result :=
  match s.memWb with
  | .bubble => .next (s.atStage .wb)
  | .live m => execDecoded m.instr.op (s.atStage .wb)

/-- MEM (40 R75). -/
def memStage (s : State) : Result :=
  match s.exMem with
  | .bubble => .next ((s.atStage .mem).putMemWb .bubble)
  | .live e => execDecoded e.instr.op (s.atStage .mem)

/-- EX (40 R77). -/
def exStage (s : State) : Result :=
  match s.idEx with
  | .bubble => .next ((s.atStage .ex).putExMem .bubble)
  | .live d => execDecoded d.instr.op (s.atStage .ex)

/-- ID (40 R80): decodes every live word, and evaluates ID of what it decodes to. -/
def idStage (s : State) : Result :=
  match s.ifId with
  | .bubble => .next ((s.atStage .id).putIdEx .bubble)
  | .live f => execDecoded (decode s.haltWord f.word) (s.atStage .id)

/-- Fetch is frozen (40 R86). -/
def State.frozen (s : State) : Bool := s.haltSeen || decide (s.fetchStall ≠ 0)

/-- IF (40 R85, R86): frozen, a bubble and one tick less to wait; else the word at `pc`, and `pc <- pc + 4`; or the fatal
error, with `pc` not advanced (60 R143). -/
def ifStage (s : State) : Result :=
  if s.frozen then
    .next ((if s.fetchStall = 0 then s else s.setFetchStall (s.fetchStall - 1)).putIfId .bubble)
  else
    match s.mem.readWord s.pc with
    | some word => .next ((s.setPc (s.pc + 4#32)).putIfId (.live { word := word, nextPc := s.pc + 4#32 }))
    | none => .next (s.raise .outOfBoundsAddress { pc := s.pc, word := none, addr := some s.pc })

/-- The next stage of the tick, unless the tick has ended: a fatal error or the halt instruction ends it (60 R140 (b),
40 R73). -/
def andThen (r : Result) (stage : State → Result) : Result :=
  match r with
  | .next s => if s.run = .running then stage s else .next s
  | .fault f => .fault f
  | .refused f => .refused f

/-- The hand-over of the latches, or their keeping where the tick was cut (40 R71, 60 R140 (c)). -/
def endTick (r : Result) : Result :=
  match r with
  | .next s => .next (if s.run = .running then s.handOver else s.dropTick)
  | .fault f => .fault f
  | .refused f => .refused f

/-- The tick (40 R70): WB, MEM, EX, ID, IF. -/
def tick (s : State) : Result :=
  endTick (andThen (andThen (andThen (andThen (wbStage s.beginTick) memStage) exStage) idStage) ifStage)

/-- What `step` does: a tick where `run == Running`; no tick is defined otherwise (10 R24, log 2). -/
def tickIfRunning (s : State) : Result :=
  match s.run with
  | .running => tick s
  | .halted => .fault .tickWhenHalted
  | .faulted kind info => .fault (.tickWhenFaulted kind info)

/-- `s` with `word` where the next tick fetches, and that tick sure to fetch it (log 12): at `pc` (at the entry address where
no word fits at `pc`), the pipeline empty, Fetch not frozen, the run going. -/
def placeWordAtPc (s : State) (word : Word) : State :=
  let a := if inBounds s.pc then s.pc else Config.entryPc
  { s with pc := a, mem := s.mem.setWordAt a.toNat word, ifId := .bubble, idEx := .bubble, exMem := .bubble,
           memWb := .bubble, fetchStall := 0, haltSeen := false, run := .running, scratch := Scratch.idle }

/-- The state that the fetch of `word` leaves (40 R85): the word is in memory and in IF_ID, `pc` is 4 further, and the next
tick runs the instruction (log 12; lemmas `step_placeWordAtPc`, `step_withFetchWord`). -/
def placeFetchWord (s : State) (word : Word) : State :=
  let l := placeWordAtPc s word
  { l with pc := l.pc + 4#32, ifId := .live { word := word, nextPc := l.pc + 4#32 } }

end Sys2Proof.Machine
end

