-- ==== Sys2Proof/Machine/Step.lean ====
section
/-! DEFINITION. One step of the machine is one tick of the cycle driver (spec 40 R70; log 1). -/

namespace Sys2Proof.Machine

def step (s : State) : Host.Outcome State Fault Refusal := tickIfRunning s

/-- The state whose very next step runs the instruction of `nbits` bits `w` (log 12): its fetch has left the word in IF_ID, so
the next step is `exec` of it in ID, and the three after that are `exec` of it in EX, MEM and WB. -/
def State.withFetchWord (s : State) (nbits w : Nat) : State := placeFetchWord s (BitVec.ofNat 32 (w % 2 ^ nbits))

end Sys2Proof.Machine
end

