-- ==== Sys2Proof/Machine/HostCalls.lean ====
section
/-! DEFINITION. The four calls by which the host drives the core, all outside a run (spec 70 R165 to R169): `load`, `run`,
`show`, `dump`. A call that completes answers what it returns and the state it leaves. None of them writes a register, `hi`,
`lo` or `pc` itself, and none stops a run half way. -/

namespace Sys2Proof.Machine

/-- A call returns a value and leaves a state, or is turned away and changes nothing. -/
abbrev HostAnswer (α : Type) := Host.Outcome (α × State) Fault Refusal

/-- The machine is between runs: its run is over, or the pipeline is empty, as it is before the first tick. In the middle of a
run some latch is live (lemma `midRun_not_betweenRuns`; log 18). -/
def State.betweenRuns (s : State) : Bool :=
  decide (s.run ≠ .running) || decide (s.ifId = .bubble ∧ s.idEx = .bubble ∧ s.exMem = .bubble ∧ s.memWb = .bubble)

/-- "It acts only when the core is not in the middle of a run" (70 R165, 10 R28, D18). -/
def betweenRunsOnly {α : Type} (s : State) (answer : HostAnswer α) : HostAnswer α :=
  if s.betweenRuns then answer else .refused .hostDuringRun

/-- One line of a program file: a 32-bit word, or a line the loader cannot read (30 R66). -/
inductive ProgramLine where
  | word (w : Word)
  | malformed
  deriving DecidableEq, Repr

/-- The words before the first malformed line, which ends the load (60 R144, 93 U16). -/
def wordsBeforeMalformed : List ProgramLine → List Word
  | [] => []
  | .malformed :: _ => []
  | .word w :: rest => w :: wordsBeforeMalformed rest

/-- The words of a program at `a`, `a + 4`, … (30 R66). -/
def Memory.loadWords (m : Memory) (a : Nat) : List Word → Memory
  | [] => m
  | w :: rest => (m.setWordAt a w).loadWords (a + 4) rest

/-- What `load` returns: "the number of words stored" (70 R166), and, DESIGN CHOICE (log 18), the mark that a malformed line
ended it (93 U16 says that it is "reported", not in which form). -/
structure LoadReport where
  count     : Nat
  malformed : Bool
  deriving DecidableEq, Repr

/-- `load(address, file)` (70 R166): changes nothing but `mem`; refused whole where it does not fit (D18). DESIGN CHOICE: whether
it fits is decided on the words before the first malformed line, and a load of no words at an address above 0x100000, on
which the spec is silent, does not fit either (log 18). -/
def hostLoad (address : Nat) (lines : List ProgramLine) (s : State) : HostAnswer LoadReport :=
  let words := wordsBeforeMalformed lines
  betweenRunsOnly s
    (if address + 4 * words.length ≤ Config.memSize then
      .next ({ count := words.length, malformed := decide (.malformed ∈ lines) }, s.setMem (s.mem.loadWords address words))
    else .refused .loadDoesNotFit)

/-- Ticks "until `run != Running`", reporting how the run ended (70 R167). `none`: `ticks` ticks do not end the run, and the
state it has then reached is not given away. -/
def ticksUntilStopped : Nat → State → Option (HostAnswer RunStatus)
  | 0, _ => none
  | ticks + 1, s =>
    match step s with
    | .next t => if t.run = .running then ticksUntilStopped ticks t else some (.next (t.run, t))
    | .fault f => some (.fault f)
    | .refused r => some (.refused r)

/-- What `run()` has answered within `ticks` ticks, if it has. Refused on a stopped machine (70 R167, 93 U14). -/
def hostRunWithin (ticks : Nat) (s : State) : Option (HostAnswer RunStatus) :=
  if s.run ≠ .running then some (.refused .runWhenStopped)
  else if s.betweenRuns then ticksUntilStopped ticks s
  else some (.refused .hostDuringRun)

/-- `run()` on `s` answers `answer` (70 R167). It takes no argument; on a run that never ends it answers nothing (93 U12). -/
def hostRun (s : State) (answer : HostAnswer RunStatus) : Prop := ∃ ticks, hostRunWithin ticks s = some answer

/-- What `show` can be asked for (70 R168). -/
inductive Shown where
  | register (i : RegIdx)
  | all
  | pc
  | hi
  | lo
  deriving DecidableEq, Repr

/-- `show(register | "all" | "pc" | "hi" | "lo")` (70 R168): changes no state. -/
def hostShow (what : Shown) (s : State) : HostAnswer (List Word) :=
  betweenRunsOnly s (.next (match what with
    | .register i => [s.x.read i]
    | .all => s.x.toList
    | .pc => [s.pc]
    | .hi => [s.hi]
    | .lo => [s.lo], s))

/-- `dump(address, length)` (70 R169): changes no state; refused for a range that leaves memory (93 U15). DESIGN
CHOICE: an empty range at an address above 0x100000, on which the spec is silent, is refused too (log 18). -/
def hostDump (address length : Nat) (s : State) : HostAnswer (List Byte) :=
  betweenRunsOnly s
    (if address + length ≤ Config.memSize then
      .next ((List.range length).map (fun k => s.mem.readByte (address + k)), s)
    else .refused .dumpDoesNotFit)

end Sys2Proof.Machine
end

