-- ==== Sys2Proof/Machine/StageRules.lean ====
section
/-! DEFINITION. The pseudocode of the five stages and of the tick as spec 40 R70 to R86 prints it, STAGE BY STAGE, with the
raw fields of the word. The machine does not run it: the machine is written instruction by instruction, as files 41 to 46
are. Claims compare the two. -/

namespace Sys2Proof.Machine

/-- `WB(MEM_WB)` of 40 R73. -/
def wbRule (s : State) : State :=
  match s.memWb with
  | .bubble => s
  | .live m =>
    if m.instr.op = .known .halt then s.setRun .halted
    else if m.regWrite then s.writeReg m.destIndex m.result
    else s

/-- `MEM(EX_MEM)` of 40 R75. -/
def memRule (s : State) : State :=
  match s.exMem with
  | .bubble => s.putMemWb .bubble
  | .live e =>
    match e.instr.op with
    | .known (.lw ..) =>
      match s.mem.readWord e.aluOut with
      | some v => s.putMemWb (.live (forwardRecord e v))
      | none => s.raise .outOfBoundsAddress (dataFaultInfo e)
    | .known (.sw ..) =>
      match s.mem.writeWord e.aluOut e.storeValue with
      | some m => (s.setMem m).putMemWb (.live (forwardRecord e e.aluOut))
      | none => s.raise .outOfBoundsAddress (dataFaultInfo e)
    | .known (.beq ..) => (if e.aluOut = 0#32 then s.setPc e.nextPc else s).putMemWb (.live (forwardRecord e e.aluOut))
    | .known (.bne ..) => (if e.aluOut ≠ 0#32 then s.setPc e.nextPc else s).putMemWb (.live (forwardRecord e e.aluOut))
    | .known (.j ..) => (s.setPc e.nextPc).putMemWb (.live (forwardRecord e e.aluOut))
    | .known (.jal ..) =>
      ((s.setPc e.nextPc).writeReg 31#5 e.fallthroughPc).putMemWb (.live (forwardRecord e e.aluOut))
    | .known (.jr ..) => (s.setPc e.nextPc).putMemWb (.live (forwardRecord e e.aluOut))
    | _ => s.putMemWb (.live (forwardRecord e e.aluOut))

/-- The EX columns of the summary table 40 R91, over the defaults of 40 R77. -/
def exRecord (i : Instr) (d : IdEx) : ExMem :=
  match i with
  | .add .. => { exDefaults d with aluOut := d.reg1Value + d.reg2Value, destIndex := d.rdIndex, regWrite := true }
  | .sub .. => { exDefaults d with aluOut := d.reg1Value - d.reg2Value, destIndex := d.rdIndex, regWrite := true }
  | .and .. => { exDefaults d with aluOut := d.reg1Value &&& d.reg2Value, destIndex := d.rdIndex, regWrite := true }
  | .or .. => { exDefaults d with aluOut := d.reg1Value ||| d.reg2Value, destIndex := d.rdIndex, regWrite := true }
  | .nor .. => { exDefaults d with aluOut := ~~~(d.reg1Value ||| d.reg2Value), destIndex := d.rdIndex, regWrite := true }
  | .slt .. =>
    { exDefaults d with
      aluOut := if d.reg1Value.toInt < d.reg2Value.toInt then 1#32 else 0#32, destIndex := d.rdIndex, regWrite := true }
  | .sll _ _ _ shamt =>
    { exDefaults d with aluOut := d.reg2Value <<< shamt.toNat, destIndex := d.rdIndex, regWrite := true }
  | .srl _ _ _ shamt =>
    { exDefaults d with aluOut := d.reg2Value >>> shamt.toNat, destIndex := d.rdIndex, regWrite := true }
  | .sra _ _ _ shamt =>
    { exDefaults d with aluOut := d.reg2Value.sshiftRight shamt.toNat, destIndex := d.rdIndex, regWrite := true }
  | .addi .. => { exDefaults d with aluOut := d.reg1Value + d.immediate, destIndex := d.rtIndex, regWrite := true }
  | .andi .. => { exDefaults d with aluOut := d.reg1Value &&& d.immediate, destIndex := d.rtIndex, regWrite := true }
  | .ori .. => { exDefaults d with aluOut := d.reg1Value ||| d.immediate, destIndex := d.rtIndex, regWrite := true }
  | .slti .. =>
    { exDefaults d with
      aluOut := if d.reg1Value.toInt < d.immediate.toInt then 1#32 else 0#32, destIndex := d.rtIndex, regWrite := true }
  | .lw .. => { exDefaults d with aluOut := d.reg1Value + d.immediate, destIndex := d.rtIndex, regWrite := true }
  | .sw .. => { exDefaults d with aluOut := d.reg1Value + d.immediate }
  | .beq .. =>
    { exDefaults d with aluOut := d.reg1Value - d.reg2Value, nextPc := d.nextPc + (d.immediate <<< 2) }
  | .bne .. =>
    { exDefaults d with aluOut := d.reg1Value - d.reg2Value, nextPc := d.nextPc + (d.immediate <<< 2) }
  | .j .. => { exDefaults d with nextPc := d.immediate }
  | .jal .. => { exDefaults d with nextPc := d.immediate, destIndex := 31#5 }
  | .jr .. => { exDefaults d with nextPc := d.reg1Value }
  | .halt => exDefaults d

/-- `EX(ID_EX)` of 40 R77. -/
def exRule (s : State) : State :=
  match s.idEx with
  | .bubble => s.putExMem .bubble
  | .live d =>
    match d.instr.op with
    | .unknownOpcode =>
      s.raise .unknownOpcode { pc := d.nextPc - 4#32, word := some d.instr.word, addr := none }
    | .unknownFunct =>
      s.raise .unknownFunct { pc := d.nextPc - 4#32, word := some d.instr.word, addr := none }
    | .known i => s.putExMem (.live (exRecord i d))

/-- `{J, JAL, BEQ, BNE}`: the instructions that stall Fetch (40 R83). -/
def isControl : Decoded → Bool
  | .known (.j ..) | .known (.jal ..) | .known (.beq ..) | .known (.bne ..) => true
  | _ => false

/-- `imm` of 40 R80 and R81. -/
def immediateRule (op : Decoded) (f : IfId) : Word :=
  match op with
  | .known (.j ..) | .known (.jal ..) => (f.nextPc &&& 0xF0000000#32) ||| (f.word.target26.setWidth 32 <<< 2)
  | _ => f.word.imm16.signExtend 32

/-- The ID_EX record of 40 R80, from the raw fields of the word. -/
def idRecord (op : Decoded) (f : IfId) (xStart : Regs) : IdEx :=
  { instr := { op := op, word := f.word }, nextPc := f.nextPc, reg1Value := xStart.read f.word.rs,
    reg2Value := xStart.read f.word.rt, rtIndex := f.word.rt, rdIndex := f.word.rd, immediate := immediateRule op f }

/-- `ID(IF_ID)` of 40 R80. -/
def idRule (s : State) : State :=
  match s.ifId with
  | .bubble => s.putIdEx .bubble
  | .live f =>
    let op := decode s.haltWord f.word
    let stalled := if isControl op then s.setFetchStall 3 else s
    let noted := if op = .known .halt then stalled.setHaltSeen true else stalled
    noted.putIdEx (.live (idRecord op f s.scratch.xStart))

/-- `IF()` of 40 R85 and R86. -/
def ifRule (s : State) : State :=
  if s.haltSeen = true ∨ s.fetchStall ≠ 0 then
    (if s.fetchStall ≠ 0 then s.setFetchStall (s.fetchStall - 1) else s).putIfId .bubble
  else
    match s.mem.readWord s.pc with
    | some word => (s.setPc (s.pc + 4#32)).putIfId (.live { word := word, nextPc := s.pc + 4#32 })
    | none => s.raise .outOfBoundsAddress { pc := s.pc, word := none, addr := some s.pc }

/-- The next stage of the tick, unless a stage has ended it (60 R140 (b), 40 R73). -/
def unlessEnded (s : State) (rule : State → State) : State := if s.run = .running then rule s else s

/-- The latches handed over, or kept where the tick was cut (40 R70, R71, 60 R140 (c)). -/
def closeTick (s : State) : State := if s.run = .running then s.handOver else s.dropTick

/-- `tick(S)` of 40 R70: WB, MEM, EX, ID, IF, then the hand-over. -/
def tickRule (s : State) : State :=
  closeTick (unlessEnded (unlessEnded (unlessEnded (unlessEnded (wbRule s.beginTick) memRule) exRule) idRule) ifRule)

end Sys2Proof.Machine
end

