-- ==== Sys2Proof/WellFormed.lean ====
section
/-! DEFINITION. Which instructions have a word of their own. The fields of `Instr` are bit vectors of the field widths
(spec 30 R51), so every operand is in range by its type; what is left to check is that the instruction's word is not
taken by HALT_WORD, which is compared first (30 R54, D1). -/

namespace Sys2Proof

/-- Either the halt instruction, or an instruction whose word is not `HALT_WORD`: if `HALT_WORD` equals a word of a table
row, "that instruction is lost" (92, Open parameters). -/
def Instr.wellFormed (haltWord : Word) (i : Instr) : Bool :=
  i == .halt || encode haltWord i != haltWord

end Sys2Proof
end

