-- ==== Sys2Proof/Safety.lean ====
section
/-! DEFINITION. The words claims are stated in: runs, an empty pipeline, what a run's final state is, the architectural
effect of an instruction, and the invariants. Nothing here is used by the machine. -/

namespace Sys2Proof.Machine

/-! ### Runs -/

/-- `n` ticks, stopping at the first step that answers no next state. -/
def runTicks : Nat → State → Result
  | 0, s => .next s
  | n + 1, s =>
    match step s with
    | .next t => runTicks n t
    | .fault f => .fault f
    | .refused r => .refused r

/-- "The *final state* of a run is the state in which `run = Halted`" (70 R164); a faulted state is never final. -/
def State.final (s : State) : Prop := s.run = .halted

/-- No fatal error has ended the run (60 R140). -/
def State.safe (s : State) : Prop := ∀ kind info, s.run ≠ .faulted kind info

/-- A run is going and its pipeline is empty, as at reset (10 R26): every latch a bubble, Fetch not frozen. -/
def State.ready (s : State) : Prop :=
  s.run = .running ∧ s.ifId = .bubble ∧ s.idEx = .bubble ∧ s.exMem = .bubble ∧ s.memWb = .bubble ∧ s.fetchStall = 0
    ∧ s.haltSeen = false

/-- Memory holds the words `ws` at `a`, `a + 4`, …, every one of them in bounds. -/
def Memory.holdsWords (m : Memory) (a : Word) : List Word → Prop
  | [] => True
  | w :: ws => m.readWord a = some w ∧ m.holdsWords (a + 4#32) ws

/-- MEM_WB once the halt instruction fetched at `a` has reached it (46 R135). -/
def haltInWb (haltWord a : Word) : Latch MemWb :=
  .live { instr := { op := .known .halt, word := haltWord }, result := 0#32, destIndex := 0#5, regWrite := false,
          fallthroughPc := a + 4#32 }

/-- The state in which a run has halted by the halt instruction at `a` (46 R135), everything else as in `s`. -/
def State.haltedAt (s : State) (a : Word) : State :=
  { s with pc := a + 4#32, ifId := .bubble, idEx := .bubble, exMem := .bubble, memWb := haltInWb s.haltWord a,
           fetchStall := 0, haltSeen := true, run := .halted, scratch := Scratch.idle }

/-! ### The records and the diagnostics of the pseudocode -/

/-- EX_MEM with the defaults of EX (40 R77). -/
def exMemDefault (d : IdEx) : ExMem where
  instr := d.instr
  aluOut := 0#32
  nextPc := d.nextPc
  fallthroughPc := d.nextPc
  storeValue := d.reg2Value
  destIndex := 0#5
  regWrite := false

/-- MEM_WB as MEM forms it around a result (40 R75). -/
def memWbRecord (e : ExMem) (result : Word) : Latch MemWb :=
  .live { instr := e.instr, result := result, destIndex := e.destIndex, regWrite := e.regWrite, fallthroughPc := e.fallthroughPc }

/-- ID_EX of an I-format instruction (40 R80): the immediate is the number the sixteen bits stand for in two's complement,
and `rd_index` is the bits of the immediate that stand where `rd` stands in the R-format. -/
def idExOfImmediate (i : Instr) (rs rt : RegIdx) (imm16 : BitVec 16) (f : IfId) (xStart : Regs) : Latch IdEx :=
  .live { instr := { op := .known i, word := f.word }, nextPc := f.nextPc, reg1Value := xStart.read rs,
          reg2Value := xStart.read rt, rtIndex := rt, rdIndex := imm16.extractLsb' 11 5,
          immediate := BitVec.ofInt 32 imm16.toInt }

/-- The fatal error of an unknown word (60 R141, R142), of an out-of-bounds `lw` or `sw` and of an out-of-bounds fetch at
`a` (60 R143), each with its diagnostic. -/
def wordFault (kind : FaultKind) (d : IdEx) : RunStatus :=
  .faulted kind { pc := d.nextPc - 4#32, word := some d.instr.word, addr := none }
def dataFault (e : ExMem) : RunStatus :=
  .faulted .outOfBoundsAddress { pc := e.fallthroughPc - 4#32, word := some e.instr.word, addr := some e.aluOut }
def fetchFault (a : Word) : RunStatus := .faulted .outOfBoundsAddress { pc := a, word := none, addr := some a }

/-! ### The architectural effect of the ALU instructions (files 41, 42, 43: "Architectural effect") -/

/-- The register an ALU instruction writes and the value it writes there. -/
def aluEffect (x : Regs) : Instr → Option (RegIdx × Word)
  | .add rs rt rd _ => some (rd, x.read rs + x.read rt)
  | .sub rs rt rd _ => some (rd, x.read rs - x.read rt)
  | .and rs rt rd _ => some (rd, x.read rs &&& x.read rt)
  | .or rs rt rd _ => some (rd, x.read rs ||| x.read rt)
  | .nor rs rt rd _ => some (rd, ~~~(x.read rs ||| x.read rt))
  | .slt rs rt rd _ => some (rd, if (x.read rs).toInt < (x.read rt).toInt then 1#32 else 0#32)
  | .sll _ rt rd shamt => some (rd, x.read rt <<< shamt.toNat)
  | .srl _ rt rd shamt => some (rd, x.read rt >>> shamt.toNat)
  | .sra _ rt rd shamt => some (rd, (x.read rt).sshiftRight shamt.toNat)
  | .addi rs rt imm16 => some (rt, x.read rs + imm16.signExtend 32)
  | .andi rs rt imm16 => some (rt, x.read rs &&& imm16.signExtend 32)
  | .ori rs rt imm16 => some (rt, x.read rs ||| imm16.signExtend 32)
  | .slti rs rt imm16 => some (rt, if (x.read rs).toInt < (imm16.signExtend 32).toInt then 1#32 else 0#32)
  | .jr .. | .j .. | .jal .. | .beq .. | .bne .. | .lw .. | .sw .. | .halt => none

/-! ### What a tick's WB and MEM leave (40 R73, R75), and what freezes Fetch in a tick (40 R83, R84, R86) -/

/-- The registers after WB of the tick. -/
def regsAfterWb (s : State) : Regs :=
  match s.memWb with
  | .bubble => s.x
  | .live m => if m.instr.op ≠ .known .halt ∧ m.regWrite = true then s.x.write m.destIndex m.result else s.x

/-- The registers after MEM of the tick: only `jal` writes there. -/
def regsAfterMem (s : State) : Regs :=
  match s.exMem with
  | .bubble => regsAfterWb s
  | .live e =>
    match e.instr.op with
    | .known (.jal _) => (regsAfterWb s).write 31#5 e.fallthroughPc
    | _ => regsAfterWb s

/-- Memory after MEM of the tick: only `sw` writes. -/
def memAfterMem (s : State) : Memory :=
  match s.exMem with
  | .bubble => s.mem
  | .live e =>
    match e.instr.op with
    | .known (.sw ..) => (s.mem.writeWord e.aluOut e.storeValue).getD s.mem
    | _ => s.mem

/-- `pc` after MEM of the tick: a jump or a taken branch writes it. -/
def pcAfterMem (s : State) : Word :=
  match s.exMem with
  | .bubble => s.pc
  | .live e =>
    match e.instr.op with
    | .known (.j _) | .known (.jal _) | .known (.jr ..) => e.nextPc
    | .known (.beq ..) => if e.aluOut = 0#32 then e.nextPc else s.pc
    | .known (.bne ..) => if e.aluOut ≠ 0#32 then e.nextPc else s.pc
    | _ => s.pc

/-- The halt instruction is not in MEM_WB: WB does not end the tick. -/
def wbGoesOn (s : State) : Prop := ∀ m, s.memWb = .live m → m.instr.op ≠ .known .halt

/-- The instruction in EX_MEM, if it is `lw` or `sw`, accesses an address in bounds: MEM does not end the tick. -/
def memGoesOn (s : State) : Prop :=
  ∀ e, s.exMem = .live e → ∀ rs rt imm16, e.instr.op = .known (.lw rs rt imm16) ∨ e.instr.op = .known (.sw rs rt imm16) →
    e.aluOut.toNat ≤ 0xFFFFC

/-- The instruction in ID_EX is not an unknown word: EX does not end the tick. -/
def exGoesOn (s : State) : Prop :=
  ∀ d, s.idEx = .live d → d.instr.op ≠ .unknownOpcode ∧ d.instr.op ≠ .unknownFunct

/-- ID of this tick decodes a control instruction, or the halt instruction. -/
def controlInId (s : State) : Prop := ∃ f, s.ifId = .live f ∧ isControl (decode s.haltWord f.word) = true
def haltInId (s : State) : Prop := ∃ f, s.ifId = .live f ∧ f.word = s.haltWord

/-- Fetch is frozen when IF of this tick runs. -/
def fetchFrozen (s : State) : Prop := s.haltSeen = true ∨ haltInId s ∨ s.fetchStall ≠ 0 ∨ controlInId s

/-! ### Invariants -/

/-- The fourteen instructions that write a register in WB (10 R12 (b)). -/
def writesInWb : Instr → Bool
  | .add .. | .sub .. | .and .. | .or .. | .nor .. | .sll .. | .srl .. | .sra .. | .slt .. => true
  | .addi .. | .andi .. | .ori .. | .slti .. | .lw .. => true
  | .jr .. | .j .. | .jal .. | .beq .. | .bne .. | .sw .. | .halt => false

/-- `dest_index` (10 R20): `rd` for the R-format results, `rt` for the I-format ones, 31 for `jal`, 0 otherwise. -/
def destIndexOf : Instr → RegIdx
  | .add _ _ rd _ | .sub _ _ rd _ | .and _ _ rd _ | .or _ _ rd _ | .nor _ _ rd _ | .slt _ _ rd _ => rd
  | .sll _ _ rd _ | .srl _ _ rd _ | .sra _ _ rd _ => rd
  | .addi _ rt _ | .andi _ rt _ | .ori _ rt _ | .slti _ rt _ | .lw _ rt _ => rt
  | .jal .. => 31#5
  | .jr .. | .j .. | .beq .. | .bne .. | .sw .. | .halt => 0#5

/-- ID_EX holds what ID forms from the word it carries (10 R19). -/
def IdEx.coherent (haltWord : Word) (d : IdEx) : Prop :=
  d.instr.op = decode haltWord d.instr.word ∧ d.rtIndex = d.instr.word.rt ∧ d.rdIndex = d.instr.word.rd
    ∧ d.immediate = immediateRule d.instr.op { word := d.instr.word, nextPc := d.nextPc }

/-- EX_MEM holds an instruction, never an unknown word (46 R136), with its destination (10 R20). -/
def ExMem.coherent (haltWord : Word) (e : ExMem) : Prop :=
  ∃ i, decode haltWord e.instr.word = .known i ∧ e.instr.op = .known i ∧ e.regWrite = writesInWb i
    ∧ e.destIndex = destIndexOf i

/-- MEM_WB likewise (10 R21). -/
def MemWb.coherent (haltWord : Word) (m : MemWb) : Prop :=
  ∃ i, decode haltWord m.instr.word = .known i ∧ m.instr.op = .known i ∧ m.regWrite = writesInWb i
    ∧ m.destIndex = destIndexOf i

/-- Every live latch carries what the decoder reads from its word. -/
def State.latchesCoherent (s : State) : Prop :=
  (∀ d, s.idEx = .live d → d.coherent s.haltWord) ∧ (∀ e, s.exMem = .live e → e.coherent s.haltWord)
    ∧ (∀ m, s.memWb = .live m → m.coherent s.haltWord)

/-- A control instruction (`j`, `jal`, `beq`, `bne`) is in the slot. -/
def controlInEx (s : State) : Prop := ∃ d, s.idEx = .live d ∧ isControl d.instr.op = true
def controlInMem (s : State) : Prop := ∃ e, s.exMem = .live e ∧ isControl e.instr.op = true
def controlInWb (s : State) : Prop := ∃ m, s.memWb = .live m ∧ isControl m.instr.op = true

/-- The halt instruction is in the slot. -/
def haltInEx (s : State) : Prop := ∃ d, s.idEx = .live d ∧ d.instr.op = .known .halt
def haltInMem (s : State) : Prop := ∃ e, s.exMem = .live e ∧ e.instr.op = .known .halt
def haltInWbSlot (s : State) : Prop := ∃ m, s.memWb = .live m ∧ m.instr.op = .known .halt

/-- Between two ticks of a run the stall counter tells where the control instruction stands, and behind it there are only
bubbles (40 R88): 2 while it is in ID_EX, 1 while it is in EX_MEM, 0 otherwise. -/
def State.stallShape (s : State) : Prop :=
  (s.fetchStall = 2 ∧ s.ifId = .bubble ∧ controlInEx s ∧ ¬ controlInMem s ∧ ¬ controlInWb s)
  ∨ (s.fetchStall = 1 ∧ s.ifId = .bubble ∧ s.idEx = .bubble ∧ controlInMem s ∧ ¬ controlInWb s)
  ∨ (s.fetchStall = 0 ∧ ¬ controlInEx s ∧ ¬ controlInMem s
      ∧ (controlInWb s → s.ifId = .bubble ∧ s.idEx = .bubble ∧ s.exMem = .bubble))

/-- Between two ticks of a run `halt_seen` tells that the halt instruction is in ID_EX, EX_MEM or MEM_WB, and behind it
there are only bubbles (40 R90). -/
def State.haltShape (s : State) : Prop :=
  (s.haltSeen = false ∧ ¬ haltInEx s ∧ ¬ haltInMem s ∧ ¬ haltInWbSlot s)
  ∨ (s.haltSeen = true ∧ s.fetchStall = 0 ∧ s.ifId = .bubble ∧
      ((haltInEx s ∧ ¬ haltInMem s ∧ ¬ haltInWbSlot s) ∨ (s.idEx = .bubble ∧ haltInMem s ∧ ¬ haltInWbSlot s)
        ∨ (s.idEx = .bubble ∧ s.exMem = .bubble ∧ haltInWbSlot s)))

/-- The shape of the pipeline while the run is going. -/
def State.pipelineShape (s : State) : Prop := s.run = .running → s.stallShape ∧ s.haltShape

end Sys2Proof.Machine
end

