-- ==== Sys2Proof/Certificates/Slice0/Obligations.lean ====
section
/-! DEFINITION. The statements for the provers. `step` is one tick; `exec i s` is the action of `i` in the stage evaluation
`s.scratch.stage` names, so a statement about an instruction's meaning says what it does in each stage, and the statements
about runs say what it does from fetch to write-back. Every statement holds for every value of the open parameters
HALT_WORD (`s.haltWord`) and SEED (`s.mem.seed`). -/

open Sys2Proof Sys2Proof.Machine

/-! ### Encoding (30) -/

/-- Decoding the word of an instruction that has a word of its own gives it back, whatever its operands: no operand bit is
dropped. -/
def Obligations.DecodeInvertsEncode : Prop :=
  ∀ (haltWord : Word) (i : Instr), i.wellFormed haltWord = true → decode haltWord (encode haltWord i) = .known i

/-- The opcode table, 30 R56, row by row: a word is the instruction when `(w & mask) == match` and `w != HALT_WORD`, and it is
the halt instruction when it is `HALT_WORD`. -/
def Obligations.DecodeFollowsOpcodeTable : Prop :=
  ∀ haltWord w : Word,
    (decode haltWord w = .known .halt ↔ w = haltWord) ∧
    (w ≠ haltWord →
      (decode haltWord w = .known (.sll w.rs w.rt w.rd w.shamt) ↔ w &&& 0xFC00003F#32 = 0x00000000#32) ∧
      (decode haltWord w = .known (.srl w.rs w.rt w.rd w.shamt) ↔ w &&& 0xFC00003F#32 = 0x00000002#32) ∧
      (decode haltWord w = .known (.sra w.rs w.rt w.rd w.shamt) ↔ w &&& 0xFC00003F#32 = 0x00000003#32) ∧
      (decode haltWord w = .known (.jr w.rs w.rt w.rd w.shamt) ↔ w &&& 0xFC00003F#32 = 0x00000008#32) ∧
      (decode haltWord w = .known (.add w.rs w.rt w.rd w.shamt) ↔ w &&& 0xFC00003F#32 = 0x00000020#32) ∧
      (decode haltWord w = .known (.sub w.rs w.rt w.rd w.shamt) ↔ w &&& 0xFC00003F#32 = 0x00000022#32) ∧
      (decode haltWord w = .known (.and w.rs w.rt w.rd w.shamt) ↔ w &&& 0xFC00003F#32 = 0x00000024#32) ∧
      (decode haltWord w = .known (.or w.rs w.rt w.rd w.shamt) ↔ w &&& 0xFC00003F#32 = 0x00000025#32) ∧
      (decode haltWord w = .known (.nor w.rs w.rt w.rd w.shamt) ↔ w &&& 0xFC00003F#32 = 0x00000027#32) ∧
      (decode haltWord w = .known (.slt w.rs w.rt w.rd w.shamt) ↔ w &&& 0xFC00003F#32 = 0x0000002A#32) ∧
      (decode haltWord w = .known (.j w.target26) ↔ w &&& 0xFC000000#32 = 0x08000000#32) ∧
      (decode haltWord w = .known (.jal w.target26) ↔ w &&& 0xFC000000#32 = 0x0C000000#32) ∧
      (decode haltWord w = .known (.beq w.rs w.rt w.imm16) ↔ w &&& 0xFC000000#32 = 0x10000000#32) ∧
      (decode haltWord w = .known (.bne w.rs w.rt w.imm16) ↔ w &&& 0xFC000000#32 = 0x14000000#32) ∧
      (decode haltWord w = .known (.addi w.rs w.rt w.imm16) ↔ w &&& 0xFC000000#32 = 0x20000000#32) ∧
      (decode haltWord w = .known (.slti w.rs w.rt w.imm16) ↔ w &&& 0xFC000000#32 = 0x28000000#32) ∧
      (decode haltWord w = .known (.andi w.rs w.rt w.imm16) ↔ w &&& 0xFC000000#32 = 0x30000000#32) ∧
      (decode haltWord w = .known (.ori w.rs w.rt w.imm16) ↔ w &&& 0xFC000000#32 = 0x34000000#32) ∧
      (decode haltWord w = .known (.lw w.rs w.rt w.imm16) ↔ w &&& 0xFC000000#32 = 0x8C000000#32) ∧
      (decode haltWord w = .known (.sw w.rs w.rt w.imm16) ↔ w &&& 0xFC000000#32 = 0xAC000000#32))

/-- 30 R58: the two kinds of unknown encoding, by its lists, and their end: an unknown word in ID_EX ends the run with the
fatal error of its kind in that tick (unless WB or MEM of the tick ended it), it never executes as a no-op. -/
def Obligations.UnknownEncodingsAreTheRest : Prop :=
  (∀ haltWord w : Word,
    (decode haltWord w = .unknownFunct ↔ w ≠ haltWord ∧ w.opcode = 0x00#6 ∧
      w.funct ∉ [0x00#6, 0x02#6, 0x03#6, 0x08#6, 0x20#6, 0x22#6, 0x24#6, 0x25#6, 0x27#6, 0x2A#6]) ∧
    (decode haltWord w = .unknownOpcode ↔ w ≠ haltWord ∧
      w.opcode ∉ [0x00#6, 0x02#6, 0x03#6, 0x04#6, 0x05#6, 0x08#6, 0x0A#6, 0x0C#6, 0x0D#6, 0x23#6, 0x2B#6])) ∧
  (∀ (s : State) (d : IdEx), s.run = .running → wbGoesOn s → memGoesOn s → s.idEx = .live d →
    (d.instr.op = .unknownFunct → ∃ t info, step s = .next t ∧ t.run = .faulted .unknownFunct info) ∧
    (d.instr.op = .unknownOpcode → ∃ t info, step s = .next t ∧ t.run = .faulted .unknownOpcode info))

/-- "The word built from fields" of 30 R51, as numbers, for one instruction of each format and for every operand. The field
positions are the spec's decision D7 (log 5). -/
def Obligations.WordIsTheSumOfItsFields : Prop :=
  ∀ (haltWord : Word) (rs rt rd shamt : RegIdx) (imm16 : BitVec 16) (target26 : BitVec 26),
    (encode haltWord (.slt rs rt rd shamt)).toNat =
      rs.toNat * 2 ^ 21 + rt.toNat * 2 ^ 16 + rd.toNat * 2 ^ 11 + shamt.toNat * 2 ^ 6 + 0x2A ∧
    (encode haltWord (.sw rs rt imm16)).toNat = 0x2B * 2 ^ 26 + rs.toNat * 2 ^ 21 + rt.toNat * 2 ^ 16 + imm16.toNat ∧
    (encode haltWord (.jal target26)).toNat = 0x03 * 2 ^ 26 + target26.toNat

/-- The decoder vectors of 95 section 2.7, with `HALT_WORD` = 0xFFFFFFFF. -/
def Obligations.DecoderVectors : Prop :=
  decode 0xFFFFFFFF#32 0x00000000#32 = .known (.sll 0#5 0#5 0#5 0#5) ∧
  decode 0xFFFFFFFF#32 0x012A4020#32 = .known (.add 9#5 10#5 8#5 0#5) ∧
  decode 0xFFFFFFFF#32 0x000A4083#32 = .known (.sra 0#5 10#5 8#5 2#5) ∧
  decode 0xFFFFFFFF#32 0x8FA80004#32 = .known (.lw 29#5 8#5 0x0004#16) ∧
  decode 0xFFFFFFFF#32 0xAFBFFFFC#32 = .known (.sw 29#5 31#5 0xFFFC#16) ∧
  decode 0xFFFFFFFF#32 0x0C000410#32 = .known (.jal 0x0000410#26) ∧
  decode 0xFFFFFFFF#32 0x03E00008#32 = .known (.jr 31#5 0#5 0#5 0#5) ∧
  decode 0xFFFFFFFF#32 0x03FFFFC8#32 = .known (.jr 31#5 31#5 31#5 31#5) ∧
  decode 0xFFFFFFFF#32 0x0000000C#32 = .unknownFunct ∧
  decode 0xFFFFFFFF#32 0x3C011234#32 = .unknownOpcode ∧
  decode 0xFFFFFFFF#32 0xFFFFFFFF#32 = .known .halt

/-! ### Memory (20) -/

/-- `MemRead` (20 R31, R34): the four bytes, the first the most significant; nothing for an access that is not wholly inside
memory. -/
def Obligations.MemReadIsBigEndianAndBounded : Prop :=
  ∀ (m : Memory) (a : Word),
    (a.toNat ≤ 0x000FFFFC → ∃ v, m.readWord a = some v ∧ v.toNat =
      (m.readByte a.toNat).toNat * 2 ^ 24 + (m.readByte (a.toNat + 1)).toNat * 2 ^ 16
        + (m.readByte (a.toNat + 2)).toNat * 2 ^ 8 + (m.readByte (a.toNat + 3)).toNat) ∧
    (0x000FFFFC < a.toNat → m.readWord a = none)

/-- `MemWrite` (20 R32, R34): four bytes, the first the most significant, and no other; no byte at all for an access that is
not wholly inside memory. -/
def Obligations.MemWriteIsBigEndianAndBounded : Prop :=
  ∀ (m : Memory) (a v : Word), m.wf = true →
    (a.toNat ≤ 0x000FFFFC → ∃ m', m.writeWord a v = some m' ∧
      (m'.readByte a.toNat).toNat = v.toNat / 2 ^ 24 ∧
      (m'.readByte (a.toNat + 1)).toNat = v.toNat / 2 ^ 16 % 2 ^ 8 ∧
      (m'.readByte (a.toNat + 2)).toNat = v.toNat / 2 ^ 8 % 2 ^ 8 ∧
      (m'.readByte (a.toNat + 3)).toNat = v.toNat % 2 ^ 8 ∧
      (∀ b, b < a.toNat ∨ a.toNat + 4 ≤ b → m'.readByte b = m.readByte b)) ∧
    (0x000FFFFC < a.toNat → m.writeWord a v = none)

/-- A word read at any address `b` after a word was written at any address `a` (20 R33, R35; that no access needs alignment is
D8, log 16): byte by byte, each byte read is the byte written there, or the byte that stood there where the write did not
reach; and in terms of words, for a read `k` bytes above the write and for a read `k` bytes below it. -/
def Obligations.OverlappingReadSeesTheWrittenBytes : Prop :=
  ∀ (m m' : Memory) (a b v : Word), m.wf = true → m.writeWord a v = some m' → b.toNat ≤ 0x000FFFFC →
    ∃ w, m'.readWord b = some w ∧
      (∀ j, j < 4 → w.toNat / 2 ^ (8 * (3 - j)) % 2 ^ 8 =
        if a.toNat ≤ b.toNat + j ∧ b.toNat + j < a.toNat + 4
        then v.toNat / 2 ^ (8 * (3 - (b.toNat + j - a.toNat))) % 2 ^ 8 else (m.readByte (b.toNat + j)).toNat) ∧
      (∀ k, k < 4 → b.toNat = a.toNat + k → w.toNat / 2 ^ (8 * k) = v.toNat % 2 ^ (32 - 8 * k)) ∧
      (∀ k, k < 4 → a.toNat = b.toNat + k → w.toNat % 2 ^ (32 - 8 * k) = v.toNat / 2 ^ (8 * k))

/-- Memories in canonical form that read alike everywhere are equal data (the model's own form of memory, log 4). -/
def Obligations.CanonicalMemoryIsExtensional : Prop :=
  ∀ m m' : Memory, m.wf = true → m'.wf = true → m.seed = m'.seed → (∀ a, m.readByte a = m'.readByte a) → m = m'

/-! ### Registers and reset (10) -/

/-- 10 R11: the guarded write, and register 0 zero at reset (which the spec derives from the rest of the rule) and after
every step from a state in which it is zero. -/
def Obligations.RegisterZeroStaysZero : Prop :=
  (∀ (x : Regs) (v : Word), x.write 0#5 v = x) ∧
  (∀ (x : Regs) (i j : RegIdx) (v : Word), i ≠ 0#5 → (x.write i v).read j = if j = i then v else x.read j) ∧
  (∀ (haltWord : Word) (seed : List Byte), (State.resetWith haltWord seed).x.read 0#5 = 0#32) ∧
  (∀ s t : State, s.x.read 0#5 = 0#32 → step s = .next t → t.x.read 0#5 = 0#32)

/-- The table of 10 R26, for every value of the open parameters. The index 29 is the spec's decision D7 (log 5), the zeros
of the other registers, `hi` and `lo` its decision D9 (log 6), the pipeline's values its decision D10 (log 7). -/
def Obligations.ResetStateIsTheTable : Prop :=
  ∀ (haltWord : Word) (seed : List Byte), seed.length ≤ 0x1000 →
    let s := State.resetWith haltWord seed
    s.pc = 0x00001000#32 ∧ s.x.read 29#5 = 0x00008000#32 ∧ (∀ i : RegIdx, i ≠ 29#5 → s.x.read i = 0#32) ∧
    s.hi = 0#32 ∧ s.lo = 0#32 ∧
    (∀ a, seed.length ≤ a → s.mem.readByte a = 0#8) ∧ (∀ (a : Nat) (b : Byte), seed[a]? = some b → s.mem.readByte a = b) ∧
    s.ready ∧ s.haltWord = haltWord

/-- The state after reset meets every invariant of this file: register 0 is zero (10 R11), and by the model's choices memory
is in its canonical form (log 4), the scratch is idle (log 1), and the empty pipeline of reset (the spec's decision D10, log 7)
has coherent latches and the shape of a pipeline. -/
def Obligations.ResetMeetsTheInvariants : Prop :=
  ∀ (haltWord : Word) (seed : List Byte), seed.length ≤ 0x1000 →
    let s := State.resetWith haltWord seed
    s.x.read 0#5 = 0#32 ∧ s.mem.wf = true ∧ s.latchesCoherent ∧ s.pipelineShape ∧ s.scratch = Scratch.idle

/-! ### The meanings, family by family (41 to 46) -/

/-- 41 R100 to R105 (what each mnemonic computes is the spec's decision D14, log 13). EX: the ALU result for `rd`. MEM:
passed on. WB: the guarded write of the result, and nothing else changes. -/
def Obligations.AluRegisterByStage : Prop :=
  ∀ (rs rt rd shamt : RegIdx) (s : State),
    (∀ d : IdEx, s.scratch.stage = .ex → s.idEx = .live d →
      exec (.add rs rt rd shamt) s = .next (s.putExMem (.live { exMemDefault d with
        aluOut := d.reg1Value + d.reg2Value, destIndex := d.rdIndex, regWrite := true })) ∧
      exec (.sub rs rt rd shamt) s = .next (s.putExMem (.live { exMemDefault d with
        aluOut := d.reg1Value - d.reg2Value, destIndex := d.rdIndex, regWrite := true })) ∧
      exec (.and rs rt rd shamt) s = .next (s.putExMem (.live { exMemDefault d with
        aluOut := d.reg1Value &&& d.reg2Value, destIndex := d.rdIndex, regWrite := true })) ∧
      exec (.or rs rt rd shamt) s = .next (s.putExMem (.live { exMemDefault d with
        aluOut := d.reg1Value ||| d.reg2Value, destIndex := d.rdIndex, regWrite := true })) ∧
      exec (.nor rs rt rd shamt) s = .next (s.putExMem (.live { exMemDefault d with
        aluOut := ~~~(d.reg1Value ||| d.reg2Value), destIndex := d.rdIndex, regWrite := true })) ∧
      exec (.slt rs rt rd shamt) s = .next (s.putExMem (.live { exMemDefault d with
        aluOut := if d.reg1Value.toInt < d.reg2Value.toInt then 1#32 else 0#32, destIndex := d.rdIndex, regWrite := true }))) ∧
    (∀ i ∈ [Instr.add rs rt rd shamt, .sub rs rt rd shamt, .and rs rt rd shamt, .or rs rt rd shamt, .nor rs rt rd shamt,
        .slt rs rt rd shamt],
      (∀ e : ExMem, s.scratch.stage = .mem → s.exMem = .live e →
        exec i s = .next (s.putMemWb (memWbRecord e e.aluOut))) ∧
      (∀ m : MemWb, s.scratch.stage = .wb → s.memWb = .live m → m.regWrite = true →
        exec i s = .next { s with x := s.x.write m.destIndex m.result }))

/-- 42 R110 to R112 (D14, log 13): the shift of `reg2_value` by the `shamt` field. -/
def Obligations.ShiftsByStage : Prop :=
  ∀ (rs rt rd shamt : RegIdx) (s : State),
    (∀ d : IdEx, s.scratch.stage = .ex → s.idEx = .live d →
      exec (.sll rs rt rd shamt) s = .next (s.putExMem (.live { exMemDefault d with
        aluOut := BitVec.ofNat 32 (d.reg2Value.toNat * 2 ^ shamt.toNat), destIndex := d.rdIndex, regWrite := true })) ∧
      exec (.srl rs rt rd shamt) s = .next (s.putExMem (.live { exMemDefault d with
        aluOut := BitVec.ofNat 32 (d.reg2Value.toNat / 2 ^ shamt.toNat), destIndex := d.rdIndex, regWrite := true })) ∧
      exec (.sra rs rt rd shamt) s = .next (s.putExMem (.live { exMemDefault d with
        aluOut := BitVec.ofInt 32 (d.reg2Value.toInt / 2 ^ shamt.toNat), destIndex := d.rdIndex, regWrite := true }))) ∧
    (∀ i ∈ [Instr.sll rs rt rd shamt, .srl rs rt rd shamt, .sra rs rt rd shamt],
      (∀ e : ExMem, s.scratch.stage = .mem → s.exMem = .live e →
        exec i s = .next (s.putMemWb (memWbRecord e e.aluOut))) ∧
      (∀ m : MemWb, s.scratch.stage = .wb → s.memWb = .live m → m.regWrite = true →
        exec i s = .next { s with x := s.x.write m.destIndex m.result }))

/-- 43 R115 to R118 (D6, D14, log 13): the immediate is the sign-extended one in all four. -/
def Obligations.AluImmediateByStage : Prop :=
  ∀ (rs rt : RegIdx) (imm16 : BitVec 16) (s : State),
    (∀ f : IfId, s.scratch.stage = .id → s.ifId = .live f →
      ∀ i ∈ [Instr.addi rs rt imm16, .andi rs rt imm16, .ori rs rt imm16, .slti rs rt imm16],
        exec i s = .next (s.putIdEx (idExOfImmediate i rs rt imm16 f s.scratch.xStart))) ∧
    (∀ d : IdEx, s.scratch.stage = .ex → s.idEx = .live d →
      exec (.addi rs rt imm16) s = .next (s.putExMem (.live { exMemDefault d with
        aluOut := d.reg1Value + d.immediate, destIndex := d.rtIndex, regWrite := true })) ∧
      exec (.andi rs rt imm16) s = .next (s.putExMem (.live { exMemDefault d with
        aluOut := d.reg1Value &&& d.immediate, destIndex := d.rtIndex, regWrite := true })) ∧
      exec (.ori rs rt imm16) s = .next (s.putExMem (.live { exMemDefault d with
        aluOut := d.reg1Value ||| d.immediate, destIndex := d.rtIndex, regWrite := true })) ∧
      exec (.slti rs rt imm16) s = .next (s.putExMem (.live { exMemDefault d with
        aluOut := if d.reg1Value.toInt < d.immediate.toInt then 1#32 else 0#32, destIndex := d.rtIndex, regWrite := true }))) ∧
    (∀ i ∈ [Instr.addi rs rt imm16, .andi rs rt imm16, .ori rs rt imm16, .slti rs rt imm16],
      (∀ e : ExMem, s.scratch.stage = .mem → s.exMem = .live e →
        exec i s = .next (s.putMemWb (memWbRecord e e.aluOut))) ∧
      (∀ m : MemWb, s.scratch.stage = .wb → s.memWb = .live m → m.regWrite = true →
        exec i s = .next { s with x := s.x.write m.destIndex m.result }))

/-- 44 R120: EX forms the address, MEM loads the word there, WB writes it; out of bounds, MEM ends the run with the
diagnostic of 60 R143 and writes no register. -/
def Obligations.LoadWordByStage : Prop :=
  ∀ (rs rt : RegIdx) (imm16 : BitVec 16) (s : State),
    (∀ d : IdEx, s.scratch.stage = .ex → s.idEx = .live d →
      exec (.lw rs rt imm16) s = .next (s.putExMem (.live { exMemDefault d with
        aluOut := d.reg1Value + d.immediate, destIndex := d.rtIndex, regWrite := true }))) ∧
    (∀ e : ExMem, s.scratch.stage = .mem → s.exMem = .live e → e.aluOut.toNat ≤ 0x000FFFFC →
      exec (.lw rs rt imm16) s = .next (s.putMemWb (memWbRecord e (s.mem.wordAt e.aluOut.toNat)))) ∧
    (∀ e : ExMem, s.scratch.stage = .mem → s.exMem = .live e → 0x000FFFFC < e.aluOut.toNat →
      exec (.lw rs rt imm16) s = .next { s with run := dataFault e }) ∧
    (∀ m : MemWb, s.scratch.stage = .wb → s.memWb = .live m → m.regWrite = true →
      exec (.lw rs rt imm16) s = .next { s with x := s.x.write m.destIndex m.result })

/-- 44 R121: EX forms the address and the value, MEM stores the four bytes at the address and no other, WB writes nothing;
out of bounds, MEM ends the run and writes no byte. -/
def Obligations.StoreWordByStage : Prop :=
  ∀ (rs rt : RegIdx) (imm16 : BitVec 16) (s : State),
    (∀ d : IdEx, s.scratch.stage = .ex → s.idEx = .live d →
      exec (.sw rs rt imm16) s = .next (s.putExMem (.live { exMemDefault d with
        aluOut := d.reg1Value + d.immediate, storeValue := d.reg2Value, destIndex := 0#5, regWrite := false }))) ∧
    (∀ e : ExMem, s.scratch.stage = .mem → s.exMem = .live e → e.aluOut.toNat ≤ 0x000FFFFC → s.mem.wf = true →
      ∃ m : Memory,
        exec (.sw rs rt imm16) s = .next ({ s with mem := m }.putMemWb (memWbRecord e e.aluOut)) ∧
        m.readWord e.aluOut = some e.storeValue ∧
        (∀ b, b < e.aluOut.toNat ∨ e.aluOut.toNat + 4 ≤ b → m.readByte b = s.mem.readByte b)) ∧
    (∀ e : ExMem, s.scratch.stage = .mem → s.exMem = .live e → 0x000FFFFC < e.aluOut.toNat →
      exec (.sw rs rt imm16) s = .next { s with run := dataFault e }) ∧
    (∀ m : MemWb, s.scratch.stage = .wb → s.memWb = .live m → m.regWrite = false → exec (.sw rs rt imm16) s = .next s)

/-- 45 R125, R126: ID requests the stall, EX forms the target and the difference, MEM writes `pc` exactly if the branch is
taken, WB writes nothing. -/
def Obligations.BranchesByStage : Prop :=
  ∀ (rs rt : RegIdx) (imm16 : BitVec 16) (s : State), ∀ i ∈ [Instr.beq rs rt imm16, .bne rs rt imm16],
    (∀ f : IfId, s.scratch.stage = .id → s.ifId = .live f →
      exec i s = .next ({ s with fetchStall := 3 }.putIdEx (idExOfImmediate i rs rt imm16 f s.scratch.xStart))) ∧
    (∀ d : IdEx, s.scratch.stage = .ex → s.idEx = .live d →
      exec i s = .next (s.putExMem (.live { exMemDefault d with
        aluOut := d.reg1Value - d.reg2Value, nextPc := d.nextPc + BitVec.ofNat 32 (4 * d.immediate.toNat) }))) ∧
    (∀ e : ExMem, s.scratch.stage = .mem → s.exMem = .live e →
      exec i s = .next ((if (i = .beq rs rt imm16 ∧ e.aluOut = 0#32) ∨ (i = .bne rs rt imm16 ∧ e.aluOut ≠ 0#32)
        then { s with pc := e.nextPc } else s).putMemWb (memWbRecord e e.aluOut))) ∧
    (∀ m : MemWb, s.scratch.stage = .wb → s.memWb = .live m → m.regWrite = false → exec i s = .next s)

/-- 45 R127, R128: ID forms the absolute target and requests the stall, MEM writes `pc`, and for `jal` the address of the
`jal` + 4 into register 31 (D5, D7: logs 14 and 5). -/
def Obligations.JumpsByStage : Prop :=
  ∀ (target26 : BitVec 26) (s : State),
    (∀ i ∈ [Instr.j target26, .jal target26],
      (∀ f : IfId, s.scratch.stage = .id → s.ifId = .live f →
        ∃ d : IdEx, exec i s = .next ({ s with fetchStall := 3 }.putIdEx (.live d)) ∧
          d.instr = { op := .known i, word := f.word } ∧ d.nextPc = f.nextPc ∧
          d.immediate.toNat = f.nextPc.toNat / 2 ^ 28 * 2 ^ 28 + target26.toNat * 4) ∧
      (∀ d : IdEx, s.scratch.stage = .ex → s.idEx = .live d →
        exec i s = .next (s.putExMem (.live { exMemDefault d with
          nextPc := d.immediate, destIndex := if i = .j target26 then 0#5 else 31#5 }))) ∧
      (∀ m : MemWb, s.scratch.stage = .wb → s.memWb = .live m → m.regWrite = false → exec i s = .next s)) ∧
    (∀ e : ExMem, s.scratch.stage = .mem → s.exMem = .live e →
      exec (.j target26) s = .next ({ s with pc := e.nextPc }.putMemWb (memWbRecord e e.aluOut)) ∧
      exec (.jal target26) s =
        .next ({ s with pc := e.nextPc, x := s.x.write 31#5 e.fallthroughPc }.putMemWb (memWbRecord e e.aluOut)))

/-- 45 R129 (D4, log 14): ID requests no stall, EX takes the register value as target, MEM writes `pc`. -/
def Obligations.JumpRegisterByStage : Prop :=
  ∀ (rs rt rd shamt : RegIdx) (s : State),
    (∀ f : IfId, s.scratch.stage = .id → s.ifId = .live f →
      ∃ d : IdEx, exec (.jr rs rt rd shamt) s = .next (s.putIdEx (.live d)) ∧
        d.instr = { op := .known (.jr rs rt rd shamt), word := f.word } ∧ d.nextPc = f.nextPc ∧
        d.reg1Value = s.scratch.xStart.read rs) ∧
    (∀ d : IdEx, s.scratch.stage = .ex → s.idEx = .live d →
      exec (.jr rs rt rd shamt) s = .next (s.putExMem (.live { exMemDefault d with nextPc := d.reg1Value }))) ∧
    (∀ e : ExMem, s.scratch.stage = .mem → s.exMem = .live e →
      exec (.jr rs rt rd shamt) s = .next ({ s with pc := e.nextPc }.putMemWb (memWbRecord e e.aluOut))) ∧
    (∀ m : MemWb, s.scratch.stage = .wb → s.memWb = .live m → m.regWrite = false →
      exec (.jr rs rt rd shamt) s = .next s)

/-- 46 R135 (D2, log 20): ID sets `halt_seen`, EX and MEM do nothing of their own, WB ends the run. -/
def Obligations.HaltByStage : Prop :=
  ∀ s : State,
    (∀ f : IfId, s.scratch.stage = .id → s.ifId = .live f →
      ∃ d : IdEx, exec .halt s = .next ({ s with haltSeen := true }.putIdEx (.live d)) ∧
        d.instr = { op := .known .halt, word := f.word } ∧ d.nextPc = f.nextPc) ∧
    (∀ d : IdEx, s.scratch.stage = .ex → s.idEx = .live d →
      exec .halt s = .next (s.putExMem (.live (exMemDefault d)))) ∧
    (∀ e : ExMem, s.scratch.stage = .mem → s.exMem = .live e →
      exec .halt s = .next (s.putMemWb (memWbRecord e e.aluOut))) ∧
    (∀ m : MemWb, s.scratch.stage = .wb → s.memWb = .live m → exec .halt s = .next { s with run := .halted })

/-- 40 R80 for every instruction: ID of the instruction whose word is in IF_ID forms ID_EX from the raw fields of the word
and the registers as of the start of the tick; the four control instructions set `fetch_stall` to 3, halt sets
`halt_seen`, the others touch neither; nothing else changes. -/
def Obligations.IdOfEveryInstruction : Prop :=
  ∀ (i : Instr) (s : State) (f : IfId), s.scratch.stage = .id → s.ifId = .live f →
    decode s.haltWord f.word = .known i →
    exec i s = .next ({ s with fetchStall := if isControl (.known i) then 3 else s.fetchStall,
                               haltSeen := s.haltSeen || decide (i = Instr.halt) }.putIdEx
      (.live { instr := { op := .known i, word := f.word }, nextPc := f.nextPc,
               reg1Value := s.scratch.xStart.read (f.word.extractLsb' 21 5),
               reg2Value := s.scratch.xStart.read (f.word.extractLsb' 16 5),
               rtIndex := f.word.extractLsb' 16 5, rdIndex := f.word.extractLsb' 11 5,
               immediate := if f.word ≠ s.haltWord ∧ (f.word.opcode = 0x02#6 ∨ f.word.opcode = 0x03#6)
                 then (f.nextPc &&& 0xF0000000#32) ||| ((f.word &&& 0x03FFFFFF#32) <<< 2)
                 else (f.word.extractLsb' 0 16).signExtend 32 }))

/-- Fields an instruction does not use change nothing after ID, where only their raw bits are carried along (30 R57, the
spec's decision D19): `shamt` of the six register-register instructions, `rs` of the shifts, `rt`, `rd`, `shamt` of `jr`. -/
def Obligations.UnusedFieldsAreIgnored : Prop :=
  ∀ (rs rs' rt rt' rd rd' shamt shamt' : RegIdx) (s : State), s.scratch.stage ≠ .id →
    exec (.add rs rt rd shamt) s = exec (.add rs rt rd shamt') s ∧
    exec (.sub rs rt rd shamt) s = exec (.sub rs rt rd shamt') s ∧
    exec (.and rs rt rd shamt) s = exec (.and rs rt rd shamt') s ∧
    exec (.or rs rt rd shamt) s = exec (.or rs rt rd shamt') s ∧
    exec (.nor rs rt rd shamt) s = exec (.nor rs rt rd shamt') s ∧
    exec (.slt rs rt rd shamt) s = exec (.slt rs rt rd shamt') s ∧
    exec (.sll rs rt rd shamt) s = exec (.sll rs' rt rd shamt) s ∧
    exec (.srl rs rt rd shamt) s = exec (.srl rs' rt rd shamt) s ∧
    exec (.sra rs rt rd shamt) s = exec (.sra rs' rt rd shamt) s ∧
    exec (.jr rs rt rd shamt) s = exec (.jr rs rt' rd' shamt') s

/-! ### One tick (40) -/

/-- The machine, written instruction by instruction, steps as the stage-by-stage pseudocode of 40 R70 to R86 says, with the
EX assignments of the instruction rules of 41 to 46 (summed up in 40 R91) and the cut of 60 R140. The pseudocode carries the
spec's decisions: logs 13 (D14, D6), 14 (D4, D5), 15 (D15), 16 (D8, D13), 17 (D12, D17), 19 (D3), 20 (D2), 22 (D20), 23 (D21);
an unknown word in EX_MEM or MEM_WB is log 10. -/
def Obligations.StepIsTheTickPseudocode : Prop :=
  ∀ s : State, s.run = .running → step s = .next (tickRule s)

/-- A step runs the decoded instructions. In any pipeline the evaluation of a stage whose latch holds an instruction is `exec`
of it in that stage (a bubble: `BubbleCommitsNothing`), and a step is the evaluations of WB, MEM, EX, ID, IF, each unless one
before it ended the run, and then the hand-over of the latches. So with instructions `iw`, `im`, `ie` in MEM_WB, EX_MEM and
ID_EX and the word of `id` in IF_ID, a step is `exec` of the four, in that order, then IF. -/
def Obligations.StepRunsTheDecodedInstructions : Prop :=
  (∀ s : State,
    (s.run = .running →
      step s = endTick (andThen (andThen (andThen (andThen (wbStage s.beginTick) memStage) exStage) idStage) ifStage)) ∧
    (∀ m i, s.memWb = .live m → m.instr.op = .known i → wbStage s = exec i (s.atStage .wb)) ∧
    (∀ e i, s.exMem = .live e → e.instr.op = .known i → memStage s = exec i (s.atStage .mem)) ∧
    (∀ d i, s.idEx = .live d → d.instr.op = .known i → exStage s = exec i (s.atStage .ex)) ∧
    (∀ f i, s.ifId = .live f → decode s.haltWord f.word = .known i → idStage s = exec i (s.atStage .id))) ∧
  (∀ (s : State) (iw im ie id : Instr) (m : MemWb) (e : ExMem) (d : IdEx) (f : IfId), s.run = .running →
    s.memWb = .live m → m.instr.op = .known iw → s.exMem = .live e → e.instr.op = .known im →
    s.idEx = .live d → d.instr.op = .known ie → s.ifId = .live f → decode s.haltWord f.word = .known id →
    step s =
      endTick (andThen (andThen (andThen (andThen (exec iw (s.beginTick.atStage .wb)) (fun t => exec im (t.atStage .mem)))
        (fun t => exec ie (t.atStage .ex))) (fun t => exec id (t.atStage .id))) ifStage))

/-- With an empty pipeline the step fetches the word at `pc`, advances `pc`, and does nothing else (40 R85, R89). -/
def Obligations.FirstTickFetchesAtPc : Prop :=
  ∀ (s : State) (w : Word), s.ready → s.mem.readWord s.pc = some w →
    step s = .next { s with pc := s.pc + 4#32, ifId := .live { word := w, nextPc := s.pc + 4#32 },
                            scratch := Scratch.idle }

/-- IF in every tick that runs to its end (40 R85, R86): frozen, IF_ID is a bubble, `pc` is as MEM left it and a positive
stall count goes down by one; otherwise IF_ID is the word at the `pc` that MEM left, from the memory that MEM left, and
`pc` advances by 4. -/
def Obligations.FetchOfEveryTick : Prop :=
  ∀ s t : State, s.run = .running → step s = .next t → t.run = .running →
    (fetchFrozen s → t.ifId = .bubble ∧ t.pc = pcAfterMem s ∧
      (controlInId s → t.fetchStall = 2) ∧ (¬ controlInId s → t.fetchStall.toNat = s.fetchStall.toNat - 1)) ∧
    (¬ fetchFrozen s → ∃ w, (memAfterMem s).readWord (pcAfterMem s) = some w ∧
      t.ifId = .live { word := w, nextPc := pcAfterMem s + 4#32 } ∧ t.pc = pcAfterMem s + 4#32 ∧ t.fetchStall = 0)

/-- 10 R27, 40 R89: a stage whose input latch is a bubble does nothing and outputs a bubble. -/
def Obligations.BubbleCommitsNothing : Prop :=
  ∀ s : State,
    (s.memWb = .bubble → wbStage s = .next (s.atStage .wb)) ∧
    (s.exMem = .bubble → memStage s = .next ((s.atStage .mem).putMemWb .bubble)) ∧
    (s.idEx = .bubble → exStage s = .next ((s.atStage .ex).putExMem .bubble)) ∧
    (s.ifId = .bubble → idStage s = .next ((s.atStage .id).putIdEx .bubble))

/-- 40 R71, R72: in a tick that runs to its end every instruction advances exactly one stage, none is removed, and bubbles
move along. -/
def Obligations.InstructionsAdvanceOneStage : Prop :=
  ∀ s t : State, s.run = .running → step s = .next t → t.run = .running →
    (∀ f, s.ifId = .live f → ∃ d, t.idEx = .live d ∧
      d.instr = { op := decode s.haltWord f.word, word := f.word } ∧ d.nextPc = f.nextPc) ∧
    (∀ d, s.idEx = .live d → ∃ e, t.exMem = .live e ∧ e.instr = d.instr ∧ e.fallthroughPc = d.nextPc) ∧
    (∀ e, s.exMem = .live e → ∃ m, t.memWb = .live m ∧ m.instr = e.instr ∧ m.fallthroughPc = e.fallthroughPc) ∧
    (s.ifId = .bubble → t.idEx = .bubble) ∧ (s.idEx = .bubble → t.exMem = .bubble) ∧ (s.exMem = .bubble → t.memWb = .bubble)

/-- 40 R82: whatever WB and MEM write in the tick, ID reads the registers as they stood at its start; both registers are
read for every live word. -/
def Obligations.RegistersAreReadAsOfTickStart : Prop :=
  ∀ (s t : State) (f : IfId), s.run = .running → step s = .next t → t.run = .running → s.ifId = .live f →
    ∃ d, t.idEx = .live d ∧ d.reg1Value = s.x.read (f.word.extractLsb' 21 5) ∧
      d.reg2Value = s.x.read (f.word.extractLsb' 16 5)

/-- 40 R83: ID sets `fetch_stall` when, and only when, it decodes one of the opcodes 02, 03, 04, 05; Fetch is frozen in the
same tick. -/
def Obligations.StallRequestedByControlOnly : Prop :=
  ∀ (s t : State) (f : IfId), s.run = .running → s.haltSeen = false → s.fetchStall = 0 → s.ifId = .live f →
    f.word ≠ s.haltWord → step s = .next t → t.run = .running →
    ((f.word.opcode ∈ [0x02#6, 0x03#6, 0x04#6, 0x05#6]) → t.fetchStall = 2 ∧ t.ifId = .bubble) ∧
    ((f.word.opcode ∉ [0x02#6, 0x03#6, 0x04#6, 0x05#6]) → t.fetchStall = 0 ∧ t.ifId ≠ .bubble)

/-- 20 R37: memory is written by MEM for `sw` and by nothing else, in every step, one that ends the run included. -/
def Obligations.OnlyStoresWriteMemory : Prop :=
  ∀ s t : State, step s = .next t → t.mem = s.mem ∨
    (t.mem = memAfterMem s ∧ ∃ e rs rt imm16, s.exMem = .live e ∧ e.instr.op = .known (.sw rs rt imm16) ∧
      e.aluOut.toNat ≤ 0x000FFFFC)

/-- 10 R12 (b), (c), (d): registers are written by WB and, for `jal`, by MEM, and by nothing else. That `jal` writes in MEM is
the spec's decision D5 (log 14), that the register is 31 its decision D7 (log 5). -/
def Obligations.OnlyWbAndJalWriteRegisters : Prop :=
  ∀ s t : State, step s = .next t →
    (t.run = .running → t.x = regsAfterMem s) ∧
    (∀ r : RegIdx, t.x.read r ≠ s.x.read r →
      (∃ m, s.memWb = .live m ∧ m.regWrite = true ∧ m.destIndex = r ∧ m.instr.op ≠ .known .halt) ∨
      (r = 31#5 ∧ ∃ e target26, s.exMem = .live e ∧ e.instr.op = .known (.jal target26)))

/-- 70 R170, 90 C1: what WB writes in a tick, ID of that tick does not see, and ID of the next tick does. -/
def Obligations.WriteBackIsReadableFromTheNextTick : Prop :=
  ∀ (s t u : State) (m : MemWb) (f g : IfId), s.run = .running → step s = .next t → t.run = .running →
    step t = .next u → u.run = .running → s.memWb = .live m → m.instr.op ≠ .known .halt → m.regWrite = true →
    m.destIndex ≠ 0#5 → (∀ e target26, s.exMem = .live e → e.instr.op ≠ .known (.jal target26)) →
    s.ifId = .live f → f.word.rs = m.destIndex → t.ifId = .live g → g.word.rs = m.destIndex →
    (∃ d, t.idEx = .live d ∧ d.reg1Value = s.x.read m.destIndex) ∧ (∃ d, u.idEx = .live d ∧ d.reg1Value = m.result)

/-- 20 R43: a store in MEM is seen by the fetch of the same tick. -/
def Obligations.StoreIsFetchedInItsMemTick : Prop :=
  ∀ (s t : State) (e : ExMem) (rs rt : RegIdx) (imm16 : BitVec 16), s.run = .running → s.mem.wf = true →
    s.exMem = .live e → e.instr.op = .known (.sw rs rt imm16) → e.aluOut = s.pc → ¬ fetchFrozen s →
    step s = .next t → t.run = .running → t.ifId = .live { word := e.storeValue, nextPc := s.pc + 4#32 }

/-- 40 R73, 60 R147 row 1: the halt instruction in MEM_WB ends the tick at once; nothing but `run` changes. -/
def Obligations.HaltInWbEndsTheTick : Prop :=
  ∀ (s : State) (m : MemWb), s.run = .running → s.memWb = .live m → m.instr.op = .known .halt →
    step s = .next { s with run := .halted, scratch := Scratch.idle }

/-- 60 R143: an out-of-bounds `lw` or `sw` ends the run in MEM, whatever is younger; WB of the tick has run, the
instruction itself has changed nothing. -/
def Obligations.DataAccessOutOfBoundsEndsTheRun : Prop :=
  ∀ (s : State) (e : ExMem) (rs rt : RegIdx) (imm16 : BitVec 16), s.run = .running → wbGoesOn s → s.exMem = .live e →
    (e.instr.op = .known (.lw rs rt imm16) ∨ e.instr.op = .known (.sw rs rt imm16)) → 0x000FFFFC < e.aluOut.toNat →
    step s = .next { s with x := regsAfterWb s, scratch := Scratch.idle, run := dataFault e }

/-- 60 R141, R142: an unknown word ends the run in EX, whatever is younger; WB and MEM of the tick have run, and the latches
keep their values, so the register result of the instruction in MEM is lost. -/
def Obligations.UnknownWordEndsTheRunInEx : Prop :=
  ∀ (s : State) (d : IdEx), s.run = .running → wbGoesOn s → memGoesOn s → s.idEx = .live d →
    (d.instr.op = .unknownOpcode → step s = .next { s with
      x := regsAfterMem s, mem := memAfterMem s, pc := pcAfterMem s, scratch := Scratch.idle,
      run := wordFault .unknownOpcode d }) ∧
    (d.instr.op = .unknownFunct → step s = .next { s with
      x := regsAfterMem s, mem := memAfterMem s, pc := pcAfterMem s, scratch := Scratch.idle,
      run := wordFault .unknownFunct d })

/-- 60 R143, third row: a fetch above 0x000FFFFC ends the run in IF; the four older stages of the tick have run, `pc` is not
advanced, the latches keep their values. -/
def Obligations.FetchOutOfBoundsEndsTheRun : Prop :=
  ∀ s : State, s.run = .running → wbGoesOn s → memGoesOn s → exGoesOn s → ¬ fetchFrozen s →
    0x000FFFFC < (pcAfterMem s).toNat →
    step s = .next { s with x := regsAfterMem s, mem := memAfterMem s, pc := pcAfterMem s, scratch := Scratch.idle,
                            run := fetchFault (pcAfterMem s) }

/-- The converse of the four statements above: a tick none of whose stages ends the run runs to its end. -/
def Obligations.TickGoesOnUnlessAStageEndsIt : Prop :=
  ∀ s : State, s.run = .running → wbGoesOn s → memGoesOn s → exGoesOn s →
    (fetchFrozen s ∨ (pcAfterMem s).toNat ≤ 0x000FFFFC) → ∃ t, step s = .next t ∧ t.run = .running

/-- 10 R24, 60 R140 (e), 93 U13: a running machine takes a tick, a halted or faulted one never does (the named stops are
the model's, log 2). -/
def Obligations.TicksExactlyWhenRunning : Prop :=
  ∀ s : State,
    (s.run = .running → ∃ t, step s = .next t) ∧
    (s.run = .halted → step s = .fault .tickWhenHalted) ∧
    (∀ kind info, s.run = .faulted kind info → step s = .fault (.tickWhenFaulted kind info))

/-- 60 R140 (c), 40 R73: a step after which the run is over leaves the four latches as they were. -/
def Obligations.EndedTickKeepsTheLatches : Prop :=
  ∀ s t : State, step s = .next t → t.run ≠ .running →
    t.ifId = s.ifId ∧ t.idEx = s.idEx ∧ t.exMem = s.exMem ∧ t.memWb = s.memWb

/-- 10 R13, R29: no step changes `hi`, `lo` or the parameters, and nothing of a tick's scratch outlives it. -/
def Obligations.HiLoAndParametersNeverChange : Prop :=
  ∀ s t : State, step s = .next t →
    t.hi = s.hi ∧ t.lo = s.lo ∧ t.haltWord = s.haltWord ∧ t.mem.seed = s.mem.seed ∧ t.scratch = Scratch.idle

/-! ### Invariants -/

/-- Every step keeps memory in its canonical form (the model's own form of memory, log 4). -/
def Obligations.MemoryStaysCanonical : Prop :=
  ∀ s t : State, s.mem.wf = true → step s = .next t → t.mem.wf = true

/-- Every step keeps the latches coherent: each carries what the decoder reads from its word (10 R19 to R21), and an unknown
word never reaches EX_MEM or MEM_WB (46 R136). -/
def Obligations.LatchesStayCoherent : Prop :=
  ∀ s t : State, s.latchesCoherent → step s = .next t → t.latchesCoherent

/-- Every step keeps the shape of the pipeline: the stall count tells where the one control instruction stands, with only
bubbles behind it (40 R88); `halt_seen` tells that the halt instruction is in the pipeline, with only bubbles behind it
(40 R90). -/
def Obligations.PipelineKeepsItsShape : Prop :=
  ∀ s t : State, s.pipelineShape → step s = .next t → t.pipelineShape

/-- 46 R135, 40 R90: in a run, when the halt instruction ends it, the other three latches are bubbles and no stall is
pending. -/
def Obligations.HaltedPipelineIsEmpty : Prop :=
  ∀ s t : State, s.pipelineShape → step s = .next t → t.run = .halted →
    t.ifId = .bubble ∧ t.idEx = .bubble ∧ t.exMem = .bubble ∧ t.haltSeen = true ∧ t.fetchStall = 0 ∧
      ∃ m, t.memWb = .live m ∧ m.instr.op = .known .halt

/-! ### Runs of several ticks -/

/-- 40 R88: from the tick in which ID decodes a control instruction Fetch is frozen for exactly three ticks; then it fetches
from the `pc` the instruction resolved. What the older instructions are does not matter. -/
def Obligations.ControlFreezesFetchForThreeTicks : Prop :=
  ∀ (s1 s2 s3 s4 s5 : State) (f : IfId), s1.run = .running → s1.pipelineShape → s1.ifId = .live f →
    isControl (decode s1.haltWord f.word) = true →
    step s1 = .next s2 → step s2 = .next s3 → step s3 = .next s4 → step s4 = .next s5 → s5.run = .running →
    (∃ d2, s2.idEx = .live d2 ∧ d2.instr.word = f.word ∧
      s2.ifId = .bubble ∧ s3.ifId = .bubble ∧ s4.ifId = .bubble ∧ s4.fetchStall = 0 ∧
      ∃ e3, s3.exMem = .live e3 ∧ e3.instr = d2.instr ∧ s4.pc = pcAfterMem s3 ∧
        ∃ w, s4.mem.readWord s4.pc = some w ∧ s5.ifId = .live { word := w, nextPc := s4.pc + 4#32 })

/-- 45 R129, 70 R173: `jr` does not stall; the two words after it in memory are fetched and then, in its MEM tick, the word at
the register value read in ID. -/
def Obligations.JumpRegisterHasAShadowOfTwo : Prop :=
  ∀ (s1 s2 s3 s4 : State) (f : IfId) (rs rt rd shamt : RegIdx) (w1 w2 w3 : Word), s1.run = .running →
    s1.pc = f.nextPc → s1.ifId = .live f → decode s1.haltWord f.word = .known (.jr rs rt rd shamt) →
    ¬ fetchFrozen s1 → ¬ fetchFrozen s2 → ¬ fetchFrozen s3 →
    pcAfterMem s1 = s1.pc → pcAfterMem s2 = s2.pc →
    step s1 = .next s2 → step s2 = .next s3 → step s3 = .next s4 → s4.run = .running →
    (memAfterMem s1).readWord f.nextPc = some w1 → (memAfterMem s2).readWord (f.nextPc + 4#32) = some w2 →
    (memAfterMem s3).readWord (s1.x.read rs) = some w3 →
    s2.ifId = .live { word := w1, nextPc := f.nextPc + 4#32 } ∧
    s3.ifId = .live { word := w2, nextPc := f.nextPc + 8#32 } ∧
    s4.ifId = .live { word := w3, nextPc := s1.x.read rs + 4#32 } ∧ s4.pc = s1.x.read rs + 4#32

/-- 40 R90: the halt instruction in IF_ID ends the run in the fourth tick, if no older instruction ends it before; in
between nothing is fetched. -/
def Obligations.HaltDrainsThePipeline : Prop :=
  ∀ (s1 s2 s3 s4 : State) (f : IfId), s1.run = .running → s1.pipelineShape → s1.ifId = .live f → f.word = s1.haltWord →
    step s1 = .next s2 → step s2 = .next s3 → step s3 = .next s4 → s4.run = .running →
    s2.ifId = .bubble ∧ s3.ifId = .bubble ∧ s4.ifId = .bubble ∧
      step s4 = .next { s4 with run := .halted, scratch := Scratch.idle }

/-- 41, 42, 43 "Architectural effect" (D14, D6: log 13; field positions D7, log 5), with 40 R90 (D2, log 20) and 70 R180: with
an ALU instruction and the halt instruction at `pc`, an empty pipeline halts in six ticks, and the only register that has
changed is the destination. -/
def Obligations.AluInstructionRun : Prop :=
  ∀ (s : State) (i : Instr) (dest : RegIdx) (v : Word), s.ready → aluEffect s.x i = some (dest, v) →
    i.wellFormed s.haltWord = true → s.mem.holdsWords s.pc [encode s.haltWord i, s.haltWord] →
    runTicks 6 s = .next ({ s with x := s.x.write dest v }.haltedAt (s.pc + 4#32))

/-- 44 R120 "Architectural effect" (D14, log 13; field positions D7, log 5): `lw` and the halt instruction, which ends the run
in the sixth tick (40 R90: D2, log 20). -/
def Obligations.LoadInstructionRun : Prop :=
  ∀ (s : State) (rs rt : RegIdx) (imm16 : BitVec 16) (v : Word), s.ready →
    (Instr.lw rs rt imm16).wellFormed s.haltWord = true →
    s.mem.holdsWords s.pc [encode s.haltWord (.lw rs rt imm16), s.haltWord] →
    s.mem.readWord (s.x.read rs + imm16.signExtend 32) = some v →
    runTicks 6 s = .next ({ s with x := s.x.write rt v }.haltedAt (s.pc + 4#32))

/-- 44 R121 "Architectural effect" (D14, log 13; field positions D7, log 5): `sw` and the halt instruction, which ends the run
in the sixth tick (40 R90: D2, log 20). -/
def Obligations.StoreInstructionRun : Prop :=
  ∀ (s : State) (rs rt : RegIdx) (imm16 : BitVec 16) (m : Memory), s.ready →
    (Instr.sw rs rt imm16).wellFormed s.haltWord = true →
    s.mem.holdsWords s.pc [encode s.haltWord (.sw rs rt imm16), s.haltWord] →
    s.mem.writeWord (s.x.read rs + imm16.signExtend 32) (s.x.read rt) = some m →
    runTicks 6 s = .next ({ s with mem := m }.haltedAt (s.pc + 4#32))

/-- 45 R127, R128 "Architectural effect" (D5, D7: logs 14 and 5): a jump to the halt instruction halts in nine ticks; `jal`
links the address after itself. The nine ticks rest on the three of the stall (40 R88: D3, log 19) and on the halt drain
(40 R90: D2, log 20). -/
def Obligations.JumpInstructionRun : Prop :=
  ∀ (s : State) (target26 : BitVec 26), s.ready →
    let target := ((s.pc + 4#32) &&& 0xF0000000#32) ||| (target26.setWidth 32 <<< 2)
    s.mem.readWord target = some s.haltWord →
    ((Instr.j target26).wellFormed s.haltWord = true → s.mem.readWord s.pc = some (encode s.haltWord (.j target26)) →
      runTicks 9 s = .next (s.haltedAt target)) ∧
    ((Instr.jal target26).wellFormed s.haltWord = true → s.mem.readWord s.pc = some (encode s.haltWord (.jal target26)) →
      runTicks 9 s = .next ({ s with x := s.x.write 31#5 (s.pc + 4#32) }.haltedAt target))

/-- 45 R125, R126 "Architectural effect" (field positions D7, log 5): a branch to the halt instruction, taken or not, halts in
nine ticks at the branch target if taken, at the next instruction if not. The nine ticks rest on the three of the stall (40
R88: D3, log 19) and on the halt drain (40 R90: D2, log 20). -/
def Obligations.BranchInstructionRun : Prop :=
  ∀ (s : State) (rs rt : RegIdx) (imm16 : BitVec 16), s.ready →
    let taken := s.pc + 4#32 + (imm16.signExtend 32 <<< 2)
    let dest (b : Bool) := if b then taken else s.pc + 4#32
    ((Instr.beq rs rt imm16).wellFormed s.haltWord = true →
      s.mem.readWord s.pc = some (encode s.haltWord (.beq rs rt imm16)) →
      s.mem.readWord (dest (decide (s.x.read rs = s.x.read rt))) = some s.haltWord →
      runTicks 9 s = .next (s.haltedAt (dest (decide (s.x.read rs = s.x.read rt))))) ∧
    ((Instr.bne rs rt imm16).wellFormed s.haltWord = true →
      s.mem.readWord s.pc = some (encode s.haltWord (.bne rs rt imm16)) →
      s.mem.readWord (dest (decide (s.x.read rs ≠ s.x.read rt))) = some s.haltWord →
      runTicks 9 s = .next (s.haltedAt (dest (decide (s.x.read rs ≠ s.x.read rt)))))

/-- 45 R129 "Architectural effect" (D4, log 14; field positions D7, log 5): `jr`, the two no-ops of its shadow, and the halt
instruction at the address the register holds: halts in eight ticks, no register changed. The eight ticks rest on the halt
drain too (40 R90: D2, log 20). -/
def Obligations.JumpRegisterInstructionRun : Prop :=
  ∀ (s : State) (rs rt rd shamt : RegIdx), s.ready → s.haltWord ≠ 0#32 →
    (Instr.jr rs rt rd shamt).wellFormed s.haltWord = true →
    s.mem.holdsWords s.pc [encode s.haltWord (.jr rs rt rd shamt), 0#32, 0#32] →
    s.mem.readWord (s.x.read rs) = some s.haltWord →
    runTicks 8 s = .next (s.haltedAt (s.x.read rs))

/-- 70 R170 as runs (95 P5; D15, log 15; D2, log 20): two ALU instructions with `k` no-ops between them, for every `k` that
memory has room for. With `k` at most 2 the second computes from the registers as they were before the first; with `k` 3 or
more it sees the first's result. -/
def Obligations.ReadAfterWriteDistance : Prop :=
  ∀ (s : State) (p c : Instr) (k : Nat) (rp rc : RegIdx) (vp vc : Word), s.ready → s.haltWord ≠ 0#32 →
    p.wellFormed s.haltWord = true → c.wellFormed s.haltWord = true →
    s.mem.holdsWords s.pc (encode s.haltWord p :: List.replicate k 0#32 ++ [encode s.haltWord c, s.haltWord]) →
    aluEffect s.x p = some (rp, vp) → aluEffect (if k ≤ 2 then s.x else s.x.write rp vp) c = some (rc, vc) →
    runTicks (7 + k) s =
      .next ({ s with x := (s.x.write rp vp).write rc vc }.haltedAt (s.pc + BitVec.ofNat 32 (8 + 4 * k)))

/-- 70 R163: with no program, zero memory is a run of no-ops from the entry to the end of memory, and then the fetch at
0x00100000 ends the run, in tick 261121; no register and no byte has changed. -/
def Obligations.RunOverZeroMemoryEndsAtTheTop : Prop :=
  ∀ (haltWord : Word) (seed : List Byte), haltWord ≠ 0#32 → seed.length ≤ 0x1000 →
    (∃ t, runTicks 261120 (State.resetWith haltWord seed) = .next t ∧ t.run = .running) ∧
    ∃ t, runTicks 261121 (State.resetWith haltWord seed) = .next t ∧
      t.run = fetchFault 0x00100000#32 ∧
      t.x = (State.resetWith haltWord seed).x ∧ t.mem = (State.resetWith haltWord seed).mem

/-! ### The host's calls (70) -/

/-- 70 R166, R169, 60 R144, 30 R66: a load of words `ws`, with or without a malformed line after them, that fits stores word
`k` at `address + 4k`, the most significant byte first, changes no other byte and nothing but memory, and returns the number
of words stored; whatever stands behind the malformed line stays unread. `dump` then shows the bytes. That a load or a dump
that does not fit is refused whole is the spec's decision D18 (log 18).
THE MODEL'S OWN CHOICES (DESIGN CHOICE, log 18), which no rule of the spec states: that `load` also returns the mark
`malformed` saying that a malformed line ended it; that whether a load fits is decided on the words before that line; and
that a load of no words (`ws = []`) and a dump of no bytes (`length = 0`) at an address above 0x100000 are refused. -/
def Obligations.LoadStoresTheProgram : Prop :=
  ∀ (s : State) (address : Nat) (ws : List Word) (tail : List ProgramLine), s.betweenRuns = true → s.mem.wf = true →
    (tail = [] ∨ ∃ rest, tail = .malformed :: rest) →
    (address + 4 * ws.length ≤ 0x100000 →
      ∃ m, hostLoad address (ws.map .word ++ tail) s =
          .next ({ count := ws.length, malformed := decide (tail ≠ []) }, { s with mem := m }) ∧
        (∀ k w, ws[k]? = some w → hostDump (address + 4 * k) 4 { s with mem := m } =
          .next ([w.extractLsb' 24 8, w.extractLsb' 16 8, w.extractLsb' 8 8, w.extractLsb' 0 8], { s with mem := m })) ∧
        (∀ b, b < address ∨ address + 4 * ws.length ≤ b → m.readByte b = s.mem.readByte b)) ∧
    (0x100000 < address + 4 * ws.length → hostLoad address (ws.map .word ++ tail) s = .refused .loadDoesNotFit) ∧
    (∀ a length, 0x100000 < a + length → hostDump a length s = .refused .dumpDoesNotFit)

/-- 70 R165, R167: `run()`, which takes no argument, answers exactly the state after the tick that ends the run, with how it
ended, and nothing where no tick ends it; on a machine that has stopped it is refused (93 U14). No call acts in the middle of
a run (D18, log 18): after a tick that the run survives, every call is refused. -/
def Obligations.HostRunTicksUntilStopped : Prop :=
  ∀ (s : State) (answer : HostAnswer RunStatus),
    (s.betweenRuns = true → s.run = .running → (hostRun s answer ↔ ∃ n t u, runTicks n s = .next t ∧ t.run = .running ∧
      step t = .next u ∧ u.run ≠ .running ∧ answer = .next (u.run, u))) ∧
    (s.run ≠ .running → (hostRun s answer ↔ answer = .refused .runWhenStopped)) ∧
    (∀ t, s.pipelineShape → step s = .next t → t.run = .running →
      (hostRun t answer ↔ answer = .refused .hostDuringRun) ∧
      (∀ address lines, hostLoad address lines t = .refused .hostDuringRun) ∧
      (∀ what, hostShow what t = .refused .hostDuringRun) ∧
      (∀ address length, hostDump address length t = .refused .hostDuringRun))
end

