-- ==== Sys2Proof/Laws/Decode.lean ====
section
/-! SUPPORT. The fields of an encoded word are the operands it was built from, and a word is the encoding of its fields
(spec 30 R51). -/

namespace Sys2Proof

/-- A field is known by its bits. -/
theorem field_of_bits {k : Nat} (w : Word) (start : Nat) (v : BitVec k)
    (h : ∀ i, i < k → w.getLsbD (start + i) = v.getLsbD i) : w.extractLsb' start k = v := by
  apply BitVec.eq_of_getLsbD_eq
  intro i hi
  rw [BitVec.getLsbD_extractLsb', h i hi, decide_eq_true hi, Bool.true_and]

section RFormat
variable (rs rt rd shamt : RegIdx) (funct : BitVec 6)

/-- Every bit of an R-format word. -/
theorem encodeR_bit (i : Nat) : (encodeR rs rt rd shamt funct).getLsbD i =
    if i < 6 then funct.getLsbD i else if i < 11 then shamt.getLsbD (i - 6) else if i < 16 then rd.getLsbD (i - 11)
    else if i < 21 then rt.getLsbD (i - 16) else if i < 26 then rs.getLsbD (i - 21) else false := by
  simp only [encodeR, BitVec.getLsbD_append]
  repeat' split
  all_goals first | rfl | omega | simp

@[simp] theorem encodeR_opcode : (encodeR rs rt rd shamt funct).opcode = 0x00#6 :=
  field_of_bits _ 26 _ fun i hi => by simp (disch := omega) only [encodeR_bit, if_neg, BitVec.getLsbD_zero]
@[simp] theorem encodeR_rs : (encodeR rs rt rd shamt funct).rs = rs :=
  field_of_bits _ 21 _ fun i hi => by simp (disch := omega) only [encodeR_bit, if_neg, if_pos, Nat.add_sub_cancel_left]
@[simp] theorem encodeR_rt : (encodeR rs rt rd shamt funct).rt = rt :=
  field_of_bits _ 16 _ fun i hi => by simp (disch := omega) only [encodeR_bit, if_neg, if_pos, Nat.add_sub_cancel_left]
@[simp] theorem encodeR_rd : (encodeR rs rt rd shamt funct).rd = rd :=
  field_of_bits _ 11 _ fun i hi => by simp (disch := omega) only [encodeR_bit, if_neg, if_pos, Nat.add_sub_cancel_left]
@[simp] theorem encodeR_shamt : (encodeR rs rt rd shamt funct).shamt = shamt :=
  field_of_bits _ 6 _ fun i hi => by simp (disch := omega) only [encodeR_bit, if_neg, if_pos, Nat.add_sub_cancel_left]
@[simp] theorem encodeR_funct : (encodeR rs rt rd shamt funct).funct = funct :=
  field_of_bits _ 0 _ fun i hi => by simp (disch := omega) only [encodeR_bit, if_neg, if_pos, Nat.zero_add]
@[simp] theorem encodeR_imm16 : (encodeR rs rt rd shamt funct).imm16 = rd ++ shamt ++ funct :=
  field_of_bits _ 0 _ fun i hi => by
    simp only [encodeR_bit, BitVec.getLsbD_append]
    repeat' split
    all_goals first | omega | (congr 1; omega)
end RFormat

section IFormat
variable (opcode : BitVec 6) (rs rt : RegIdx) (imm16 : BitVec 16)

/-- Every bit of an I-format word. -/
theorem encodeI_bit (i : Nat) : (encodeI opcode rs rt imm16).getLsbD i =
    if i < 16 then imm16.getLsbD i else if i < 21 then rt.getLsbD (i - 16) else if i < 26 then rs.getLsbD (i - 21)
    else opcode.getLsbD (i - 26) := by
  simp only [encodeI, BitVec.getLsbD_append]
  repeat' split
  all_goals first | rfl | omega

@[simp] theorem encodeI_opcode : (encodeI opcode rs rt imm16).opcode = opcode :=
  field_of_bits _ 26 _ fun i hi => by simp (disch := omega) only [encodeI_bit, if_neg, Nat.add_sub_cancel_left]
@[simp] theorem encodeI_rs : (encodeI opcode rs rt imm16).rs = rs :=
  field_of_bits _ 21 _ fun i hi => by simp (disch := omega) only [encodeI_bit, if_neg, if_pos, Nat.add_sub_cancel_left]
@[simp] theorem encodeI_rt : (encodeI opcode rs rt imm16).rt = rt :=
  field_of_bits _ 16 _ fun i hi => by simp (disch := omega) only [encodeI_bit, if_neg, if_pos, Nat.add_sub_cancel_left]
@[simp] theorem encodeI_rd : (encodeI opcode rs rt imm16).rd = imm16.extractLsb' 11 5 :=
  field_of_bits _ 11 _ fun i hi => by simp (disch := omega) only [encodeI_bit, if_neg, if_pos, BitVec.getLsbD_extractLsb', decide_eq_true hi, Bool.true_and]
@[simp] theorem encodeI_imm16 : (encodeI opcode rs rt imm16).imm16 = imm16 :=
  field_of_bits _ 0 _ fun i hi => by simp (disch := omega) only [encodeI_bit, if_neg, if_pos, Nat.zero_add]
end IFormat

section JFormat
variable (opcode : BitVec 6) (target26 : BitVec 26)

/-- Every bit of a J-format word. -/
theorem encodeJ_bit (i : Nat) : (encodeJ opcode target26).getLsbD i =
    if i < 26 then target26.getLsbD i else opcode.getLsbD (i - 26) := by
  simp only [encodeJ, BitVec.getLsbD_append]

@[simp] theorem encodeJ_opcode : (encodeJ opcode target26).opcode = opcode :=
  field_of_bits _ 26 _ fun i hi => by simp (disch := omega) only [encodeJ_bit, if_neg, Nat.add_sub_cancel_left]
@[simp] theorem encodeJ_target26 : (encodeJ opcode target26).target26 = target26 :=
  field_of_bits _ 0 _ fun i hi => by simp (disch := omega) only [encodeJ_bit, if_pos, Nat.zero_add]
@[simp] theorem encodeJ_rs : (encodeJ opcode target26).rs = target26.extractLsb' 21 5 :=
  field_of_bits _ 21 _ fun i hi => by simp (disch := omega) only [encodeJ_bit, if_pos, BitVec.getLsbD_extractLsb', decide_eq_true hi, Bool.true_and]
@[simp] theorem encodeJ_rt : (encodeJ opcode target26).rt = target26.extractLsb' 16 5 :=
  field_of_bits _ 16 _ fun i hi => by simp (disch := omega) only [encodeJ_bit, if_pos, BitVec.getLsbD_extractLsb', decide_eq_true hi, Bool.true_and]
@[simp] theorem encodeJ_rd : (encodeJ opcode target26).rd = target26.extractLsb' 11 5 :=
  field_of_bits _ 11 _ fun i hi => by simp (disch := omega) only [encodeJ_bit, if_pos, BitVec.getLsbD_extractLsb', decide_eq_true hi, Bool.true_and]
end JFormat

/-- A bit of a field is a bit of the word. -/
theorem bit_of_field {k : Nat} (w : Word) (start i : Nat) (hi : start ≤ i) (hk : i < start + k) :
    (w.extractLsb' start k).getLsbD (i - start) = w.getLsbD i := by
  rw [BitVec.getLsbD_extractLsb', decide_eq_true (by omega), Bool.true_and, Nat.add_sub_cancel' hi]

/-- A word of opcode 0 is the R-format word of its fields. -/
theorem encodeR_fields (w : Word) (h : w.opcode = 0x00#6) : encodeR w.rs w.rt w.rd w.shamt w.funct = w := by
  apply BitVec.eq_of_getLsbD_eq
  intro i hi
  have ho := bit_of_field (k := 6) w 26 i
  rw [show w.extractLsb' 26 6 = 0x00#6 from h] at ho
  simp only [encodeR_bit, Word.rs, Word.rt, Word.rd, Word.shamt, Word.funct]
  repeat' split
  · simpa using bit_of_field (k := 6) w 0 i (by omega) (by omega)
  · exact bit_of_field w 6 i (by omega) (by omega)
  · exact bit_of_field w 11 i (by omega) (by omega)
  · exact bit_of_field w 16 i (by omega) (by omega)
  · exact bit_of_field w 21 i (by omega) (by omega)
  · simpa using ho (by omega) (by omega)

/-- Every word is the I-format word of its fields. -/
theorem encodeI_fields (w : Word) : encodeI w.opcode w.rs w.rt w.imm16 = w := by
  apply BitVec.eq_of_getLsbD_eq
  intro i hi
  simp only [encodeI_bit, Word.opcode, Word.rs, Word.rt, Word.imm16]
  repeat' split
  · simpa using bit_of_field (k := 16) w 0 i (by omega) (by omega)
  · exact bit_of_field w 16 i (by omega) (by omega)
  · exact bit_of_field w 21 i (by omega) (by omega)
  · exact bit_of_field w 26 i (by omega) (by omega)

/-- Every word is the J-format word of its fields. -/
theorem encodeJ_fields (w : Word) : encodeJ w.opcode w.target26 = w := by
  apply BitVec.eq_of_getLsbD_eq
  intro i hi
  simp only [encodeJ_bit, Word.opcode, Word.target26]
  split
  · simpa using bit_of_field (k := 26) w 0 i (by omega) (by omega)
  · exact bit_of_field w 26 i (by omega) (by omega)

/-- The decoder compares with `HALT_WORD` first. -/
theorem decode_haltWord (haltWord : Word) : decode haltWord haltWord = .known .halt := if_pos rfl

theorem decode_of_ne (haltWord w : Word) (h : w ≠ haltWord) :
    decode haltWord w = if w.opcode = 0x00#6 then decodeR w else decodeIJ w := if_neg h

/-- A word the decoder reads as an instruction is that instruction's word. -/
theorem encode_of_decode_known (haltWord w : Word) (i : Instr) (h : decode haltWord w = .known i) :
    w = encode haltWord i := by
  unfold decode at h
  split at h
  · obtain rfl := Decoded.known.inj h; assumption
  split at h
  · rename_i _ ho
    have e := encodeR_fields w ho
    unfold decodeR at h
    repeat' split at h
    all_goals first
      | (obtain rfl := Decoded.known.inj h; rename_i hf; rw [hf] at e; rw [encode, e])
      | cases h
  · have eI := encodeI_fields w
    have eJ := encodeJ_fields w
    unfold decodeIJ at h
    repeat' split at h
    all_goals first
      | (obtain rfl := Decoded.known.inj h; rename_i hf; rw [hf] at eI eJ; rw [encode]; first | rw [eI] | rw [eJ])
      | cases h

end Sys2Proof
end

