-- ==== Sys2Proof/Laws/Memory.lean ====
section
/-! SUPPORT. The laws of memory: a read after a write, the bytes a write leaves alone, and that every memory operation
keeps the canonical form. -/

namespace Sys2Proof.Machine

/-! ### Cells -/

theorem lookupCell_of_lt (low : Nat) (l : List Host.Cell) (h : cellsRiseFrom low l = true) (a : Nat) (ha : a < low) :
    lookupCell a l = none := by
  induction l generalizing low with
  | nil => rfl
  | cons c rest ih =>
    obtain ⟨k, b⟩ := c
    simp only [cellsRiseFrom, Bool.and_eq_true, decide_eq_true_eq] at h
    rw [lookupCell, if_neg (by omega), ih (k + 1) h.2 (by omega)]

theorem lookupCell_insertCell (a a' : Nat) (b : Byte) (l : List Host.Cell) :
    lookupCell a' (insertCell a b l) = if a' = a then some b else lookupCell a' l := by
  induction l with
  | nil => simp [insertCell, lookupCell]
  | cons c rest ih =>
    obtain ⟨k, v⟩ := c
    unfold insertCell
    split
    · simp [lookupCell]
    · split
      · subst a; by_cases h : a' = k <;> simp [lookupCell, h]
      · by_cases h : a' = k
        · subst h; rw [lookupCell, lookupCell, if_pos rfl, if_pos rfl, if_neg (by omega)]
        · simp [lookupCell, h, ih]

theorem lookupCell_eraseCell (low a a' : Nat) (l : List Host.Cell) (h : cellsRiseFrom low l = true) :
    lookupCell a' (eraseCell a l) = if a' = a then none else lookupCell a' l := by
  induction l generalizing low with
  | nil => simp [eraseCell, lookupCell]
  | cons c rest ih =>
    obtain ⟨k, v⟩ := c
    simp only [cellsRiseFrom, Bool.and_eq_true, decide_eq_true_eq] at h
    unfold eraseCell
    split
    · subst a
      by_cases hk : a' = k
      · subst hk; simp [lookupCell_of_lt _ _ h.2]
      · simp [lookupCell, hk]
    · by_cases hk : a' = k
      · subst hk; rw [lookupCell, lookupCell, if_pos rfl, if_pos rfl, if_neg (by omega)]
      · simp [lookupCell, hk, ih _ h.2]

theorem cellsRiseFrom_mono (low low' : Nat) (l : List Host.Cell) (hl : low' ≤ low) (h : cellsRiseFrom low l = true) :
    cellsRiseFrom low' l = true := by
  cases l with
  | nil => rfl
  | cons c rest => simp only [cellsRiseFrom, Bool.and_eq_true, decide_eq_true_eq] at h ⊢; exact ⟨by omega, h.2⟩

theorem cellsRiseFrom_insertCell (low a : Nat) (b : Byte) (l : List Host.Cell) (ha : low ≤ a)
    (h : cellsRiseFrom low l = true) : cellsRiseFrom low (insertCell a b l) = true := by
  induction l generalizing low with
  | nil => simp [insertCell, cellsRiseFrom, ha]
  | cons c rest ih =>
    obtain ⟨k, v⟩ := c
    simp only [cellsRiseFrom, Bool.and_eq_true, decide_eq_true_eq] at h
    unfold insertCell
    split
    · simp only [cellsRiseFrom, Bool.and_eq_true, decide_eq_true_eq]; exact ⟨ha, by omega, h.2⟩
    · split
      · subst a; simp only [cellsRiseFrom, Bool.and_eq_true, decide_eq_true_eq]; exact h
      · simp only [cellsRiseFrom, Bool.and_eq_true, decide_eq_true_eq]; exact ⟨h.1, ih _ (by omega) h.2⟩

theorem cellsRiseFrom_eraseCell (low a : Nat) (l : List Host.Cell) (h : cellsRiseFrom low l = true) :
    cellsRiseFrom low (eraseCell a l) = true := by
  induction l generalizing low with
  | nil => rfl
  | cons c rest ih =>
    obtain ⟨k, v⟩ := c
    simp only [cellsRiseFrom, Bool.and_eq_true, decide_eq_true_eq] at h
    unfold eraseCell
    split
    · exact cellsRiseFrom_mono _ _ _ (by omega) h.2
    · simp only [cellsRiseFrom, Bool.and_eq_true, decide_eq_true_eq]; exact ⟨h.1, ih _ h.2⟩

theorem mem_insertCell (a : Nat) (b : Byte) (l : List Host.Cell) (c : Host.Cell) (h : c ∈ insertCell a b l) :
    c = (a, b) ∨ c ∈ l := by
  induction l with
  | nil => simp_all [insertCell]
  | cons d rest ih =>
    obtain ⟨k, v⟩ := d
    unfold insertCell at h
    split at h
    · simpa using h
    · split at h
      · simp only [List.mem_cons] at h ⊢; tauto
      · simp only [List.mem_cons] at h ⊢
        rcases h with h | h
        · exact .inr (.inl h)
        · exact (ih h).imp_right .inr

theorem mem_eraseCell (a : Nat) (l : List Host.Cell) (c : Host.Cell) (h : c ∈ eraseCell a l) : c ∈ l := by
  induction l with
  | nil => exact h
  | cons d rest ih =>
    obtain ⟨k, v⟩ := d
    unfold eraseCell at h
    split at h
    · exact List.mem_cons_of_mem _ h
    · rcases List.mem_cons.mp h with h | h
      · exact h ▸ List.mem_cons_self
      · exact List.mem_cons_of_mem _ (ih h)

/-! ### The canonical form -/

theorem Memory.wf_iff (m : Memory) : m.wf = true ↔
    cellsRiseFrom 0 m.cells = true ∧ (∀ c ∈ m.cells, c.1 < Config.memSize ∧ c.2 ≠ m.unlisted c.1)
      ∧ m.seed.length ≤ Config.maxSeedLen := by
  simp only [Memory.wf, Bool.and_eq_true, List.all_eq_true, decide_eq_true_eq, bne_iff_ne, and_assoc]

theorem Memory.wf_empty (seed : List Byte) (h : seed.length ≤ Config.maxSeedLen) :
    ({ seed := seed, cells := [] } : Memory).wf = true :=
  (Memory.wf_iff _).mpr ⟨rfl, by simp, h⟩

@[simp] theorem Memory.writeByte_seed (m : Memory) (a : Nat) (b : Byte) : (m.writeByte a b).seed = m.seed := by
  unfold Memory.writeByte; split <;> rfl

@[simp] theorem Memory.writeByte_unlisted (m : Memory) (a a' : Nat) (b : Byte) :
    (m.writeByte a b).unlisted a' = m.unlisted a' := by simp [Memory.unlisted]

theorem Memory.writeByte_wf (m : Memory) (a : Nat) (b : Byte) (h : m.wf = true) (ha : a < Config.memSize) :
    (m.writeByte a b).wf = true := by
  obtain ⟨rise, all, len⟩ := (Memory.wf_iff m).mp h
  refine (Memory.wf_iff _).mpr ⟨?_, fun c hc => ?_, by simpa using len⟩
  · unfold Memory.writeByte; split
    · exact cellsRiseFrom_eraseCell _ _ _ rise
    · exact cellsRiseFrom_insertCell _ _ _ _ (Nat.zero_le a) rise
  · rw [Memory.writeByte_unlisted]
    unfold Memory.writeByte at hc; split at hc
    · exact all c (mem_eraseCell _ _ _ hc)
    · rcases mem_insertCell _ _ _ _ hc with rfl | hc
      · exact ⟨ha, by assumption⟩
      · exact all c hc

/-! ### Bytes -/

theorem Memory.readByte_writeByte (m : Memory) (a a' : Nat) (b : Byte) (h : m.wf = true) :
    (m.writeByte a b).readByte a' = if a' = a then b else m.readByte a' := by
  have rise := ((Memory.wf_iff m).mp h).1
  unfold Memory.readByte
  rw [Memory.writeByte_unlisted]
  unfold Memory.writeByte; split
  · rw [lookupCell_eraseCell 0 _ _ _ rise]; split <;> simp_all
  · rw [lookupCell_insertCell]; split <;> simp_all

/-! ### Words -/

theorem inBounds_iff (a : Word) : inBounds a = true ↔ a.toNat + 4 ≤ Config.memSize := by
  unfold inBounds Config.memSize; rw [decide_eq_true_eq]; omega

@[simp] theorem Memory.setWordAt_seed (m : Memory) (a : Nat) (v : Word) : (m.setWordAt a v).seed = m.seed := by
  simp [Memory.setWordAt]

theorem Memory.setWordAt_wf (m : Memory) (a : Nat) (v : Word) (h : m.wf = true) (ha : a + 4 ≤ Config.memSize) :
    (m.setWordAt a v).wf = true := by
  unfold Memory.setWordAt
  exact Memory.writeByte_wf _ _ _ (Memory.writeByte_wf _ _ _ (Memory.writeByte_wf _ _ _ (Memory.writeByte_wf _ _ _ h
    (by omega)) (by omega)) (by omega)) (by omega)

/-- What every byte reads as after a word is written. -/
theorem Memory.readByte_setWordAt (m : Memory) (a a' : Nat) (v : Word) (h : m.wf = true) (ha : a + 4 ≤ Config.memSize) :
    (m.setWordAt a v).readByte a' =
      if a ≤ a' ∧ a' < a + 4 then byteOfWord v (a' - a) else m.readByte a' := by
  have h1 := Memory.writeByte_wf m a (byteOfWord v 0) h (by omega)
  have h2 := Memory.writeByte_wf _ (a + 1) (byteOfWord v 1) h1 (by omega)
  have h3 := Memory.writeByte_wf _ (a + 2) (byteOfWord v 2) h2 (by omega)
  unfold Memory.setWordAt
  rw [Memory.readByte_writeByte _ _ _ _ h3, Memory.readByte_writeByte _ _ _ _ h2, Memory.readByte_writeByte _ _ _ _ h1,
    Memory.readByte_writeByte _ _ _ _ h]
  by_cases c0 : a' = a
  · subst c0; rw [if_neg (by omega), if_neg (by omega), if_neg (by omega), if_pos rfl, if_pos (by omega), Nat.sub_self]
  by_cases c1 : a' = a + 1
  · subst c1; rw [if_neg (by omega), if_neg (by omega), if_pos rfl, if_pos (by omega), Nat.add_sub_cancel_left]
  by_cases c2 : a' = a + 2
  · subst c2; rw [if_neg (by omega), if_pos rfl, if_pos (by omega), Nat.add_sub_cancel_left]
  by_cases c3 : a' = a + 3
  · subst c3; rw [if_pos rfl, if_pos (by omega), Nat.add_sub_cancel_left]
  · rw [if_neg c3, if_neg c2, if_neg c1, if_neg c0, if_neg (by omega)]

theorem wordOfBytes_byteOfWord (v : Word) :
    wordOfBytes (byteOfWord v 0) (byteOfWord v 1) (byteOfWord v 2) (byteOfWord v 3) = v := by
  apply BitVec.eq_of_getLsbD_eq
  intro i hi
  simp only [wordOfBytes, byteOfWord, BitVec.getLsbD_append, BitVec.getLsbD_extractLsb']
  repeat' split
  all_goals (rw [decide_eq_true (by omega), Bool.true_and]; congr 1; omega)

/-- A word read where a word was written. -/
theorem Memory.wordAt_setWordAt (m : Memory) (a : Nat) (v : Word) (h : m.wf = true) (ha : a + 4 ≤ Config.memSize) :
    (m.setWordAt a v).wordAt a = v := by
  unfold Memory.wordAt
  rw [Memory.readByte_setWordAt _ _ _ _ h ha, Memory.readByte_setWordAt _ _ _ _ h ha,
    Memory.readByte_setWordAt _ _ _ _ h ha, Memory.readByte_setWordAt _ _ _ _ h ha]
  rw [if_pos (by omega), if_pos (by omega), if_pos (by omega), if_pos (by omega)]
  simp only [Nat.sub_self, Nat.add_sub_cancel_left]
  exact wordOfBytes_byteOfWord v

/-- A word read beside the bytes that were written. -/
theorem Memory.wordAt_setWordAt_of_disjoint (m : Memory) (a a' : Nat) (v : Word) (h : m.wf = true)
    (ha : a + 4 ≤ Config.memSize) (hd : a' + 4 ≤ a ∨ a + 4 ≤ a') : (m.setWordAt a v).wordAt a' = m.wordAt a' := by
  unfold Memory.wordAt
  rw [Memory.readByte_setWordAt _ _ _ _ h ha, Memory.readByte_setWordAt _ _ _ _ h ha,
    Memory.readByte_setWordAt _ _ _ _ h ha, Memory.readByte_setWordAt _ _ _ _ h ha]
  rw [if_neg (by omega), if_neg (by omega), if_neg (by omega), if_neg (by omega)]

/-! ### The two primitives -/

theorem Memory.readWord_eq (m : Memory) (a : Word) (h : inBounds a = true) : m.readWord a = some (m.wordAt a.toNat) :=
  if_pos h

theorem Memory.readWord_out (m : Memory) (a : Word) (h : inBounds a = false) : m.readWord a = none := by
  simp [Memory.readWord, h]

theorem Memory.writeWord_out (m : Memory) (a v : Word) (h : inBounds a = false) : m.writeWord a v = none := by
  simp [Memory.writeWord, h]

/-- Everything a write that succeeds says. -/
theorem Memory.writeWord_some (m m' : Memory) (a v : Word) (h : m.writeWord a v = some m') :
    inBounds a = true ∧ m' = m.setWordAt a.toNat v := by
  unfold Memory.writeWord at h
  split at h
  · exact ⟨by assumption, (Option.some.inj h).symm⟩
  · cases h

theorem Memory.writeWord_wf (m m' : Memory) (a v : Word) (h : m.writeWord a v = some m') (hm : m.wf = true) :
    m'.wf = true := by
  obtain ⟨hb, rfl⟩ := Memory.writeWord_some m m' a v h
  exact Memory.setWordAt_wf _ _ _ hm ((inBounds_iff a).mp hb)

theorem Memory.writeWord_seed (m m' : Memory) (a v : Word) (h : m.writeWord a v = some m') : m'.seed = m.seed := by
  obtain ⟨-, rfl⟩ := Memory.writeWord_some m m' a v h
  simp

end Sys2Proof.Machine
end

