-- ==== Sys2Proof/Laws/Registers.lean ====
section
/-! SUPPORT. The laws of the register file: the guarded write (spec 10 R11). -/

namespace Sys2Proof.Machine

theorem Regs.write_zero (r : Regs) (v : Word) : r.write 0#5 v = r := if_pos rfl

/-- Everything a write does to every register. -/
theorem Regs.read_write (r : Regs) (i j : RegIdx) (v : Word) :
    (r.write i v).read j = if j = i ∧ i ≠ 0#5 then v else r.read j := by
  unfold Regs.write
  by_cases h0 : i = 0#5
  · simp [h0]
  · rw [if_neg h0]
    unfold Regs.read
    rw [Vector.getElem_set]
    by_cases hj : j = i
    · simp [hj, h0]
    · have : i.toNat ≠ j.toNat := fun h => hj (BitVec.eq_of_toNat_eq h.symm)
      simp [hj, this]

theorem Regs.read_write_zero (r : Regs) (i : RegIdx) (v : Word) : (r.write i v).read 0#5 = r.read 0#5 := by
  rw [Regs.read_write, if_neg]; rintro ⟨rfl, h⟩; exact h rfl

theorem Regs.read_write_same (r : Regs) (i : RegIdx) (v : Word) (h : i ≠ 0#5) : (r.write i v).read i = v := by
  rw [Regs.read_write, if_pos ⟨rfl, h⟩]

theorem Regs.read_write_other (r : Regs) (i j : RegIdx) (v : Word) (h : j ≠ i) : (r.write i v).read j = r.read j := by
  rw [Regs.read_write, if_neg (fun c => h c.1)]

end Sys2Proof.Machine
end

