-- ==== Sys2Proof/Laws/State.lean ====
section
/-! SUPPORT. One lemma per field per update of the state, each true by `rfl`, so that no later proof unfolds a record
update. -/

namespace Sys2Proof.Machine

variable (s : State)

/-! `State.writeReg` -/
@[simp] theorem State.writeReg_x (i : RegIdx) (v : Word) : (s.writeReg i v).x = s.x.write i v := rfl
@[simp] theorem State.writeReg_hi (i : RegIdx) (v : Word) : (s.writeReg i v).hi = s.hi := rfl
@[simp] theorem State.writeReg_lo (i : RegIdx) (v : Word) : (s.writeReg i v).lo = s.lo := rfl
@[simp] theorem State.writeReg_pc (i : RegIdx) (v : Word) : (s.writeReg i v).pc = s.pc := rfl
@[simp] theorem State.writeReg_mem (i : RegIdx) (v : Word) : (s.writeReg i v).mem = s.mem := rfl
@[simp] theorem State.writeReg_ifId (i : RegIdx) (v : Word) : (s.writeReg i v).ifId = s.ifId := rfl
@[simp] theorem State.writeReg_idEx (i : RegIdx) (v : Word) : (s.writeReg i v).idEx = s.idEx := rfl
@[simp] theorem State.writeReg_exMem (i : RegIdx) (v : Word) : (s.writeReg i v).exMem = s.exMem := rfl
@[simp] theorem State.writeReg_memWb (i : RegIdx) (v : Word) : (s.writeReg i v).memWb = s.memWb := rfl
@[simp] theorem State.writeReg_fetchStall (i : RegIdx) (v : Word) : (s.writeReg i v).fetchStall = s.fetchStall := rfl
@[simp] theorem State.writeReg_haltSeen (i : RegIdx) (v : Word) : (s.writeReg i v).haltSeen = s.haltSeen := rfl
@[simp] theorem State.writeReg_run (i : RegIdx) (v : Word) : (s.writeReg i v).run = s.run := rfl
@[simp] theorem State.writeReg_haltWord (i : RegIdx) (v : Word) : (s.writeReg i v).haltWord = s.haltWord := rfl
@[simp] theorem State.writeReg_scratch (i : RegIdx) (v : Word) : (s.writeReg i v).scratch = s.scratch := rfl

/-! `State.setPc` -/
@[simp] theorem State.setPc_x (v : Word) : (s.setPc v).x = s.x := rfl
@[simp] theorem State.setPc_hi (v : Word) : (s.setPc v).hi = s.hi := rfl
@[simp] theorem State.setPc_lo (v : Word) : (s.setPc v).lo = s.lo := rfl
@[simp] theorem State.setPc_pc (v : Word) : (s.setPc v).pc = v := rfl
@[simp] theorem State.setPc_mem (v : Word) : (s.setPc v).mem = s.mem := rfl
@[simp] theorem State.setPc_ifId (v : Word) : (s.setPc v).ifId = s.ifId := rfl
@[simp] theorem State.setPc_idEx (v : Word) : (s.setPc v).idEx = s.idEx := rfl
@[simp] theorem State.setPc_exMem (v : Word) : (s.setPc v).exMem = s.exMem := rfl
@[simp] theorem State.setPc_memWb (v : Word) : (s.setPc v).memWb = s.memWb := rfl
@[simp] theorem State.setPc_fetchStall (v : Word) : (s.setPc v).fetchStall = s.fetchStall := rfl
@[simp] theorem State.setPc_haltSeen (v : Word) : (s.setPc v).haltSeen = s.haltSeen := rfl
@[simp] theorem State.setPc_run (v : Word) : (s.setPc v).run = s.run := rfl
@[simp] theorem State.setPc_haltWord (v : Word) : (s.setPc v).haltWord = s.haltWord := rfl
@[simp] theorem State.setPc_scratch (v : Word) : (s.setPc v).scratch = s.scratch := rfl

/-! `State.setMem` -/
@[simp] theorem State.setMem_x (m : Memory) : (s.setMem m).x = s.x := rfl
@[simp] theorem State.setMem_hi (m : Memory) : (s.setMem m).hi = s.hi := rfl
@[simp] theorem State.setMem_lo (m : Memory) : (s.setMem m).lo = s.lo := rfl
@[simp] theorem State.setMem_pc (m : Memory) : (s.setMem m).pc = s.pc := rfl
@[simp] theorem State.setMem_mem (m : Memory) : (s.setMem m).mem = m := rfl
@[simp] theorem State.setMem_ifId (m : Memory) : (s.setMem m).ifId = s.ifId := rfl
@[simp] theorem State.setMem_idEx (m : Memory) : (s.setMem m).idEx = s.idEx := rfl
@[simp] theorem State.setMem_exMem (m : Memory) : (s.setMem m).exMem = s.exMem := rfl
@[simp] theorem State.setMem_memWb (m : Memory) : (s.setMem m).memWb = s.memWb := rfl
@[simp] theorem State.setMem_fetchStall (m : Memory) : (s.setMem m).fetchStall = s.fetchStall := rfl
@[simp] theorem State.setMem_haltSeen (m : Memory) : (s.setMem m).haltSeen = s.haltSeen := rfl
@[simp] theorem State.setMem_run (m : Memory) : (s.setMem m).run = s.run := rfl
@[simp] theorem State.setMem_haltWord (m : Memory) : (s.setMem m).haltWord = s.haltWord := rfl
@[simp] theorem State.setMem_scratch (m : Memory) : (s.setMem m).scratch = s.scratch := rfl

/-! `State.setFetchStall` -/
@[simp] theorem State.setFetchStall_x (n : Fin 4) : (s.setFetchStall n).x = s.x := rfl
@[simp] theorem State.setFetchStall_hi (n : Fin 4) : (s.setFetchStall n).hi = s.hi := rfl
@[simp] theorem State.setFetchStall_lo (n : Fin 4) : (s.setFetchStall n).lo = s.lo := rfl
@[simp] theorem State.setFetchStall_pc (n : Fin 4) : (s.setFetchStall n).pc = s.pc := rfl
@[simp] theorem State.setFetchStall_mem (n : Fin 4) : (s.setFetchStall n).mem = s.mem := rfl
@[simp] theorem State.setFetchStall_ifId (n : Fin 4) : (s.setFetchStall n).ifId = s.ifId := rfl
@[simp] theorem State.setFetchStall_idEx (n : Fin 4) : (s.setFetchStall n).idEx = s.idEx := rfl
@[simp] theorem State.setFetchStall_exMem (n : Fin 4) : (s.setFetchStall n).exMem = s.exMem := rfl
@[simp] theorem State.setFetchStall_memWb (n : Fin 4) : (s.setFetchStall n).memWb = s.memWb := rfl
@[simp] theorem State.setFetchStall_fetchStall (n : Fin 4) : (s.setFetchStall n).fetchStall = n := rfl
@[simp] theorem State.setFetchStall_haltSeen (n : Fin 4) : (s.setFetchStall n).haltSeen = s.haltSeen := rfl
@[simp] theorem State.setFetchStall_run (n : Fin 4) : (s.setFetchStall n).run = s.run := rfl
@[simp] theorem State.setFetchStall_haltWord (n : Fin 4) : (s.setFetchStall n).haltWord = s.haltWord := rfl
@[simp] theorem State.setFetchStall_scratch (n : Fin 4) : (s.setFetchStall n).scratch = s.scratch := rfl

/-! `State.setHaltSeen` -/
@[simp] theorem State.setHaltSeen_x (b : Bool) : (s.setHaltSeen b).x = s.x := rfl
@[simp] theorem State.setHaltSeen_hi (b : Bool) : (s.setHaltSeen b).hi = s.hi := rfl
@[simp] theorem State.setHaltSeen_lo (b : Bool) : (s.setHaltSeen b).lo = s.lo := rfl
@[simp] theorem State.setHaltSeen_pc (b : Bool) : (s.setHaltSeen b).pc = s.pc := rfl
@[simp] theorem State.setHaltSeen_mem (b : Bool) : (s.setHaltSeen b).mem = s.mem := rfl
@[simp] theorem State.setHaltSeen_ifId (b : Bool) : (s.setHaltSeen b).ifId = s.ifId := rfl
@[simp] theorem State.setHaltSeen_idEx (b : Bool) : (s.setHaltSeen b).idEx = s.idEx := rfl
@[simp] theorem State.setHaltSeen_exMem (b : Bool) : (s.setHaltSeen b).exMem = s.exMem := rfl
@[simp] theorem State.setHaltSeen_memWb (b : Bool) : (s.setHaltSeen b).memWb = s.memWb := rfl
@[simp] theorem State.setHaltSeen_fetchStall (b : Bool) : (s.setHaltSeen b).fetchStall = s.fetchStall := rfl
@[simp] theorem State.setHaltSeen_haltSeen (b : Bool) : (s.setHaltSeen b).haltSeen = b := rfl
@[simp] theorem State.setHaltSeen_run (b : Bool) : (s.setHaltSeen b).run = s.run := rfl
@[simp] theorem State.setHaltSeen_haltWord (b : Bool) : (s.setHaltSeen b).haltWord = s.haltWord := rfl
@[simp] theorem State.setHaltSeen_scratch (b : Bool) : (s.setHaltSeen b).scratch = s.scratch := rfl

/-! `State.setRun` -/
@[simp] theorem State.setRun_x (r : RunStatus) : (s.setRun r).x = s.x := rfl
@[simp] theorem State.setRun_hi (r : RunStatus) : (s.setRun r).hi = s.hi := rfl
@[simp] theorem State.setRun_lo (r : RunStatus) : (s.setRun r).lo = s.lo := rfl
@[simp] theorem State.setRun_pc (r : RunStatus) : (s.setRun r).pc = s.pc := rfl
@[simp] theorem State.setRun_mem (r : RunStatus) : (s.setRun r).mem = s.mem := rfl
@[simp] theorem State.setRun_ifId (r : RunStatus) : (s.setRun r).ifId = s.ifId := rfl
@[simp] theorem State.setRun_idEx (r : RunStatus) : (s.setRun r).idEx = s.idEx := rfl
@[simp] theorem State.setRun_exMem (r : RunStatus) : (s.setRun r).exMem = s.exMem := rfl
@[simp] theorem State.setRun_memWb (r : RunStatus) : (s.setRun r).memWb = s.memWb := rfl
@[simp] theorem State.setRun_fetchStall (r : RunStatus) : (s.setRun r).fetchStall = s.fetchStall := rfl
@[simp] theorem State.setRun_haltSeen (r : RunStatus) : (s.setRun r).haltSeen = s.haltSeen := rfl
@[simp] theorem State.setRun_run (r : RunStatus) : (s.setRun r).run = r := rfl
@[simp] theorem State.setRun_haltWord (r : RunStatus) : (s.setRun r).haltWord = s.haltWord := rfl
@[simp] theorem State.setRun_scratch (r : RunStatus) : (s.setRun r).scratch = s.scratch := rfl

/-! `State.raise` -/
@[simp] theorem State.raise_x (k : FaultKind) (fi : FaultInfo) : (s.raise k fi).x = s.x := rfl
@[simp] theorem State.raise_hi (k : FaultKind) (fi : FaultInfo) : (s.raise k fi).hi = s.hi := rfl
@[simp] theorem State.raise_lo (k : FaultKind) (fi : FaultInfo) : (s.raise k fi).lo = s.lo := rfl
@[simp] theorem State.raise_pc (k : FaultKind) (fi : FaultInfo) : (s.raise k fi).pc = s.pc := rfl
@[simp] theorem State.raise_mem (k : FaultKind) (fi : FaultInfo) : (s.raise k fi).mem = s.mem := rfl
@[simp] theorem State.raise_ifId (k : FaultKind) (fi : FaultInfo) : (s.raise k fi).ifId = s.ifId := rfl
@[simp] theorem State.raise_idEx (k : FaultKind) (fi : FaultInfo) : (s.raise k fi).idEx = s.idEx := rfl
@[simp] theorem State.raise_exMem (k : FaultKind) (fi : FaultInfo) : (s.raise k fi).exMem = s.exMem := rfl
@[simp] theorem State.raise_memWb (k : FaultKind) (fi : FaultInfo) : (s.raise k fi).memWb = s.memWb := rfl
@[simp] theorem State.raise_fetchStall (k : FaultKind) (fi : FaultInfo) : (s.raise k fi).fetchStall = s.fetchStall := rfl
@[simp] theorem State.raise_haltSeen (k : FaultKind) (fi : FaultInfo) : (s.raise k fi).haltSeen = s.haltSeen := rfl
@[simp] theorem State.raise_run (k : FaultKind) (fi : FaultInfo) : (s.raise k fi).run = .faulted k fi := rfl
@[simp] theorem State.raise_haltWord (k : FaultKind) (fi : FaultInfo) : (s.raise k fi).haltWord = s.haltWord := rfl
@[simp] theorem State.raise_scratch (k : FaultKind) (fi : FaultInfo) : (s.raise k fi).scratch = s.scratch := rfl

/-! `State.setScratch` -/
@[simp] theorem State.setScratch_x (c : Scratch) : (s.setScratch c).x = s.x := rfl
@[simp] theorem State.setScratch_hi (c : Scratch) : (s.setScratch c).hi = s.hi := rfl
@[simp] theorem State.setScratch_lo (c : Scratch) : (s.setScratch c).lo = s.lo := rfl
@[simp] theorem State.setScratch_pc (c : Scratch) : (s.setScratch c).pc = s.pc := rfl
@[simp] theorem State.setScratch_mem (c : Scratch) : (s.setScratch c).mem = s.mem := rfl
@[simp] theorem State.setScratch_ifId (c : Scratch) : (s.setScratch c).ifId = s.ifId := rfl
@[simp] theorem State.setScratch_idEx (c : Scratch) : (s.setScratch c).idEx = s.idEx := rfl
@[simp] theorem State.setScratch_exMem (c : Scratch) : (s.setScratch c).exMem = s.exMem := rfl
@[simp] theorem State.setScratch_memWb (c : Scratch) : (s.setScratch c).memWb = s.memWb := rfl
@[simp] theorem State.setScratch_fetchStall (c : Scratch) : (s.setScratch c).fetchStall = s.fetchStall := rfl
@[simp] theorem State.setScratch_haltSeen (c : Scratch) : (s.setScratch c).haltSeen = s.haltSeen := rfl
@[simp] theorem State.setScratch_run (c : Scratch) : (s.setScratch c).run = s.run := rfl
@[simp] theorem State.setScratch_haltWord (c : Scratch) : (s.setScratch c).haltWord = s.haltWord := rfl
@[simp] theorem State.setScratch_scratch (c : Scratch) : (s.setScratch c).scratch = c := rfl

/-! `State.atStage` -/
@[simp] theorem State.atStage_x (st : Stage) : (s.atStage st).x = s.x := rfl
@[simp] theorem State.atStage_hi (st : Stage) : (s.atStage st).hi = s.hi := rfl
@[simp] theorem State.atStage_lo (st : Stage) : (s.atStage st).lo = s.lo := rfl
@[simp] theorem State.atStage_pc (st : Stage) : (s.atStage st).pc = s.pc := rfl
@[simp] theorem State.atStage_mem (st : Stage) : (s.atStage st).mem = s.mem := rfl
@[simp] theorem State.atStage_ifId (st : Stage) : (s.atStage st).ifId = s.ifId := rfl
@[simp] theorem State.atStage_idEx (st : Stage) : (s.atStage st).idEx = s.idEx := rfl
@[simp] theorem State.atStage_exMem (st : Stage) : (s.atStage st).exMem = s.exMem := rfl
@[simp] theorem State.atStage_memWb (st : Stage) : (s.atStage st).memWb = s.memWb := rfl
@[simp] theorem State.atStage_fetchStall (st : Stage) : (s.atStage st).fetchStall = s.fetchStall := rfl
@[simp] theorem State.atStage_haltSeen (st : Stage) : (s.atStage st).haltSeen = s.haltSeen := rfl
@[simp] theorem State.atStage_run (st : Stage) : (s.atStage st).run = s.run := rfl
@[simp] theorem State.atStage_haltWord (st : Stage) : (s.atStage st).haltWord = s.haltWord := rfl
@[simp] theorem State.atStage_scratch_stage (st : Stage) : (s.atStage st).scratch.stage = st := rfl
@[simp] theorem State.atStage_scratch_xStart (st : Stage) : (s.atStage st).scratch.xStart = s.scratch.xStart := rfl
@[simp] theorem State.atStage_scratch_ifIdNext (st : Stage) : (s.atStage st).scratch.ifIdNext = s.scratch.ifIdNext := rfl
@[simp] theorem State.atStage_scratch_idExNext (st : Stage) : (s.atStage st).scratch.idExNext = s.scratch.idExNext := rfl
@[simp] theorem State.atStage_scratch_exMemNext (st : Stage) : (s.atStage st).scratch.exMemNext = s.scratch.exMemNext := rfl
@[simp] theorem State.atStage_scratch_memWbNext (st : Stage) : (s.atStage st).scratch.memWbNext = s.scratch.memWbNext := rfl

/-! `State.putIfId` -/
@[simp] theorem State.putIfId_x (l : Latch IfId) : (s.putIfId l).x = s.x := rfl
@[simp] theorem State.putIfId_hi (l : Latch IfId) : (s.putIfId l).hi = s.hi := rfl
@[simp] theorem State.putIfId_lo (l : Latch IfId) : (s.putIfId l).lo = s.lo := rfl
@[simp] theorem State.putIfId_pc (l : Latch IfId) : (s.putIfId l).pc = s.pc := rfl
@[simp] theorem State.putIfId_mem (l : Latch IfId) : (s.putIfId l).mem = s.mem := rfl
@[simp] theorem State.putIfId_ifId (l : Latch IfId) : (s.putIfId l).ifId = s.ifId := rfl
@[simp] theorem State.putIfId_idEx (l : Latch IfId) : (s.putIfId l).idEx = s.idEx := rfl
@[simp] theorem State.putIfId_exMem (l : Latch IfId) : (s.putIfId l).exMem = s.exMem := rfl
@[simp] theorem State.putIfId_memWb (l : Latch IfId) : (s.putIfId l).memWb = s.memWb := rfl
@[simp] theorem State.putIfId_fetchStall (l : Latch IfId) : (s.putIfId l).fetchStall = s.fetchStall := rfl
@[simp] theorem State.putIfId_haltSeen (l : Latch IfId) : (s.putIfId l).haltSeen = s.haltSeen := rfl
@[simp] theorem State.putIfId_run (l : Latch IfId) : (s.putIfId l).run = s.run := rfl
@[simp] theorem State.putIfId_haltWord (l : Latch IfId) : (s.putIfId l).haltWord = s.haltWord := rfl
@[simp] theorem State.putIfId_scratch_stage (l : Latch IfId) : (s.putIfId l).scratch.stage = s.scratch.stage := rfl
@[simp] theorem State.putIfId_scratch_xStart (l : Latch IfId) : (s.putIfId l).scratch.xStart = s.scratch.xStart := rfl
@[simp] theorem State.putIfId_scratch_ifIdNext (l : Latch IfId) : (s.putIfId l).scratch.ifIdNext = l := rfl
@[simp] theorem State.putIfId_scratch_idExNext (l : Latch IfId) : (s.putIfId l).scratch.idExNext = s.scratch.idExNext := rfl
@[simp] theorem State.putIfId_scratch_exMemNext (l : Latch IfId) : (s.putIfId l).scratch.exMemNext = s.scratch.exMemNext := rfl
@[simp] theorem State.putIfId_scratch_memWbNext (l : Latch IfId) : (s.putIfId l).scratch.memWbNext = s.scratch.memWbNext := rfl

/-! `State.putIdEx` -/
@[simp] theorem State.putIdEx_x (l : Latch IdEx) : (s.putIdEx l).x = s.x := rfl
@[simp] theorem State.putIdEx_hi (l : Latch IdEx) : (s.putIdEx l).hi = s.hi := rfl
@[simp] theorem State.putIdEx_lo (l : Latch IdEx) : (s.putIdEx l).lo = s.lo := rfl
@[simp] theorem State.putIdEx_pc (l : Latch IdEx) : (s.putIdEx l).pc = s.pc := rfl
@[simp] theorem State.putIdEx_mem (l : Latch IdEx) : (s.putIdEx l).mem = s.mem := rfl
@[simp] theorem State.putIdEx_ifId (l : Latch IdEx) : (s.putIdEx l).ifId = s.ifId := rfl
@[simp] theorem State.putIdEx_idEx (l : Latch IdEx) : (s.putIdEx l).idEx = s.idEx := rfl
@[simp] theorem State.putIdEx_exMem (l : Latch IdEx) : (s.putIdEx l).exMem = s.exMem := rfl
@[simp] theorem State.putIdEx_memWb (l : Latch IdEx) : (s.putIdEx l).memWb = s.memWb := rfl
@[simp] theorem State.putIdEx_fetchStall (l : Latch IdEx) : (s.putIdEx l).fetchStall = s.fetchStall := rfl
@[simp] theorem State.putIdEx_haltSeen (l : Latch IdEx) : (s.putIdEx l).haltSeen = s.haltSeen := rfl
@[simp] theorem State.putIdEx_run (l : Latch IdEx) : (s.putIdEx l).run = s.run := rfl
@[simp] theorem State.putIdEx_haltWord (l : Latch IdEx) : (s.putIdEx l).haltWord = s.haltWord := rfl
@[simp] theorem State.putIdEx_scratch_stage (l : Latch IdEx) : (s.putIdEx l).scratch.stage = s.scratch.stage := rfl
@[simp] theorem State.putIdEx_scratch_xStart (l : Latch IdEx) : (s.putIdEx l).scratch.xStart = s.scratch.xStart := rfl
@[simp] theorem State.putIdEx_scratch_ifIdNext (l : Latch IdEx) : (s.putIdEx l).scratch.ifIdNext = s.scratch.ifIdNext := rfl
@[simp] theorem State.putIdEx_scratch_idExNext (l : Latch IdEx) : (s.putIdEx l).scratch.idExNext = l := rfl
@[simp] theorem State.putIdEx_scratch_exMemNext (l : Latch IdEx) : (s.putIdEx l).scratch.exMemNext = s.scratch.exMemNext := rfl
@[simp] theorem State.putIdEx_scratch_memWbNext (l : Latch IdEx) : (s.putIdEx l).scratch.memWbNext = s.scratch.memWbNext := rfl

/-! `State.putExMem` -/
@[simp] theorem State.putExMem_x (l : Latch ExMem) : (s.putExMem l).x = s.x := rfl
@[simp] theorem State.putExMem_hi (l : Latch ExMem) : (s.putExMem l).hi = s.hi := rfl
@[simp] theorem State.putExMem_lo (l : Latch ExMem) : (s.putExMem l).lo = s.lo := rfl
@[simp] theorem State.putExMem_pc (l : Latch ExMem) : (s.putExMem l).pc = s.pc := rfl
@[simp] theorem State.putExMem_mem (l : Latch ExMem) : (s.putExMem l).mem = s.mem := rfl
@[simp] theorem State.putExMem_ifId (l : Latch ExMem) : (s.putExMem l).ifId = s.ifId := rfl
@[simp] theorem State.putExMem_idEx (l : Latch ExMem) : (s.putExMem l).idEx = s.idEx := rfl
@[simp] theorem State.putExMem_exMem (l : Latch ExMem) : (s.putExMem l).exMem = s.exMem := rfl
@[simp] theorem State.putExMem_memWb (l : Latch ExMem) : (s.putExMem l).memWb = s.memWb := rfl
@[simp] theorem State.putExMem_fetchStall (l : Latch ExMem) : (s.putExMem l).fetchStall = s.fetchStall := rfl
@[simp] theorem State.putExMem_haltSeen (l : Latch ExMem) : (s.putExMem l).haltSeen = s.haltSeen := rfl
@[simp] theorem State.putExMem_run (l : Latch ExMem) : (s.putExMem l).run = s.run := rfl
@[simp] theorem State.putExMem_haltWord (l : Latch ExMem) : (s.putExMem l).haltWord = s.haltWord := rfl
@[simp] theorem State.putExMem_scratch_stage (l : Latch ExMem) : (s.putExMem l).scratch.stage = s.scratch.stage := rfl
@[simp] theorem State.putExMem_scratch_xStart (l : Latch ExMem) : (s.putExMem l).scratch.xStart = s.scratch.xStart := rfl
@[simp] theorem State.putExMem_scratch_ifIdNext (l : Latch ExMem) : (s.putExMem l).scratch.ifIdNext = s.scratch.ifIdNext := rfl
@[simp] theorem State.putExMem_scratch_idExNext (l : Latch ExMem) : (s.putExMem l).scratch.idExNext = s.scratch.idExNext := rfl
@[simp] theorem State.putExMem_scratch_exMemNext (l : Latch ExMem) : (s.putExMem l).scratch.exMemNext = l := rfl
@[simp] theorem State.putExMem_scratch_memWbNext (l : Latch ExMem) : (s.putExMem l).scratch.memWbNext = s.scratch.memWbNext := rfl

/-! `State.putMemWb` -/
@[simp] theorem State.putMemWb_x (l : Latch MemWb) : (s.putMemWb l).x = s.x := rfl
@[simp] theorem State.putMemWb_hi (l : Latch MemWb) : (s.putMemWb l).hi = s.hi := rfl
@[simp] theorem State.putMemWb_lo (l : Latch MemWb) : (s.putMemWb l).lo = s.lo := rfl
@[simp] theorem State.putMemWb_pc (l : Latch MemWb) : (s.putMemWb l).pc = s.pc := rfl
@[simp] theorem State.putMemWb_mem (l : Latch MemWb) : (s.putMemWb l).mem = s.mem := rfl
@[simp] theorem State.putMemWb_ifId (l : Latch MemWb) : (s.putMemWb l).ifId = s.ifId := rfl
@[simp] theorem State.putMemWb_idEx (l : Latch MemWb) : (s.putMemWb l).idEx = s.idEx := rfl
@[simp] theorem State.putMemWb_exMem (l : Latch MemWb) : (s.putMemWb l).exMem = s.exMem := rfl
@[simp] theorem State.putMemWb_memWb (l : Latch MemWb) : (s.putMemWb l).memWb = s.memWb := rfl
@[simp] theorem State.putMemWb_fetchStall (l : Latch MemWb) : (s.putMemWb l).fetchStall = s.fetchStall := rfl
@[simp] theorem State.putMemWb_haltSeen (l : Latch MemWb) : (s.putMemWb l).haltSeen = s.haltSeen := rfl
@[simp] theorem State.putMemWb_run (l : Latch MemWb) : (s.putMemWb l).run = s.run := rfl
@[simp] theorem State.putMemWb_haltWord (l : Latch MemWb) : (s.putMemWb l).haltWord = s.haltWord := rfl
@[simp] theorem State.putMemWb_scratch_stage (l : Latch MemWb) : (s.putMemWb l).scratch.stage = s.scratch.stage := rfl
@[simp] theorem State.putMemWb_scratch_xStart (l : Latch MemWb) : (s.putMemWb l).scratch.xStart = s.scratch.xStart := rfl
@[simp] theorem State.putMemWb_scratch_ifIdNext (l : Latch MemWb) : (s.putMemWb l).scratch.ifIdNext = s.scratch.ifIdNext := rfl
@[simp] theorem State.putMemWb_scratch_idExNext (l : Latch MemWb) : (s.putMemWb l).scratch.idExNext = s.scratch.idExNext := rfl
@[simp] theorem State.putMemWb_scratch_exMemNext (l : Latch MemWb) : (s.putMemWb l).scratch.exMemNext = s.scratch.exMemNext := rfl
@[simp] theorem State.putMemWb_scratch_memWbNext (l : Latch MemWb) : (s.putMemWb l).scratch.memWbNext = l := rfl

/-! `State.beginTick` -/
@[simp] theorem State.beginTick_x : (s.beginTick).x = s.x := rfl
@[simp] theorem State.beginTick_hi : (s.beginTick).hi = s.hi := rfl
@[simp] theorem State.beginTick_lo : (s.beginTick).lo = s.lo := rfl
@[simp] theorem State.beginTick_pc : (s.beginTick).pc = s.pc := rfl
@[simp] theorem State.beginTick_mem : (s.beginTick).mem = s.mem := rfl
@[simp] theorem State.beginTick_ifId : (s.beginTick).ifId = s.ifId := rfl
@[simp] theorem State.beginTick_idEx : (s.beginTick).idEx = s.idEx := rfl
@[simp] theorem State.beginTick_exMem : (s.beginTick).exMem = s.exMem := rfl
@[simp] theorem State.beginTick_memWb : (s.beginTick).memWb = s.memWb := rfl
@[simp] theorem State.beginTick_fetchStall : (s.beginTick).fetchStall = s.fetchStall := rfl
@[simp] theorem State.beginTick_haltSeen : (s.beginTick).haltSeen = s.haltSeen := rfl
@[simp] theorem State.beginTick_run : (s.beginTick).run = s.run := rfl
@[simp] theorem State.beginTick_haltWord : (s.beginTick).haltWord = s.haltWord := rfl
@[simp] theorem State.beginTick_scratch_stage : (s.beginTick).scratch.stage = .wb := rfl
@[simp] theorem State.beginTick_scratch_xStart : (s.beginTick).scratch.xStart = s.x := rfl
@[simp] theorem State.beginTick_scratch_ifIdNext : (s.beginTick).scratch.ifIdNext = .bubble := rfl
@[simp] theorem State.beginTick_scratch_idExNext : (s.beginTick).scratch.idExNext = .bubble := rfl
@[simp] theorem State.beginTick_scratch_exMemNext : (s.beginTick).scratch.exMemNext = .bubble := rfl
@[simp] theorem State.beginTick_scratch_memWbNext : (s.beginTick).scratch.memWbNext = .bubble := rfl

/-! `State.dropTick` -/
@[simp] theorem State.dropTick_x : (s.dropTick).x = s.x := rfl
@[simp] theorem State.dropTick_hi : (s.dropTick).hi = s.hi := rfl
@[simp] theorem State.dropTick_lo : (s.dropTick).lo = s.lo := rfl
@[simp] theorem State.dropTick_pc : (s.dropTick).pc = s.pc := rfl
@[simp] theorem State.dropTick_mem : (s.dropTick).mem = s.mem := rfl
@[simp] theorem State.dropTick_ifId : (s.dropTick).ifId = s.ifId := rfl
@[simp] theorem State.dropTick_idEx : (s.dropTick).idEx = s.idEx := rfl
@[simp] theorem State.dropTick_exMem : (s.dropTick).exMem = s.exMem := rfl
@[simp] theorem State.dropTick_memWb : (s.dropTick).memWb = s.memWb := rfl
@[simp] theorem State.dropTick_fetchStall : (s.dropTick).fetchStall = s.fetchStall := rfl
@[simp] theorem State.dropTick_haltSeen : (s.dropTick).haltSeen = s.haltSeen := rfl
@[simp] theorem State.dropTick_run : (s.dropTick).run = s.run := rfl
@[simp] theorem State.dropTick_haltWord : (s.dropTick).haltWord = s.haltWord := rfl
@[simp] theorem State.dropTick_scratch : (s.dropTick).scratch = Scratch.idle := rfl

/-! `State.handOver` -/
@[simp] theorem State.handOver_x : (s.handOver).x = s.x := rfl
@[simp] theorem State.handOver_hi : (s.handOver).hi = s.hi := rfl
@[simp] theorem State.handOver_lo : (s.handOver).lo = s.lo := rfl
@[simp] theorem State.handOver_pc : (s.handOver).pc = s.pc := rfl
@[simp] theorem State.handOver_mem : (s.handOver).mem = s.mem := rfl
@[simp] theorem State.handOver_ifId : (s.handOver).ifId = s.scratch.ifIdNext := rfl
@[simp] theorem State.handOver_idEx : (s.handOver).idEx = s.scratch.idExNext := rfl
@[simp] theorem State.handOver_exMem : (s.handOver).exMem = s.scratch.exMemNext := rfl
@[simp] theorem State.handOver_memWb : (s.handOver).memWb = s.scratch.memWbNext := rfl
@[simp] theorem State.handOver_fetchStall : (s.handOver).fetchStall = s.fetchStall := rfl
@[simp] theorem State.handOver_haltSeen : (s.handOver).haltSeen = s.haltSeen := rfl
@[simp] theorem State.handOver_run : (s.handOver).run = s.run := rfl
@[simp] theorem State.handOver_haltWord : (s.handOver).haltWord = s.haltWord := rfl
@[simp] theorem State.handOver_scratch : (s.handOver).scratch = Scratch.idle := rfl

end Sys2Proof.Machine
end

