-- ==== Sys2Proof/Laws/Ops.lean ====
section
/-! SUPPORT. Everything a shared stage action can do, said once for each; and that every operation that writes memory keeps its
canonical form. -/

namespace Sys2Proof.Machine

variable {s t : State}

theorem decodeSlot_next {op : Decoded} {ops : IfId → IdOperands} {control : State → State}
    (h : decodeSlot op ops control s = .next t) :
    (s.ifId = .bubble ∧ t = s.putIdEx .bubble) ∨
    (∃ f, s.ifId = .live f ∧ t = (control s).putIdEx (.live (decodedRecord op (ops f) f s.scratch.xStart))) := by
  unfold decodeSlot at h
  cases hf : s.ifId with
  | bubble => rw [hf] at h; exact .inl ⟨rfl, (Host.Outcome.next.inj h).symm⟩
  | live f => rw [hf] at h; exact .inr ⟨f, rfl, (Host.Outcome.next.inj h).symm⟩

theorem executeSlot_next {compute : IdEx → ExMem} (h : executeSlot compute s = .next t) :
    (s.idEx = .bubble ∧ t = s.putExMem .bubble) ∨ (∃ d, s.idEx = .live d ∧ t = s.putExMem (.live (compute d))) := by
  unfold executeSlot at h
  cases hd : s.idEx with
  | bubble => rw [hd] at h; exact .inl ⟨rfl, (Host.Outcome.next.inj h).symm⟩
  | live d => rw [hd] at h; exact .inr ⟨d, rfl, (Host.Outcome.next.inj h).symm⟩

theorem raiseUnknownSlot_next {kind : FaultKind} (h : raiseUnknownSlot kind s = .next t) :
    (s.idEx = .bubble ∧ t = s.putExMem .bubble) ∨
    (∃ d, s.idEx = .live d ∧ t = s.raise kind { pc := d.nextPc - 4#32, word := some d.instr.word, addr := none }) := by
  unfold raiseUnknownSlot at h
  cases hd : s.idEx with
  | bubble => rw [hd] at h; exact .inl ⟨rfl, (Host.Outcome.next.inj h).symm⟩
  | live d => rw [hd] at h; exact .inr ⟨d, rfl, (Host.Outcome.next.inj h).symm⟩

theorem commitSlot_next {commit : ExMem → State → State} (h : commitSlot commit s = .next t) :
    (s.exMem = .bubble ∧ t = s.putMemWb .bubble) ∨
    (∃ e, s.exMem = .live e ∧ t = (commit e s).putMemWb (.live (forwardRecord e e.aluOut))) := by
  unfold commitSlot at h
  cases he : s.exMem with
  | bubble => rw [he] at h; exact .inl ⟨rfl, (Host.Outcome.next.inj h).symm⟩
  | live e => rw [he] at h; exact .inr ⟨e, rfl, (Host.Outcome.next.inj h).symm⟩

theorem loadSlot_next (h : loadSlot s = .next t) :
    (s.exMem = .bubble ∧ t = s.putMemWb .bubble) ∨
    (∃ e, s.exMem = .live e ∧ inBounds e.aluOut = true ∧
      t = s.putMemWb (.live (forwardRecord e (s.mem.wordAt e.aluOut.toNat)))) ∨
    (∃ e, s.exMem = .live e ∧ inBounds e.aluOut = false ∧ t = s.raise .outOfBoundsAddress (dataFaultInfo e)) := by
  unfold loadSlot at h
  cases he : s.exMem with
  | bubble => rw [he] at h; exact .inl ⟨rfl, (Host.Outcome.next.inj h).symm⟩
  | live e =>
    rw [he] at h; dsimp only at h
    cases hb : inBounds e.aluOut with
    | true => rw [Memory.readWord_eq _ _ hb] at h; exact .inr (.inl ⟨e, rfl, hb, (Host.Outcome.next.inj h).symm⟩)
    | false => rw [Memory.readWord_out _ _ hb] at h; exact .inr (.inr ⟨e, rfl, hb, (Host.Outcome.next.inj h).symm⟩)

theorem storeSlot_next (h : storeSlot s = .next t) :
    (s.exMem = .bubble ∧ t = s.putMemWb .bubble) ∨
    (∃ e, s.exMem = .live e ∧ inBounds e.aluOut = true ∧
      t = (s.setMem (s.mem.setWordAt e.aluOut.toNat e.storeValue)).putMemWb (.live (forwardRecord e e.aluOut))) ∨
    (∃ e, s.exMem = .live e ∧ inBounds e.aluOut = false ∧ t = s.raise .outOfBoundsAddress (dataFaultInfo e)) := by
  unfold storeSlot at h
  cases he : s.exMem with
  | bubble => rw [he] at h; exact .inl ⟨rfl, (Host.Outcome.next.inj h).symm⟩
  | live e =>
    rw [he] at h; dsimp only at h
    cases hb : inBounds e.aluOut with
    | true =>
      rw [show s.mem.writeWord e.aluOut e.storeValue = some _ from if_pos hb] at h
      exact .inr (.inl ⟨e, rfl, hb, (Host.Outcome.next.inj h).symm⟩)
    | false => rw [Memory.writeWord_out _ _ _ hb] at h; exact .inr (.inr ⟨e, rfl, hb, (Host.Outcome.next.inj h).symm⟩)

theorem writeBackSlot_next (h : writeBackSlot s = .next t) :
    t = s ∨ (∃ m, s.memWb = .live m ∧ m.regWrite = true ∧ t = s.writeReg m.destIndex m.result) := by
  unfold writeBackSlot at h
  cases hm : s.memWb with
  | bubble => rw [hm] at h; exact .inl (Host.Outcome.next.inj h).symm
  | live m =>
    rw [hm] at h; dsimp only at h
    by_cases hr : m.regWrite = true
    · rw [if_pos hr] at h; exact .inr ⟨m, rfl, hr, (Host.Outcome.next.inj h).symm⟩
    · rw [if_neg hr] at h; exact .inl (Host.Outcome.next.inj h).symm

theorem haltSlot_next (h : haltSlot s = .next t) :
    (s.memWb = .bubble ∧ t = s) ∨ (∃ m, s.memWb = .live m ∧ t = s.setRun .halted) := by
  unfold haltSlot at h
  cases hm : s.memWb with
  | bubble => rw [hm] at h; exact .inl ⟨rfl, (Host.Outcome.next.inj h).symm⟩
  | live m => rw [hm] at h; exact .inr ⟨m, rfl, (Host.Outcome.next.inj h).symm⟩

/-! ### Memory keeps its canonical form -/

theorem reset_mem_wf : State.reset.mem.wf = true := by decide

theorem Memory.loadWords_wf (m : Memory) (a : Nat) (ws : List Word) (h : m.wf = true)
    (ha : a + 4 * ws.length ≤ Config.memSize) : (m.loadWords a ws).wf = true := by
  induction ws generalizing m a with
  | nil => exact h
  | cons w rest ih =>
    rw [List.length_cons] at ha
    exact ih _ _ (Memory.setWordAt_wf _ _ _ h (by omega)) (by omega)

theorem betweenRunsOnly_next {α : Type} {answer : HostAnswer α} {r : α × State} (h : betweenRunsOnly s answer = .next r) :
    s.betweenRuns = true ∧ answer = .next r := by
  unfold betweenRunsOnly at h
  split at h
  · exact ⟨‹_›, h⟩
  · cases h

/-- Everything a load can do: the words before the first malformed line are stored and counted. -/
theorem hostLoad_next {address : Nat} {lines : List ProgramLine} {r : LoadReport} (h : hostLoad address lines s = .next (r, t)) :
    s.betweenRuns = true ∧ address + 4 * r.count ≤ Config.memSize ∧ r.count = (wordsBeforeMalformed lines).length ∧
      t = s.setMem (s.mem.loadWords address (wordsBeforeMalformed lines)) := by
  obtain ⟨hb, h⟩ := betweenRunsOnly_next h
  split at h
  · obtain ⟨rfl, rfl⟩ := Prod.mk.inj (Host.Outcome.next.inj h)
    exact ⟨hb, ‹_›, rfl, rfl⟩
  · cases h

theorem hostLoad_wf {address : Nat} {lines : List ProgramLine} {r : LoadReport} (hm : s.mem.wf = true)
    (h : hostLoad address lines s = .next (r, t)) : t.mem.wf = true := by
  obtain ⟨-, ha, hc, rfl⟩ := hostLoad_next h
  exact Memory.loadWords_wf _ _ _ hm (hc ▸ ha)

theorem placeWordAtPc_inBounds (word : Word) : inBounds (placeWordAtPc s word).pc = true := by
  show inBounds (if inBounds s.pc then s.pc else Config.entryPc) = true
  by_cases hb : inBounds s.pc = true
  · rw [if_pos hb]; exact hb
  · rw [if_neg hb]; decide

/-- With nothing in MEM_WB, EX_MEM and ID_EX a tick is ID, then IF. -/
theorem step_bubbles (hr : s.run = .running) (hw : s.memWb = .bubble) (hm : s.exMem = .bubble) (he : s.idEx = .bubble) :
    step s = endTick (andThen (idStage s.beginTick) ifStage) := by
  rcases s with ⟨⟩
  obtain rfl := hr; obtain rfl := hw; obtain rfl := hm; obtain rfl := he
  rfl

/-- What `withFetchWord` stands for: the tick that fetches the word, taken. -/
theorem step_placeWordAtPc (word : Word) (h : s.mem.wf = true) :
    step (placeWordAtPc s word) = .next (placeFetchWord s word) := by
  have hb := placeWordAtPc_inBounds (s := s) word
  have hr : (placeWordAtPc s word).mem.readWord (placeWordAtPc s word).pc = some word := by
    rw [Memory.readWord_eq _ _ hb]
    exact congrArg some (Memory.wordAt_setWordAt _ _ _ h ((inBounds_iff _).mp hb))
  rw [step_bubbles rfl rfl rfl rfl]
  show endTick (match (placeWordAtPc s word).mem.readWord (placeWordAtPc s word).pc with | some _ => _ | none => _) = _
  rw [hr]; rfl

/-- The very next step runs the instruction placed: its ID, then the fetch of the word after it. -/
theorem step_placeFetchWord (word : Word) (i : Instr) (h : decode s.haltWord word = .known i) :
    step (placeFetchWord s word) =
      endTick (andThen (exec i ((placeFetchWord s word).beginTick.atStage .id)) ifStage) := by
  rw [step_bubbles rfl rfl rfl rfl]
  show endTick (andThen (execDecoded (decode s.haltWord word) _) ifStage) = _
  rw [h]; rfl

theorem step_withFetchWord (nbits w : Nat) (i : Instr) (h : decode s.haltWord (BitVec.ofNat 32 (w % 2 ^ nbits)) = .known i) :
    step (s.withFetchWord nbits w) =
      endTick (andThen (exec i ((s.withFetchWord nbits w).beginTick.atStage .id)) ifStage) := step_placeFetchWord _ i h

theorem withFetchWord_wf (nbits w : Nat) (h : s.mem.wf = true) : (s.withFetchWord nbits w).mem.wf = true :=
  Memory.setWordAt_wf _ _ _ h ((inBounds_iff _).mp (placeWordAtPc_inBounds (s := s) 0#32))

end Sys2Proof.Machine
end

