-- ==== Sys2Proof/Laws/PerInstr.lean ====
section
/-! SUPPORT. Per instruction: its word lies in its row of the opcode table (spec 30 R56). -/

namespace Sys2Proof

/-- The `mask` and `match` columns of the opcode table (30 R56): the word of a row satisfies `w &&& mask = match`. The
halt row is compared whole. -/
def Instr.mask : Instr → Word
  | .sll .. | .srl .. | .sra .. | .jr .. | .add .. | .sub .. | .and .. | .or .. | .nor .. | .slt .. => 0xFC00003F#32
  | .j .. | .jal .. | .beq .. | .bne .. | .addi .. | .slti .. | .andi .. | .ori .. | .lw .. | .sw .. => 0xFC000000#32
  | .halt => 0xFFFFFFFF#32

def Instr.matchBits (haltWord : Word) : Instr → Word
  | .sll .. => 0x00000000#32
  | .srl .. => 0x00000002#32
  | .sra .. => 0x00000003#32
  | .jr .. => 0x00000008#32
  | .add .. => 0x00000020#32
  | .sub .. => 0x00000022#32
  | .and .. => 0x00000024#32
  | .or .. => 0x00000025#32
  | .nor .. => 0x00000027#32
  | .slt .. => 0x0000002A#32
  | .j .. => 0x08000000#32
  | .jal .. => 0x0C000000#32
  | .beq .. => 0x10000000#32
  | .bne .. => 0x14000000#32
  | .addi .. => 0x20000000#32
  | .slti .. => 0x28000000#32
  | .andi .. => 0x30000000#32
  | .ori .. => 0x34000000#32
  | .lw .. => 0x8C000000#32
  | .sw .. => 0xAC000000#32
  | .halt => haltWord

/-- The mask of the R-format rows keeps opcode and funct. -/
theorem encodeR_mask (rs rt rd shamt : RegIdx) (funct : BitVec 6) :
    encodeR rs rt rd shamt funct &&& 0xFC00003F#32 = funct.setWidth 32 := by
  have hm : ∀ i, i < 32 → (0xFC00003F#32).getLsbD i = (decide (i < 6) || decide (26 ≤ i)) := by decide
  apply BitVec.eq_of_getLsbD_eq
  intro i hi
  rw [BitVec.getLsbD_and, hm i hi, encodeR_bit, BitVec.getLsbD_setWidth, decide_eq_true hi, Bool.true_and]
  by_cases h6 : i < 6
  · simp [h6]
  · have : funct.getLsbD i = false := BitVec.getLsbD_of_ge _ _ (by omega)
    by_cases h26 : i < 26
    · simp [h6, this, show ¬ 26 ≤ i by omega]
    · simp [h6, this, h26, show ¬ i < 11 by omega, show ¬ i < 16 by omega, show ¬ i < 21 by omega]

/-- The bits the mask of the I- and J-format rows keeps. -/
theorem opcodeMask_bit (i : Nat) (hi : i < 32) : (0xFC000000#32).getLsbD i = decide (26 ≤ i) := by
  revert i; decide

theorem encodeI_mask (opcode : BitVec 6) (rs rt : RegIdx) (imm16 : BitVec 16) :
    encodeI opcode rs rt imm16 &&& 0xFC000000#32 = opcode ++ 0#26 := by
  apply BitVec.eq_of_getLsbD_eq
  intro i hi
  rw [BitVec.getLsbD_and, opcodeMask_bit i hi, encodeI_bit, BitVec.getLsbD_append]
  by_cases h26 : i < 26
  · simp [h26, show ¬ 26 ≤ i by omega]
  · simp [h26, show ¬ i < 16 by omega, show ¬ i < 21 by omega, show 26 ≤ i by omega]

theorem encodeJ_mask (opcode : BitVec 6) (target26 : BitVec 26) :
    encodeJ opcode target26 &&& 0xFC000000#32 = opcode ++ 0#26 := by
  apply BitVec.eq_of_getLsbD_eq
  intro i hi
  rw [BitVec.getLsbD_and, opcodeMask_bit i hi, encodeJ_bit, BitVec.getLsbD_append]
  by_cases h26 : i < 26
  · simp [h26, show ¬ 26 ≤ i by omega]
  · simp [h26, show 26 ≤ i by omega]

end Sys2Proof

namespace Sys2Proof.Laws.RowOfTable

/-- The instruction's word, under the mask of its row, is the match value of its row. -/
def Statement (i : Instr) : Prop := ∀ haltWord : Word, encode haltWord i &&& i.mask = i.matchBits haltWord

theorem sll (rs rt rd shamt : RegIdx) : Statement (.sll rs rt rd shamt) := fun _ => encodeR_mask rs rt rd shamt _
theorem srl (rs rt rd shamt : RegIdx) : Statement (.srl rs rt rd shamt) := fun _ => encodeR_mask rs rt rd shamt _
theorem sra (rs rt rd shamt : RegIdx) : Statement (.sra rs rt rd shamt) := fun _ => encodeR_mask rs rt rd shamt _
theorem jr (rs rt rd shamt : RegIdx) : Statement (.jr rs rt rd shamt) := fun _ => encodeR_mask rs rt rd shamt _
theorem add (rs rt rd shamt : RegIdx) : Statement (.add rs rt rd shamt) := fun _ => encodeR_mask rs rt rd shamt _
theorem sub (rs rt rd shamt : RegIdx) : Statement (.sub rs rt rd shamt) := fun _ => encodeR_mask rs rt rd shamt _
theorem and (rs rt rd shamt : RegIdx) : Statement (.and rs rt rd shamt) := fun _ => encodeR_mask rs rt rd shamt _
theorem or (rs rt rd shamt : RegIdx) : Statement (.or rs rt rd shamt) := fun _ => encodeR_mask rs rt rd shamt _
theorem nor (rs rt rd shamt : RegIdx) : Statement (.nor rs rt rd shamt) := fun _ => encodeR_mask rs rt rd shamt _
theorem slt (rs rt rd shamt : RegIdx) : Statement (.slt rs rt rd shamt) := fun _ => encodeR_mask rs rt rd shamt _
theorem j (target26 : BitVec 26) : Statement (.j target26) := fun _ => encodeJ_mask _ target26
theorem jal (target26 : BitVec 26) : Statement (.jal target26) := fun _ => encodeJ_mask _ target26
theorem beq (rs rt : RegIdx) (imm16 : BitVec 16) : Statement (.beq rs rt imm16) := fun _ => encodeI_mask _ rs rt imm16
theorem bne (rs rt : RegIdx) (imm16 : BitVec 16) : Statement (.bne rs rt imm16) := fun _ => encodeI_mask _ rs rt imm16
theorem addi (rs rt : RegIdx) (imm16 : BitVec 16) : Statement (.addi rs rt imm16) := fun _ => encodeI_mask _ rs rt imm16
theorem slti (rs rt : RegIdx) (imm16 : BitVec 16) : Statement (.slti rs rt imm16) := fun _ => encodeI_mask _ rs rt imm16
theorem andi (rs rt : RegIdx) (imm16 : BitVec 16) : Statement (.andi rs rt imm16) := fun _ => encodeI_mask _ rs rt imm16
theorem ori (rs rt : RegIdx) (imm16 : BitVec 16) : Statement (.ori rs rt imm16) := fun _ => encodeI_mask _ rs rt imm16
theorem lw (rs rt : RegIdx) (imm16 : BitVec 16) : Statement (.lw rs rt imm16) := fun _ => encodeI_mask _ rs rt imm16
theorem sw (rs rt : RegIdx) (imm16 : BitVec 16) : Statement (.sw rs rt imm16) := fun _ => encodeI_mask _ rs rt imm16
theorem halt : Statement .halt := fun haltWord => BitVec.and_allOnes (x := haltWord)

end Sys2Proof.Laws.RowOfTable
end

