-- ==== Sys2Proof/Laws/Tick.lean ====
section
/-! SUPPORT. What each stage evaluation answers: the state the stage's pseudocode gives. Later proofs about a step go through
these and never unfold a meaning. -/

namespace Sys2Proof.Machine

/-! ### The meanings, stage by stage -/

theorem exec_wb (i : Instr) (s : State) (h : s.scratch.stage = .wb) (hi : i ≠ .halt) : exec i s = writeBackSlot s := by
  cases i <;> first | exact absurd rfl hi |
    simp only [exec, execSll, execSrl, execSra, execJr, execAdd, execSub, execAnd, execOr, execNor, execSlt, execJ, execJal,
      execBeq, execBne, execAddi, execSlti, execAndi, execOri, execLw, execSw, byStage, h]

theorem exec_halt_wb (s : State) (h : s.scratch.stage = .wb) : exec .halt s = haltSlot s := by
  simp only [exec, execHalt, byStage, h]

/-- EX of every instruction is its row of the summary table. -/
theorem exec_ex (i : Instr) (s : State) (h : s.scratch.stage = .ex) : exec i s = executeSlot (exRecord i) s := by
  cases i <;>
    simp only [exec, execSll, execSrl, execSra, execJr, execAdd, execSub, execAnd, execOr, execNor, execSlt, execJ, execJal,
      execBeq, execBne, execAddi, execSlti, execAndi, execOri, execLw, execSw, execHalt, byStage, h] <;> rfl

/-- ID of an instruction whose word is in IF_ID: the register and immediate fields are those of the word. -/
theorem exec_id (i : Instr) (s : State) (f : IfId) (h : s.scratch.stage = .id) (hf : s.ifId = .live f)
    (hw : f.word = encode s.haltWord i) :
    exec i s = .next
      ((if i = .halt then (if isControl (.known i) then s.setFetchStall 3 else s).setHaltSeen true
        else if isControl (.known i) then s.setFetchStall 3 else s).putIdEx
          (.live (idRecord (.known i) f s.scratch.xStart))) := by
  cases i <;>
    simp [exec, execSll, execSrl, execSra, execJr, execAdd, execSub, execAnd, execOr, execNor, execSlt, execJ, execJal,
      execBeq, execBne, execAddi, execSlti, execAndi, execOri, execLw, execSw, execHalt, byStage, h, decodeSlot, hf,
      keepFetching, requestStall, noteHalt, isControl, idRecord, decodedRecord, immediateRule, operandsR, operandsI, operandsJ,
      operandsOfWord, jumpTarget, sext16, Config.stallCycles, hw, encode]

/-! ### The stage evaluations -/

theorem wbStage_eq (s : State) : wbStage s = .next (wbRule (s.atStage .wb)) := by
  unfold wbStage wbRule
  cases hm : s.memWb with
  | bubble => simp [hm]
  | live m =>
    cases ho : m.instr.op with
    | known i =>
      by_cases hi : i = .halt
      · subst hi; simp only [execDecoded, ho]; rw [exec_halt_wb _ rfl]; simp [haltSlot, hm, ho]
      · simp only [execDecoded, ho]; rw [exec_wb _ _ rfl hi]; simp [writeBackSlot, hm, ho, hi]
    | unknownOpcode => simp [execDecoded, execUnknownOpcode, byStage, writeBackSlot, hm, ho]
    | unknownFunct => simp [execDecoded, execUnknownFunct, byStage, writeBackSlot, hm, ho]

theorem memStage_eq (s : State) : memStage s = .next (memRule (s.atStage .mem)) := by
  unfold memStage memRule
  cases hm : s.exMem with
  | bubble => simp [hm]
  | live e =>
    cases ho : e.instr.op with
    | known i =>
      cases i <;>
        simp only [execDecoded, exec, execSll, execSrl, execSra, execJr, execAdd, execSub, execAnd, execOr, execNor, execSlt,
          execJ, execJal, execBeq, execBne, execAddi, execSlti, execAndi, execOri, execLw, execSw, execHalt, byStage, passSlot,
          commitSlot, loadSlot, storeSlot, commitPc, commitPcIf, commitPcAndLink, beqTaken, bneTaken, hm, ho,
          State.atStage_scratch_stage, State.atStage_exMem, State.atStage_mem, beq_iff_eq, bne_iff_ne]
      all_goals first | rfl | (split <;> simp_all)
    | unknownOpcode => simp [execDecoded, execUnknownOpcode, byStage, passSlot, commitSlot, hm, ho]
    | unknownFunct => simp [execDecoded, execUnknownFunct, byStage, passSlot, commitSlot, hm, ho]

theorem exStage_eq (s : State) : exStage s = .next (exRule (s.atStage .ex)) := by
  unfold exStage exRule
  cases hd : s.idEx with
  | bubble => simp [hd]
  | live d =>
    cases ho : d.instr.op with
    | known i => simp only [execDecoded, ho]; rw [exec_ex _ _ rfl]; simp [executeSlot, hd, ho]
    | unknownOpcode => simp [execDecoded, execUnknownOpcode, byStage, raiseUnknownSlot, hd, ho]
    | unknownFunct => simp [execDecoded, execUnknownFunct, byStage, raiseUnknownSlot, hd, ho]

theorem idStage_eq (s : State) : idStage s = .next (idRule (s.atStage .id)) := by
  unfold idStage idRule
  cases hf : s.ifId with
  | bubble => simp [hf]
  | live f =>
    cases ho : decode s.haltWord f.word with
    | known i =>
      have hw := encode_of_decode_known _ _ _ ho
      simp only [execDecoded, ho]
      rw [exec_id i _ f rfl (by simpa using hf) (by simpa using hw)]
      simp [hf, ho]
    | unknownOpcode =>
      simp [execDecoded, execUnknownOpcode, byStage, decodeSlot, hf, ho, isControl, keepFetching, decodedRecord, idRecord,
        operandsOfWord, immediateRule, sext16]
    | unknownFunct =>
      simp [execDecoded, execUnknownFunct, byStage, decodeSlot, hf, ho, isControl, keepFetching, decodedRecord, idRecord,
        operandsOfWord, immediateRule, sext16]

theorem ifStage_eq (s : State) : ifStage s = .next (ifRule s) := by
  unfold ifStage ifRule State.frozen
  by_cases hh : s.haltSeen = true <;> by_cases hs : s.fetchStall = 0 <;> simp [hh, hs]
  cases s.mem.readWord s.pc <;> rfl

/-! ### The stage under evaluation is not read by the pseudocode -/

@[simp] theorem wbRule_atStage (s : State) (st : Stage) : wbRule (s.atStage st) = (wbRule s).atStage st := by
  unfold wbRule; rw [State.atStage_memWb]; repeat' split
  all_goals rfl

@[simp] theorem memRule_atStage (s : State) (st : Stage) : memRule (s.atStage st) = (memRule s).atStage st := by
  unfold memRule; rw [State.atStage_exMem, State.atStage_mem]; repeat' split
  all_goals rfl

@[simp] theorem exRule_atStage (s : State) (st : Stage) : exRule (s.atStage st) = (exRule s).atStage st := by
  unfold exRule; rw [State.atStage_idEx]; repeat' split
  all_goals rfl

@[simp] theorem idRule_atStage (s : State) (st : Stage) : idRule (s.atStage st) = (idRule s).atStage st := by
  unfold idRule; rw [State.atStage_ifId, State.atStage_haltWord]; split
  · rfl
  · dsimp only
    split
    · split <;> rfl
    · split <;> rfl

@[simp] theorem ifRule_atStage (s : State) (st : Stage) : ifRule (s.atStage st) = (ifRule s).atStage st := by
  unfold ifRule
  rw [State.atStage_haltSeen, State.atStage_fetchStall, State.atStage_mem, State.atStage_pc]
  split
  · split <;> rfl
  · cases s.mem.readWord s.pc <;> rfl

/-! ### The driver -/

theorem andThen_next (s : State) (stage : State → Result) (rule : State → State) (st st' : Stage)
    (h : ∀ t, stage t = .next ((rule t).atStage st')) (hr : ∀ t st, rule (t.atStage st) = (rule t).atStage st) :
    ∃ st'', andThen (.next (s.atStage st)) stage = .next ((unlessEnded s rule).atStage st'') := by
  unfold andThen unlessEnded
  by_cases hs : s.run = .running
  · exact ⟨st', by simp [hs, h, hr]; rfl⟩
  · exact ⟨st, by simp [hs]⟩

theorem endTick_next (s : State) (st : Stage) : endTick (.next (s.atStage st)) = .next (closeTick s) := by
  unfold endTick closeTick
  by_cases hs : s.run = .running <;> simp [hs] <;> rfl

end Sys2Proof.Machine
end

