-- ==== Sys2Proof/Laws/Rules.lean ====
section
/-! SUPPORT. What a tick of the pseudocode can do, said once: it runs to its end with every field named, or WB, MEM, EX or IF
ends it with every field named. Proofs about a step cite `tickRule_cases` and never unfold a stage. -/

namespace Sys2Proof.Machine

/-! ### The latches a tick primes -/

def nextIdEx (s : State) : Latch IdEx :=
  match s.ifId with
  | .bubble => .bubble
  | .live f => .live (idRecord (decode s.haltWord f.word) f s.x)

def nextExMem (s : State) : Latch ExMem :=
  match s.idEx with
  | .bubble => .bubble
  | .live d =>
    match d.instr.op with
    | .known i => .live (exRecord i d)
    | _ => .bubble

def nextMemWb (s : State) : Latch MemWb :=
  match s.exMem with
  | .bubble => .bubble
  | .live e =>
    match e.instr.op with
    | .known (.lw ..) => memWbRecord e (s.mem.wordAt e.aluOut.toNat)
    | _ => memWbRecord e e.aluOut

/-! ### The stall controller -/

def controlIn (s : State) : Bool :=
  match s.ifId with
  | .bubble => false
  | .live f => isControl (decode s.haltWord f.word)

def haltIn (s : State) : Bool :=
  match s.ifId with
  | .bubble => false
  | .live f => decide (f.word = s.haltWord)

theorem controlIn_iff (s : State) : controlIn s = true ↔ controlInId s := by
  unfold controlIn controlInId
  cases s.ifId <;> simp

theorem haltIn_iff (s : State) : haltIn s = true ↔ haltInId s := by
  unfold haltIn haltInId
  cases s.ifId <;> simp

/-- The stall count and `halt_seen` after ID of the tick. -/
def stallAfterId (s : State) : Fin 4 := if controlIn s then 3 else s.fetchStall
def haltAfterId (s : State) : Bool := s.haltSeen || haltIn s

def frozenIn (s : State) : Bool := haltAfterId s || decide (stallAfterId s ≠ 0)

theorem frozenIn_iff (s : State) : frozenIn s = true ↔ fetchFrozen s := by
  simp only [frozenIn, haltAfterId, stallAfterId, fetchFrozen, Bool.or_eq_true, haltIn_iff, or_assoc,
    ← controlIn_iff]
  by_cases hc : controlIn s = true <;> simp [hc]

/-! ### The stages of the tick, one after another -/

/-- The state after WB of the tick. -/
def afterWb (s : State) : State := { s.beginTick with x := regsAfterWb s }

/-- The state after MEM of the tick: what the tick has committed when EX begins. -/
def afterMem (s : State) : State := { s with x := regsAfterMem s, mem := memAfterMem s, pc := pcAfterMem s }

theorem decode_eq_halt_iff (haltWord w : Word) : decode haltWord w = .known .halt ↔ w = haltWord := by
  constructor
  · intro h; exact encode_of_decode_known _ _ _ h
  · rintro rfl; exact decode_haltWord _

theorem wbRule_goesOn (s : State) (h : wbGoesOn s) : wbRule s.beginTick = afterWb s := by
  rcases s with ⟨x, hi, lo, pc, mem, ifId, idEx, exMem, _ | m, fs, hs, run, hw, sc⟩
  · rfl
  · have h1 : m.instr.op ≠ .known .halt := h m rfl
    simp only [wbRule, afterWb, regsAfterWb, State.beginTick, State.setScratch, ne_eq, h1, not_false_eq_true, true_and]
    by_cases hr : m.regWrite = true
    · simp only [hr, if_true]; rfl
    · simp only [hr, if_false, Bool.false_eq_true]

theorem wbRule_halt (s : State) (m : MemWb) (hm : s.memWb = .live m) (h : m.instr.op = .known .halt) :
    wbRule s.beginTick = { s.beginTick with run := .halted } := by
  rcases s with ⟨x, hi, lo, pc, mem, ifId, idEx, exMem, memWb, fs, hs, run, hw, sc⟩
  obtain rfl : memWb = .live m := hm
  exact if_pos h

theorem writeWord_inBounds (m : Memory) (a v : Word) (h : a.toNat ≤ 0xFFFFC) :
    m.writeWord a v = some (m.setWordAt a.toNat v) := by
  unfold Memory.writeWord
  rw [if_pos]; rw [inBounds_iff]; unfold Config.memSize; omega

theorem readWord_inBounds (m : Memory) (a : Word) (h : a.toNat ≤ 0xFFFFC) : m.readWord a = some (m.wordAt a.toNat) := by
  refine Memory.readWord_eq m a ?_
  rw [inBounds_iff]; unfold Config.memSize; omega

theorem inBounds_false (a : Word) (h : 0xFFFFC < a.toNat) : inBounds a = false := by
  unfold inBounds Config.memSize
  rw [decide_eq_false_iff_not]; omega

theorem memRule_goesOn (s : State) (h : memGoesOn s) :
    memRule (afterWb s) = (afterMem s).setScratch
      { Scratch.idle with xStart := s.x, memWbNext := nextMemWb s } := by
  rcases s with ⟨x, hi, lo, pc, mem, ifId, idEx, _ | e, memWb, fs, hs, run, hw, sc⟩
  · rfl
  · cases ho : e.instr.op with
    | known i =>
      cases i with
      | lw rs rt imm16 =>
        have hb := h e rfl rs rt imm16 (.inl ho)
        simp only [memRule, afterWb, afterMem, nextMemWb, regsAfterMem, memAfterMem, pcAfterMem, ho, State.beginTick, State.setScratch,
          readWord_inBounds _ _ hb]; rfl
      | sw rs rt imm16 =>
        have hb := h e rfl rs rt imm16 (.inr ho)
        simp only [memRule, afterWb, afterMem, nextMemWb, regsAfterMem, memAfterMem, pcAfterMem, ho, State.beginTick, State.setScratch,
          writeWord_inBounds _ _ _ hb]; rfl
      | _ =>
        simp only [memRule, afterWb, afterMem, nextMemWb, regsAfterMem, memAfterMem, pcAfterMem, ho, State.beginTick, State.setScratch]
        first | rfl | (split <;> rfl)
    | _ =>
      simp only [memRule, afterWb, afterMem, nextMemWb, regsAfterMem, memAfterMem, pcAfterMem, ho, State.beginTick, State.setScratch]
      rfl

theorem memRule_out (s : State) (e : ExMem) (he : s.exMem = .live e) (rs rt : RegIdx) (imm16 : BitVec 16)
    (ho : e.instr.op = .known (.lw rs rt imm16) ∨ e.instr.op = .known (.sw rs rt imm16)) (hb : 0xFFFFC < e.aluOut.toNat) :
    memRule (afterWb s) = { afterWb s with run := dataFault e } := by
  have hf := inBounds_false _ hb
  rcases s with ⟨x, hi, lo, pc, mem, ifId, idEx, exMem, memWb, fs, hs, run, hw, sc⟩
  obtain rfl : exMem = .live e := he
  rcases ho with ho | ho <;>
    simp only [memRule, afterWb, ho, State.beginTick, State.setScratch, Memory.readWord_out _ _ hf, Memory.writeWord_out _ _ _ hf] <;> rfl

theorem exRule_goesOn (s : State) (c : Scratch) (h : exGoesOn s) :
    exRule ((afterMem s).setScratch c) = (afterMem s).setScratch { c with exMemNext := nextExMem s } := by
  rcases s with ⟨x, hi, lo, pc, mem, ifId, _ | d, exMem, memWb, fs, hs, run, hw, sc⟩
  · rfl
  · have h1 := h d rfl
    cases ho : d.instr.op with
    | known i => simp only [exRule, afterMem, nextExMem, ho, State.setScratch]; rfl
    | unknownOpcode => exact absurd ho h1.1
    | unknownFunct => exact absurd ho h1.2

theorem exRule_unknown (s : State) (c : Scratch) (d : IdEx) (hd : s.idEx = .live d) (kind : FaultKind)
    (h : d.instr.op = .unknownOpcode ∧ kind = .unknownOpcode ∨ d.instr.op = .unknownFunct ∧ kind = .unknownFunct) :
    exRule ((afterMem s).setScratch c) = { (afterMem s).setScratch c with run := wordFault kind d } := by
  rcases s with ⟨x, hi, lo, pc, mem, ifId, idEx, exMem, memWb, fs, hs, run, hw, sc⟩
  obtain rfl : idEx = .live d := hd
  rcases h with ⟨ho, rfl⟩ | ⟨ho, rfl⟩ <;> simp only [exRule, afterMem, ho, State.setScratch] <;> rfl

/-- The state after ID of the tick. -/
def afterId (s : State) : State :=
  { afterMem s with fetchStall := stallAfterId s, haltSeen := haltAfterId s }

theorem idRule_eq (s : State) (c : Scratch) (hc : c.xStart = s.x) :
    idRule ((afterMem s).setScratch c) = (afterId s).setScratch { c with idExNext := nextIdEx s } := by
  rcases s with ⟨x, hi, lo, pc, mem, _ | f, idEx, exMem, memWb, fs, hs, run, hw, sc⟩
  · simp only [idRule, afterMem, afterId, nextIdEx, State.setScratch, stallAfterId, haltAfterId, controlIn, haltIn,
      Bool.or_false]; rfl
  · have hx : c.xStart = x := hc
    simp only [idRule, afterMem, afterId, nextIdEx, State.setScratch, stallAfterId, haltAfterId, controlIn, haltIn,
      decode_eq_halt_iff]
    subst hx
    by_cases h2 : f.word = hw
    · rw [if_pos h2, decide_eq_true h2, Bool.or_true]; by_cases h1 : isControl (decode hw f.word) = true <;> simp only [h1, if_true] <;> rfl
    · rw [if_neg h2, decide_eq_false h2, Bool.or_false]; by_cases h1 : isControl (decode hw f.word) = true <;> simp only [h1, if_true] <;> rfl

theorem ifRule_frozen (s : State) (c : Scratch) (h : frozenIn s = true) :
    ifRule ((afterId s).setScratch c) =
      { (afterId s).setScratch { c with ifIdNext := .bubble } with
        fetchStall := if stallAfterId s = 0 then 0 else stallAfterId s - 1 } := by
  have h' : haltAfterId s = true ∨ stallAfterId s ≠ 0 := by simpa [frozenIn] using h
  unfold ifRule
  rw [if_pos (by exact h')]
  by_cases hz : stallAfterId s = 0
  · rw [if_neg (by exact not_not.mpr hz), if_pos hz]; unfold afterId; rw [hz]; rfl
  · rw [if_pos (by exact hz), if_neg hz]; rfl

theorem ifRule_fetch (s : State) (c : Scratch) (h : frozenIn s = false) (w : Word)
    (hw : (memAfterMem s).readWord (pcAfterMem s) = some w) :
    ifRule ((afterId s).setScratch c) =
      { (afterId s).setScratch { c with ifIdNext := .live { word := w, nextPc := pcAfterMem s + 4#32 } } with
        pc := pcAfterMem s + 4#32 } := by
  have h' : ¬ (haltAfterId s = true ∨ stallAfterId s ≠ 0) := by simpa [frozenIn] using h
  unfold ifRule
  rw [if_neg (by exact h'), show ((afterId s).setScratch c).mem.readWord ((afterId s).setScratch c).pc = some w from hw]
  rfl

theorem ifRule_out (s : State) (c : Scratch) (h : frozenIn s = false) (hb : 0xFFFFC < (pcAfterMem s).toNat) :
    ifRule ((afterId s).setScratch c) = { (afterId s).setScratch c with run := fetchFault (pcAfterMem s) } := by
  have h' : ¬ (haltAfterId s = true ∨ stallAfterId s ≠ 0) := by simpa [frozenIn] using h
  unfold ifRule
  rw [if_neg (by exact h'), show ((afterId s).setScratch c).mem.readWord ((afterId s).setScratch c).pc = none from
    Memory.readWord_out _ _ (inBounds_false _ hb)]
  rfl

/-! ### The tick -/

/-- What a tick that runs to its end leaves. -/
def afterTick (s : State) : State :=
  { s with x := regsAfterMem s
           mem := memAfterMem s
           pc := if frozenIn s then pcAfterMem s else pcAfterMem s + 4#32
           ifId := if frozenIn s then .bubble
             else .live { word := (memAfterMem s).wordAt (pcAfterMem s).toNat, nextPc := pcAfterMem s + 4#32 }
           idEx := nextIdEx s
           exMem := nextExMem s
           memWb := nextMemWb s
           fetchStall := if stallAfterId s = 0 then 0 else stallAfterId s - 1
           haltSeen := haltAfterId s
           scratch := Scratch.idle }

theorem unlessEnded_running (s : State) (rule : State → State) (h : s.run = .running) : unlessEnded s rule = rule s := if_pos h
theorem unlessEnded_ended (s : State) (rule : State → State) (h : s.run ≠ .running) : unlessEnded s rule = s := if_neg h

theorem tickRule_wbEnds (s : State) (m : MemWb) (hm : s.memWb = .live m) (h : m.instr.op = .known .halt) :
    tickRule s = { s with run := .halted, scratch := Scratch.idle } := by
  unfold tickRule
  rw [wbRule_halt s m hm h]
  simp only [unlessEnded, closeTick, reduceCtorEq, if_false]
  rfl

theorem tickRule_memEnds (s : State) (hr : s.run = .running) (hw : wbGoesOn s) (e : ExMem) (he : s.exMem = .live e)
    (rs rt : RegIdx) (imm16 : BitVec 16)
    (ho : e.instr.op = .known (.lw rs rt imm16) ∨ e.instr.op = .known (.sw rs rt imm16)) (hb : 0xFFFFC < e.aluOut.toNat) :
    tickRule s = { s with x := regsAfterWb s, run := dataFault e, scratch := Scratch.idle } := by
  unfold tickRule
  rw [wbRule_goesOn s hw, unlessEnded_running (afterWb s) memRule hr, memRule_out s e he rs rt imm16 ho hb]
  simp only [unlessEnded, closeTick, dataFault, reduceCtorEq, if_false]
  rfl

theorem tickRule_exEnds (s : State) (hr : s.run = .running) (hw : wbGoesOn s) (hm : memGoesOn s) (d : IdEx)
    (hd : s.idEx = .live d) (kind : FaultKind)
    (h : d.instr.op = .unknownOpcode ∧ kind = .unknownOpcode ∨ d.instr.op = .unknownFunct ∧ kind = .unknownFunct) :
    tickRule s = { afterMem s with run := wordFault kind d, scratch := Scratch.idle } := by
  unfold tickRule
  rw [wbRule_goesOn s hw, unlessEnded_running (afterWb s) memRule hr, memRule_goesOn s hm, unlessEnded_running ((afterMem s).setScratch _) exRule hr,
    exRule_unknown s _ d hd kind h]
  simp only [unlessEnded, closeTick, wordFault, reduceCtorEq, if_false]
  rfl

theorem tickRule_ifEnds (s : State) (hr : s.run = .running) (hw : wbGoesOn s) (hm : memGoesOn s) (hx : exGoesOn s)
    (hf : frozenIn s = false) (hb : 0xFFFFC < (pcAfterMem s).toNat) :
    tickRule s = { afterId s with run := fetchFault (pcAfterMem s), scratch := Scratch.idle } := by
  unfold tickRule
  rw [wbRule_goesOn s hw, unlessEnded_running (afterWb s) memRule hr, memRule_goesOn s hm, unlessEnded_running ((afterMem s).setScratch _) exRule hr,
    exRule_goesOn s _ hx, unlessEnded_running ((afterMem s).setScratch _) idRule hr, idRule_eq s _ rfl, unlessEnded_running ((afterId s).setScratch _) ifRule hr,
    ifRule_out s _ hf hb]
  simp only [closeTick, fetchFault, reduceCtorEq, if_false]
  rfl

theorem tickRule_goesOn (s : State) (hr : s.run = .running) (hw : wbGoesOn s) (hm : memGoesOn s) (hx : exGoesOn s)
    (hf : frozenIn s = true ∨ (pcAfterMem s).toNat ≤ 0xFFFFC) : tickRule s = afterTick s := by
  unfold tickRule
  rw [wbRule_goesOn s hw, unlessEnded_running (afterWb s) memRule hr, memRule_goesOn s hm, unlessEnded_running ((afterMem s).setScratch _) exRule hr,
    exRule_goesOn s _ hx, unlessEnded_running ((afterMem s).setScratch _) idRule hr, idRule_eq s _ rfl, unlessEnded_running ((afterId s).setScratch _) ifRule hr]
  by_cases hz : frozenIn s = true
  · rw [ifRule_frozen s _ hz, closeTick, if_pos (by exact hr)]
    unfold afterTick; rw [if_pos hz, if_pos hz]; rfl
  · have hb := hf.resolve_left hz
    have hz' : frozenIn s = false := by simpa using hz
    have h0 : stallAfterId s = 0 := by
      have := hz'; unfold frozenIn at this; simp only [Bool.or_eq_false_iff, decide_eq_false_iff_not, not_not] at this
      exact this.2
    rw [ifRule_fetch s _ hz' _ (readWord_inBounds _ _ hb), closeTick, if_pos (by exact hr)]
    unfold afterTick; rw [if_neg hz, if_neg hz, if_pos h0]; unfold afterId; rw [h0]; rfl

/-- Everything a tick of a running machine can do. -/
theorem tickRule_cases (s : State) (hr : s.run = .running) :
    (∃ m, s.memWb = .live m ∧ m.instr.op = .known .halt
      ∧ tickRule s = { s with run := .halted, scratch := Scratch.idle }) ∨
    (wbGoesOn s ∧ ∃ e rs rt imm16, s.exMem = .live e
      ∧ (e.instr.op = .known (.lw rs rt imm16) ∨ e.instr.op = .known (.sw rs rt imm16)) ∧ 0xFFFFC < e.aluOut.toNat
      ∧ tickRule s = { s with x := regsAfterWb s, run := dataFault e, scratch := Scratch.idle }) ∨
    (wbGoesOn s ∧ memGoesOn s ∧ ∃ (d : IdEx) (kind : FaultKind), s.idEx = .live d
      ∧ (d.instr.op = .unknownOpcode ∧ kind = .unknownOpcode ∨ d.instr.op = .unknownFunct ∧ kind = .unknownFunct)
      ∧ tickRule s = { afterMem s with run := wordFault kind d, scratch := Scratch.idle }) ∨
    (wbGoesOn s ∧ memGoesOn s ∧ exGoesOn s ∧ frozenIn s = false ∧ 0xFFFFC < (pcAfterMem s).toNat
      ∧ tickRule s = { afterId s with run := fetchFault (pcAfterMem s), scratch := Scratch.idle }) ∨
    (wbGoesOn s ∧ memGoesOn s ∧ exGoesOn s ∧ (frozenIn s = true ∨ (pcAfterMem s).toNat ≤ 0xFFFFC)
      ∧ tickRule s = afterTick s) := by
  by_cases hw : wbGoesOn s
  swap
  · unfold wbGoesOn at hw; push Not at hw
    obtain ⟨m, h1, h2⟩ := hw
    exact .inl ⟨m, h1, h2, tickRule_wbEnds s m h1 h2⟩
  by_cases hm : memGoesOn s
  swap
  · unfold memGoesOn at hm; push Not at hm
    obtain ⟨e, h1, rs, rt, imm16, h2, h3⟩ := hm
    exact .inr (.inl ⟨hw, e, rs, rt, imm16, h1, h2, h3, tickRule_memEnds s hr hw e h1 rs rt imm16 h2 h3⟩)
  by_cases hx : exGoesOn s
  swap
  · have : ∃ (d : IdEx) (kind : FaultKind), s.idEx = .live d ∧
        (d.instr.op = .unknownOpcode ∧ kind = .unknownOpcode ∨ d.instr.op = .unknownFunct ∧ kind = .unknownFunct) := by
      unfold exGoesOn at hx; push Not at hx
      obtain ⟨d, h1, h2⟩ := hx
      by_cases h3 : d.instr.op = .unknownOpcode
      · exact ⟨d, .unknownOpcode, h1, .inl ⟨h3, rfl⟩⟩
      · exact ⟨d, .unknownFunct, h1, .inr ⟨h2 h3, rfl⟩⟩
    obtain ⟨d, kind, h1, h2⟩ := this
    exact .inr (.inr (.inl ⟨hw, hm, d, kind, h1, h2, tickRule_exEnds s hr hw hm d h1 kind h2⟩))
  by_cases hf : frozenIn s = true ∨ (pcAfterMem s).toNat ≤ 0xFFFFC
  · exact .inr (.inr (.inr (.inr ⟨hw, hm, hx, hf, tickRule_goesOn s hr hw hm hx hf⟩)))
  · push Not at hf
    have hz : frozenIn s = false := by simpa using hf.1
    exact .inr (.inr (.inr (.inl ⟨hw, hm, hx, hz, hf.2, tickRule_ifEnds s hr hw hm hx hz hf.2⟩)))

/-- In the middle of a run some latch is live, so the host's test `betweenRuns` tells the two apart (log 18). -/
theorem midRun_not_betweenRuns (s : State) (hr : s.run = .running) (hs : s.pipelineShape) (ht : (tickRule s).run = .running) :
    (tickRule s).betweenRuns = false := by
  obtain ⟨hstall, hhalt⟩ := hs hr
  rcases tickRule_cases s hr with ⟨m, -, -, he⟩ | ⟨-, e, _, _, _, -, -, -, he⟩ | ⟨-, -, d, kind, -, -, he⟩ | ⟨-, -, -, -, -, he⟩ |
    ⟨hw, -, hx, -, he⟩ <;> rw [he] at ht ⊢
  any_goals cases ht
  unfold State.betweenRuns
  simp only [Bool.or_eq_false_iff, decide_eq_false_iff_not, not_not]
  refine ⟨ht, ?_⟩
  rintro ⟨h1, h2, h3, h4⟩
  have i1 : s.ifId = .bubble := by
    cases hf : s.ifId with
    | bubble => rfl
    | live f => exfalso; change nextIdEx s = _ at h2; unfold nextIdEx at h2; rw [hf] at h2; cases h2
  have i2 : s.idEx = .bubble := by
    cases hd : s.idEx with
    | bubble => rfl
    | live d =>
      exfalso; change nextExMem s = _ at h3; unfold nextExMem at h3; rw [hd] at h3; dsimp only at h3
      obtain ⟨g1, g2⟩ := hx d hd
      cases ho : d.instr.op with
      | known i => rw [ho] at h3; cases h3
      | unknownOpcode => exact g1 ho
      | unknownFunct => exact g2 ho
  have i3 : s.exMem = .bubble := by
    cases hc : s.exMem with
    | bubble => rfl
    | live e =>
      exfalso; change nextMemWb s = _ at h4; unfold nextMemWb at h4; rw [hc] at h4; dsimp only at h4
      split at h4 <;> cases h4
  have hz : frozenIn s = true := by
    by_contra hz
    change (if frozenIn s = true then Latch.bubble else _) = _ at h1
    rw [if_neg hz] at h1; cases h1
  rw [frozenIn_iff] at hz
  rcases hz with hz | ⟨f, hf, -⟩ | hz | ⟨f, hf, -⟩
  · rcases hhalt with ⟨h, -⟩ | ⟨-, -, -, ⟨⟨d, hd, -⟩, -⟩ | ⟨-, ⟨e, he, -⟩, -⟩ | ⟨-, -, m, hm, ho⟩⟩
    · rw [h] at hz; cases hz
    · rw [i2] at hd; cases hd
    · rw [i3] at he; cases he
    · exact hw m hm ho
  · rw [i1] at hf; cases hf
  · rcases hstall with ⟨-, -, ⟨d, hd, -⟩, -⟩ | ⟨-, -, -, ⟨e, he, -⟩, -⟩ | ⟨h, -⟩
    · rw [i2] at hd; cases hd
    · rw [i3] at he; cases he
    · exact hz h
  · rw [i1] at hf; cases hf

end Sys2Proof.Machine
end

