-- ==== Sys2Proof/Tests/Slice0.lean ====
section
/-! SUPPORT. Tests. Every expected value is the spec's: the words are written out bit by bit from the encodings of 30 R51 and
R56 (opcode, rs, rt, rd, shamt, funct; opcode, rs, rt, imm16; opcode, target26), the results are those of the vectors of 95.
After them, one witness for every obligation that has hypotheses. -/

namespace Sys2Proof.Tests

open Sys2Proof Sys2Proof.Machine

/-! ### WellFormed -/

/-- With `HALT_WORD` = 0 the no-op's word is taken, and the encoded word decodes to halt: the check refuses it. -/
theorem test_illformed_nop : (Instr.sll 0#5 0#5 0#5 0#5).wellFormed 0x00000000#32 = false := by decide

/-- The same for a word of each other format. -/
theorem test_illformed_addi : (Instr.addi 0#5 1#5 7#16).wellFormed 0x20010007#32 = false := by decide
theorem test_illformed_j : (Instr.j 0x404#26).wellFormed 0x08000404#32 = false := by decide

theorem test_wellformed_nop : (Instr.sll 0#5 0#5 0#5 0#5).wellFormed 0xFFFFFFFF#32 = true := by decide
theorem test_wellformed_halt : Instr.halt.wellFormed 0x00000000#32 = true := by decide

/-! ### Decode: one word of every constructor, bit by bit -/

/-- The halt word of the vectors of 95. -/
def hw : Word := 0xFFFFFFFF#32

theorem test_decode_sll : decode hw (0b000000#6 ++ 0b00000#5 ++ 0b00001#5 ++ 0b00010#5 ++ 0b00100#5 ++ 0b000000#6) = .known (.sll 0#5 1#5 2#5 4#5) := by decide
theorem test_decode_srl : decode hw (0b000000#6 ++ 0b00000#5 ++ 0b00001#5 ++ 0b00010#5 ++ 0b11111#5 ++ 0b000010#6) = .known (.srl 0#5 1#5 2#5 31#5) := by decide
theorem test_decode_sra : decode hw (0b000000#6 ++ 0b00000#5 ++ 0b01010#5 ++ 0b01000#5 ++ 0b00010#5 ++ 0b000011#6) = .known (.sra 0#5 10#5 8#5 2#5) := by decide
theorem test_decode_jr : decode hw (0b000000#6 ++ 0b11111#5 ++ 0b00000#5 ++ 0b00000#5 ++ 0b00000#5 ++ 0b001000#6) = .known (.jr 31#5 0#5 0#5 0#5) := by decide
theorem test_decode_add : decode hw (0b000000#6 ++ 0b01001#5 ++ 0b01010#5 ++ 0b01000#5 ++ 0b00000#5 ++ 0b100000#6) = .known (.add 9#5 10#5 8#5 0#5) := by decide
theorem test_decode_sub : decode hw (0b000000#6 ++ 0b00001#5 ++ 0b00010#5 ++ 0b00011#5 ++ 0b00000#5 ++ 0b100010#6) = .known (.sub 1#5 2#5 3#5 0#5) := by decide
theorem test_decode_and : decode hw (0b000000#6 ++ 0b00001#5 ++ 0b00010#5 ++ 0b00011#5 ++ 0b00000#5 ++ 0b100100#6) = .known (.and 1#5 2#5 3#5 0#5) := by decide
theorem test_decode_or : decode hw (0b000000#6 ++ 0b00001#5 ++ 0b00010#5 ++ 0b00011#5 ++ 0b00000#5 ++ 0b100101#6) = .known (.or 1#5 2#5 3#5 0#5) := by decide
theorem test_decode_nor : decode hw (0b000000#6 ++ 0b00001#5 ++ 0b00010#5 ++ 0b00011#5 ++ 0b00000#5 ++ 0b100111#6) = .known (.nor 1#5 2#5 3#5 0#5) := by decide
theorem test_decode_slt : decode hw (0b000000#6 ++ 0b00001#5 ++ 0b00010#5 ++ 0b00011#5 ++ 0b00000#5 ++ 0b101010#6) = .known (.slt 1#5 2#5 3#5 0#5) := by decide
theorem test_decode_j : decode hw (0b000010#6 ++ 0b00000000000000010000001000#26) = .known (.j 0x408#26) := by decide
theorem test_decode_jal : decode hw (0b000011#6 ++ 0b00000000000000010000010000#26) = .known (.jal 0x410#26) := by decide
theorem test_decode_beq : decode hw (0b000100#6 ++ 0b00001#5 ++ 0b00010#5 ++ 0b0000000000000011#16) = .known (.beq 1#5 2#5 3#16) := by decide
theorem test_decode_bne : decode hw (0b000101#6 ++ 0b00001#5 ++ 0b00000#5 ++ 0b1111111111111010#16) = .known (.bne 1#5 0#5 0xFFFA#16) := by decide
theorem test_decode_addi : decode hw (0b001000#6 ++ 0b00010#5 ++ 0b00001#5 ++ 0b1111111111111111#16) = .known (.addi 2#5 1#5 0xFFFF#16) := by decide
theorem test_decode_slti : decode hw (0b001010#6 ++ 0b00010#5 ++ 0b00001#5 ++ 0b0000000000001010#16) = .known (.slti 2#5 1#5 10#16) := by decide
theorem test_decode_andi : decode hw (0b001100#6 ++ 0b00010#5 ++ 0b00001#5 ++ 0b1111111100000000#16) = .known (.andi 2#5 1#5 0xFF00#16) := by decide
theorem test_decode_ori : decode hw (0b001101#6 ++ 0b00000#5 ++ 0b00001#5 ++ 0b1000000000000000#16) = .known (.ori 0#5 1#5 0x8000#16) := by decide
theorem test_decode_lw : decode hw (0b100011#6 ++ 0b11101#5 ++ 0b01000#5 ++ 0b0000000000000100#16) = .known (.lw 29#5 8#5 4#16) := by decide
theorem test_decode_sw : decode hw (0b101011#6 ++ 0b11101#5 ++ 0b11111#5 ++ 0b1111111111111100#16) = .known (.sw 29#5 31#5 0xFFFC#16) := by decide
theorem test_decode_halt : decode hw (0b11111111111111111111111111111111#32) = .known (.halt) := by decide
theorem test_decode_unknown_funct : decode hw (0b000000#6 ++ 0b00001#5 ++ 0b00010#5 ++ 0b00011#5 ++ 0b00000#5 ++ 0b100001#6) = .unknownFunct := by decide
theorem test_decode_unknown_opcode : decode hw (0b011100#6 ++ 0b00000#5 ++ 0b00000#5 ++ 0b00000#5 ++ 0b00000#5 ++ 0b000000#6) = .unknownOpcode := by decide

/-- The comparison with `HALT_WORD` comes first, on the whole word; without it the word has opcode 0x3F. -/
theorem test_halt_word_first : decode 0x012A4020#32 0x012A4020#32 = .known .halt ∧
    decode 0x00000001#32 0xFFFFFFFF#32 = .unknownOpcode := by decide

/-- The bytes in memory are big-endian (30 R50). -/
theorem test_decode_bytes : decodeBytes hw 0x8F#8 0xA8#8 0x00#8 0x04#8 = .known (.lw 29#5 8#5 4#16) := by decide
theorem test_decode_table_word : decodeTableWord 32 0x0C000410 = some (.jal 0x410#26) ∧
    decodeTableWord 32 0x3C011234 = none := by decide

/-! ### Small states, and what to look at -/

/-- The reset state with presets: registers, and words of memory from an address on (the form of 95). -/
def preset (regs : List (RegIdx × Word)) (address : Nat) (words : List Word) : State :=
  { State.reset with
    x := regs.foldl (fun x p => x.write p.1 p.2) Regs.reset
    mem := State.reset.mem.loadWords address words }

/-- ID of the word `w` fetched at 0x1000, with registers preset. -/
def inId (w : Word) (regs : List (RegIdx × Word)) : State :=
  let s := preset regs 0x1000 []
  { s with ifId := .live { word := w, nextPc := 0x1004#32 }, scratch := { Scratch.idle with stage := .id, xStart := s.x } }

/-- What ID leaves in ID_EX for the word `w` at 0x1000 with registers preset: the record, written out. -/
def idExOf (w : Word) (a b imm : Word) (rt rd : RegIdx) : IdEx :=
  { instr := { op := decode hw w, word := w }, nextPc := 0x1004#32, reg1Value := a, reg2Value := b, rtIndex := rt,
    rdIndex := rd, immediate := imm }

def inEx (d : IdEx) : State := { State.reset with idEx := .live d, scratch := { Scratch.idle with stage := .ex } }

/-- EX_MEM with an ALU result or address `v`, a next pc and a store value. -/
def exMemOf (w v nextPc store : Word) (dest : RegIdx) (write : Bool) : ExMem :=
  { instr := { op := decode hw w, word := w }, aluOut := v, nextPc := nextPc, fallthroughPc := 0x1004#32, storeValue := store,
    destIndex := dest, regWrite := write }

def inMem (e : ExMem) (address : Nat) (words : List Word) : State :=
  { preset [] address words with exMem := .live e, scratch := { Scratch.idle with stage := .mem } }

def memWbOf (w v : Word) (dest : RegIdx) (write : Bool) : MemWb :=
  { instr := { op := decode hw w, word := w }, result := v, destIndex := dest, regWrite := write, fallthroughPc := 0x1004#32 }

def inWb (m : MemWb) : State := { State.reset with memWb := .live m }

/-- A property of the next state. -/
def holds (r : Result) (p : State → Bool) : Bool :=
  match r with
  | .next t => p t
  | .fault _ => false
  | .refused _ => false

/-- What EX leaves for the destination: the register, whether it is written, and the value. -/
def exResult (t : State) : Option (RegIdx × Bool × Word) :=
  match t.scratch.exMemNext with
  | .bubble => none
  | .live e => some (e.destIndex, e.regWrite, e.aluOut)

def exTarget (t : State) : Option Word :=
  match t.scratch.exMemNext with
  | .bubble => none
  | .live e => some e.nextPc

def memResult (t : State) : Option Word :=
  match t.scratch.memWbNext with
  | .bubble => none
  | .live m => some m.result

def idImmediate (t : State) : Option Word :=
  match t.scratch.idExNext with
  | .bubble => none
  | .live d => some d.immediate

/-! ### One stage of one instruction (vectors V1 to V63 of 95) -/

/-! V1, V6, V9, V10, V11, V13, V15: the sums wrap, the comparison is signed. -/
theorem test_add_wraps : holds (exec (.add 1#5 2#5 3#5 0#5) (inEx (idExOf 0x00221820#32 0x7FFFFFFF#32 0x00000001#32 0x00001820#32 2#5 3#5)))
    (fun t => exResult t == some (3#5, true, 0x80000000#32)) = true := by decide
theorem test_sub_wraps : holds (exec (.sub 1#5 2#5 3#5 0#5) (inEx (idExOf 0x00221822#32 0x00000000#32 0x00000001#32 0x00001822#32 2#5 3#5)))
    (fun t => exResult t == some (3#5, true, 0xFFFFFFFF#32)) = true := by decide
theorem test_and : holds (exec (.and 1#5 2#5 3#5 0#5) (inEx (idExOf 0x00221824#32 0xF0F0F0F0#32 0x0FF00FF0#32 0x00001824#32 2#5 3#5)))
    (fun t => exResult t == some (3#5, true, 0x00F000F0#32)) = true := by decide
theorem test_or : holds (exec (.or 1#5 2#5 3#5 0#5) (inEx (idExOf 0x00221825#32 0xF0F0F0F0#32 0x0FF00FF0#32 0x00001825#32 2#5 3#5)))
    (fun t => exResult t == some (3#5, true, 0xFFF0FFF0#32)) = true := by decide
theorem test_nor : holds (exec (.nor 1#5 2#5 3#5 0#5) (inEx (idExOf 0x00221827#32 0xF0F0F0F0#32 0x0FF00FF0#32 0x00001827#32 2#5 3#5)))
    (fun t => exResult t == some (3#5, true, 0x000F000F#32)) = true := by decide
theorem test_slt_signed : holds (exec (.slt 1#5 2#5 3#5 0#5) (inEx (idExOf 0x0022182A#32 0xFFFFFFFF#32 0x00000001#32 0x0000182A#32 2#5 3#5)))
    (fun t => exResult t == some (3#5, true, 0x00000001#32)) = true := by decide
theorem test_slt_extremes : holds (exec (.slt 1#5 2#5 3#5 0#5) (inEx (idExOf 0x0022182A#32 0x80000000#32 0x7FFFFFFF#32 0x0000182A#32 2#5 3#5)))
    (fun t => exResult t == some (3#5, true, 0x00000001#32)) = true := by decide
/-! V17, V22, V23, V26: the amount is the field, not a register; `rs` is ignored. -/
theorem test_sll_ignores_rs : holds (exec (.sll 31#5 1#5 2#5 4#5) (inEx (idExOf 0x03E11100#32 0x0000FFFF#32 0x12345678#32 0x00001100#32 1#5 2#5)))
    (fun t => exResult t == some (2#5, true, 0x23456780#32)) = true := by decide
theorem test_srl : holds (exec (.srl 0#5 1#5 2#5 31#5) (inEx (idExOf 0x000117C2#32 0x00000000#32 0x80000000#32 0x000017C2#32 1#5 2#5)))
    (fun t => exResult t == some (2#5, true, 0x00000001#32)) = true := by decide
theorem test_sra : holds (exec (.sra 0#5 1#5 2#5 4#5) (inEx (idExOf 0x00011103#32 0x00000000#32 0x80000000#32 0x00001103#32 1#5 2#5)))
    (fun t => exResult t == some (2#5, true, 0xF8000000#32)) = true := by decide
/-! V27, V33, V36, V40, V42: the immediate of ID is sign-extended, and `rt` is the destination. -/
theorem test_addi : holds (exec (.addi 2#5 1#5 0xFFFF#16) (inEx (idExOf 0x2041FFFF#32 0x00000005#32 0x00000000#32 0xFFFFFFFF#32 1#5 31#5)))
    (fun t => exResult t == some (1#5, true, 0x00000004#32)) = true := by decide
theorem test_andi : holds (exec (.andi 2#5 1#5 0xFF00#16) (inEx (idExOf 0x3041FF00#32 0x12345678#32 0x00000000#32 0xFFFFFF00#32 1#5 31#5)))
    (fun t => exResult t == some (1#5, true, 0x12345600#32)) = true := by decide
theorem test_ori : holds (exec (.ori 0#5 1#5 0x8000#16) (inEx (idExOf 0x34018000#32 0x00000000#32 0x00000000#32 0xFFFF8000#32 1#5 16#5)))
    (fun t => exResult t == some (1#5, true, 0xFFFF8000#32)) = true := by decide
theorem test_slti : holds (exec (.slti 2#5 1#5 0xFFFF#16) (inEx (idExOf 0x2841FFFF#32 0x00000005#32 0x00000000#32 0xFFFFFFFF#32 1#5 31#5)))
    (fun t => exResult t == some (1#5, true, 0x00000000#32)) = true := by decide
theorem test_slti_signed : holds (exec (.slti 2#5 1#5 0x7FFF#16) (inEx (idExOf 0x28417FFF#32 0x80000000#32 0x00000000#32 0x00007FFF#32 1#5 15#5)))
    (fun t => exResult t == some (1#5, true, 0x00000001#32)) = true := by decide
theorem test_ori_immediate : holds (exec (.ori 0#5 1#5 0x8000#16) (inId 0x34018000#32 []))
    (fun t => idImmediate t == some 0xFFFF8000#32) = true := by decide
theorem test_andi_immediate : holds (exec (.andi 2#5 1#5 0xFF00#16) (inId 0x3041FF00#32 []))
    (fun t => idImmediate t == some 0xFFFFFF00#32) = true := by decide
/-! V45, V48: a load needs no alignment; at 0x000FFFFD it is out of bounds. V52, V54: a store likewise, and the bytes beside
it stay. -/
theorem test_lw_unaligned : holds (exec (.lw 8#5 10#5 1#16) (inMem (exMemOf 0x8D0A0001#32 0x2001#32 0x1004#32 0#32 10#5 true)
      0x2000 [0x12345678#32, 0x9ABCDEF0#32]))
    (fun t => memResult t == some 0x3456789A#32) = true := by decide
theorem test_lw_out_of_bounds : holds (exec (.lw 8#5 10#5 1#16)
      (inMem (exMemOf 0x8D0A0001#32 0x000FFFFD#32 0x1004#32 0#32 10#5 true) 0x2000 []))
    (fun t => t.run == .faulted .outOfBoundsAddress
      { pc := 0x1000#32, word := some 0x8D0A0001#32, addr := some 0x000FFFFD#32 }) = true := by decide
theorem test_sw_unaligned : holds (exec (.sw 8#5 9#5 2#16)
      (inMem (exMemOf 0xAD090002#32 0x2002#32 0x1004#32 0x11223344#32 0#5 false) 0x2000 [0xAAAAAAAA#32, 0xBBBBBBBB#32]))
    (fun t => (List.range 8).map (fun k => t.mem.readByte (0x2000 + k)) ==
      [0xAA#8, 0xAA#8, 0x11#8, 0x22#8, 0x33#8, 0x44#8, 0xBB#8, 0xBB#8]) = true := by decide
theorem test_sw_out_of_bounds : holds (exec (.sw 8#5 9#5 0#16)
      (inMem (exMemOf 0xAD090000#32 0x000FFFFD#32 0x1004#32 0xA1B2C3D4#32 0#5 false) 0x2000 []))
    (fun t => t.run == dataFault (exMemOf 0xAD090000#32 0x000FFFFD#32 0x1004#32 0xA1B2C3D4#32 0#5 false)
      && (List.range 4).map (fun k => t.mem.readByte (0xFFFFC + k)) == [0#8, 0#8, 0#8, 0#8]) = true := by decide
/-! V56, V57: the target of a branch and its outcome. V59, V60: the target of a jump, the link. V62: `jr`. -/
theorem test_beq_target : holds (exec (.beq 1#5 2#5 3#16) (inEx (idExOf 0x10220003#32 7#32 7#32 3#32 2#5 0#5)))
    (fun t => exTarget t == some 0x1010#32 && exResult t == some (0#5, false, 0#32)) = true := by decide
theorem test_beq_taken : holds (exec (.beq 1#5 2#5 3#16)
      (inMem (exMemOf 0x10220003#32 0#32 0x1010#32 7#32 0#5 false) 0x2000 [])) (fun t => t.pc == 0x1010#32) = true := by decide
theorem test_bne_target : holds (exec (.bne 1#5 0#5 0xFFFA#16)
      (inEx { idExOf 0x1420FFFA#32 2#32 0#32 0xFFFFFFFA#32 0#5 31#5 with nextPc := 0x102C#32 }))
    (fun t => exTarget t == some 0x1014#32) = true := by decide
theorem test_bne_not_taken : holds (exec (.bne 1#5 0#5 0xFFFA#16)
      (inMem (exMemOf 0x1420FFFA#32 0#32 0x1014#32 0#32 0#5 false) 0x2000 [])) (fun t => t.pc == 0x1000#32) = true := by decide
theorem test_j : holds (exec (.j 0x408#26) (inId 0x08000408#32 []))
    (fun t => idImmediate t == some 0x1020#32 && t.fetchStall == 3) = true := by decide
theorem test_jal : holds (exec (.jal 0x410#26) (inMem (exMemOf 0x0C000410#32 0#32 0x1040#32 0#32 31#5 false) 0x2000 []))
    (fun t => t.pc == 0x1040#32 && t.x.read 31#5 == 0x1004#32) = true := by decide
theorem test_jr_reads_in_id : holds (exec (.jr 31#5 0#5 0#5 0#5) (inId 0x03E00008#32 [(31#5, 0x1008#32)]))
    (fun t => t.scratch.idExNext == .live (idExOf 0x03E00008#32 0x1008#32 0#32 8#32 0#5 0#5) && t.fetchStall == 0)
      = true := by decide
theorem test_jr_writes_pc : holds (exec (.jr 31#5 0#5 0#5 0#5)
      (inMem (exMemOf 0x03E00008#32 0#32 0x1008#32 0#32 0#5 false) 0x2000 [])) (fun t => t.pc == 0x1008#32) = true := by decide
/-! V4, V31, V46: the write to register 0 is discarded. V63: halt. V64, V65: the unknown words. -/
theorem test_register_zero : holds (exec (.add 1#5 2#5 0#5 0#5) (inWb (memWbOf 0x00220020#32 15#32 0#5 true)))
    (fun t => t.x == Regs.reset) = true := by decide
theorem test_halt_in_id : holds (exec .halt (inId 0xFFFFFFFF#32 [])) (fun t => t.haltSeen && t.run == .running) = true := by
  decide
theorem test_halt_in_wb : holds (exec .halt (inWb (memWbOf 0xFFFFFFFF#32 0#32 0#5 false))) (fun t => t.run == .halted)
    = true := by decide
theorem test_unknown_opcode : holds (exStage (inEx (idExOf 0x70000000#32 0#32 0#32 0#32 0#5 0#5)))
    (fun t => t.run == .faulted .unknownOpcode { pc := 0x1000#32, word := some 0x70000000#32, addr := none }) = true := by
  decide
theorem test_unknown_funct : holds (exStage (inEx (idExOf 0x00221821#32 0#32 0#32 0#32 2#5 3#5)))
    (fun t => t.run == .faulted .unknownFunct { pc := 0x1000#32, word := some 0x00221821#32, addr := none }) = true := by
  decide

/-! ### One step -/

/-- `withFetchWord`: the very next step runs the instruction (`addi x1, x0, 7`: its ID), and fetches the word after it. -/
theorem test_withFetchWord : holds (step (State.reset.withFetchWord 32 0x20010007))
    (fun t => t.idEx == .live { instr := { op := .known (.addi 0#5 1#5 7#16), word := 0x20010007#32 }, nextPc := 0x1004#32,
                                reg1Value := 0#32, reg2Value := 0#32, rtIndex := 1#5, rdIndex := 0#5, immediate := 7#32 }
      && t.ifId == .live { word := 0#32, nextPc := 0x1008#32 } && t.mem.readWord 0x1000#32 == some 0x20010007#32) = true := by
  decide

/-- Out-of-bounds `pc`: `withFetchWord` goes to the entry address. -/
theorem test_withFetchWord_out :
    { State.reset with pc := 0x00100000#32 }.withFetchWord 32 0x20010007 = State.reset.withFetchWord 32 0x20010007 := by
  decide

/-- 70 R166, 60 R144: the word before the malformed line is stored and counted. -/
theorem test_load_malformed : (match hostLoad 0x1000 [.word 0x2041FFFF#32, .malformed, .word 1#32] State.reset with
    | .next (r, t) => r == { count := 1, malformed := true } && t.mem.cells ==
        [(0x1000, 0x20#8), (0x1001, 0x41#8), (0x1002, 0xFF#8), (0x1003, 0xFF#8)]
    | _ => false) = true := by decide

/-- 10 R24: no tick after the end of a run. -/
theorem test_no_tick_when_halted : (match step { State.reset with run := .halted } with
    | .fault f => f == .tickWhenHalted | _ => false) = true := by decide

/-! ### Witnesses: for every obligation that has hypotheses, a concrete state and operands that meet them together -/

def after (n : Nat) (s : State) : State :=
  match runTicks n s with
  | .next t => t
  | .fault _ => s
  | .refused _ => s

theorem step_after (s : State) (h : holds (step s) (fun _ => true) = true) : step s = .next (after 1 s) := by
  unfold after runTicks
  cases hs : step s with
  | next t => rfl
  | fault f => rw [hs] at h; cases h
  | refused r => rw [hs] at h; cases h

/-- Reset with a program at the entry. -/
def prog (words : List Word) : State := preset [] 0x1000 words

/-- `addi x1, x0, 1` in WB, `addi x2, x0, 2` in MEM, `addi x3, x0, 3` in EX, `addi x4, x0, 4` in ID. -/
def full : State :=
  { State.reset with
    pc := 0x1010#32
    ifId := .live { word := 0x20040004#32, nextPc := 0x1010#32 }
    idEx := .live (idExOf 0x20030003#32 0#32 0#32 3#32 3#5 0#5)
    exMem := .live (exMemOf 0x20020002#32 2#32 0x1008#32 0#32 2#5 true)
    memWb := .live (memWbOf 0x20010001#32 1#32 1#5 true) }

/-- A word in IF_ID, the rest of the pipeline empty. -/
def fetched (w : Word) : State := { State.reset with pc := 0x1004#32, ifId := .live { word := w, nextPc := 0x1004#32 } }

/-- `beq x0, x0, 3` in ID_EX two ticks after its fetch. -/
def branching : State :=
  { State.reset with
    pc := 0x1004#32, fetchStall := 2, idEx := .live (idExOf 0x10000003#32 0#32 0#32 3#32 0#5 0#5) }

/-- The halt instruction in MEM_WB, its run about to end. -/
def halting : State :=
  { State.reset with pc := 0x1004#32, haltSeen := true, memWb := .live (memWbOf hw 0#32 0#5 false) }

/-- `lw x10, 1(x8)` in EX_MEM with the address 0x000FFFFD. -/
def loadingOut : State :=
  { State.reset with exMem := .live (exMemOf 0x8D0A0001#32 0x000FFFFD#32 0x1004#32 0#32 10#5 true) }

def unknownInEx (w : Word) : State := { State.reset with idEx := .live (idExOf w 0#32 0#32 0#32 0#5 0#5) }

theorem wbGoesOn_of_bubble (s : State) (h : s.memWb = .bubble) : wbGoesOn s := by
  intro m hm; rw [h] at hm; cases hm
theorem memGoesOn_of_bubble (s : State) (h : s.exMem = .bubble) : memGoesOn s := by
  intro e he; rw [h] at he; cases he
theorem exGoesOn_of_bubble (s : State) (h : s.idEx = .bubble) : exGoesOn s := by
  intro d hd; rw [h] at hd; cases hd

/-- Fetch is not frozen, in terms that compute. -/
theorem not_frozen (s : State) (h1 : s.haltSeen = false) (h2 : s.fetchStall = 0)
    (h3 : (match s.ifId with
      | .bubble => true
      | .live f => decide (f.word ≠ s.haltWord) && !(isControl (decode s.haltWord f.word))) = true) : ¬ fetchFrozen s := by
  rintro (h | ⟨f, hf, h⟩ | h | ⟨f, hf, h⟩)
  · rw [h1] at h; cases h
  · rw [hf] at h3; simp [h] at h3
  · exact h h2
  · rw [hf] at h3; simp [h] at h3

/-- An empty pipeline has every shape. -/
theorem shape_of_empty (s : State) (h1 : s.idEx = .bubble) (h2 : s.exMem = .bubble) (h3 : s.memWb = .bubble)
    (h4 : s.fetchStall = 0) (h5 : s.haltSeen = false) : s.pipelineShape := by
  intro _
  have n1 : ¬ controlInEx s := by rintro ⟨d, h, _⟩; rw [h1] at h; cases h
  have n2 : ¬ controlInMem s := by rintro ⟨d, h, _⟩; rw [h2] at h; cases h
  have n3 : ¬ controlInWb s := by rintro ⟨d, h, _⟩; rw [h3] at h; cases h
  have m1 : ¬ haltInEx s := by rintro ⟨d, h, _⟩; rw [h1] at h; cases h
  have m2 : ¬ haltInMem s := by rintro ⟨d, h, _⟩; rw [h2] at h; cases h
  have m3 : ¬ haltInWbSlot s := by rintro ⟨d, h, _⟩; rw [h3] at h; cases h
  exact ⟨.inr (.inr ⟨h4, n1, n2, fun h => absurd h n3⟩), .inl ⟨h5, m1, m2, m3⟩⟩

theorem halting_shape : halting.pipelineShape := by
  intro _
  have n1 : ¬ controlInEx halting := by rintro ⟨d, h, _⟩; cases h
  have n2 : ¬ controlInMem halting := by rintro ⟨d, h, _⟩; cases h
  have n3 : ¬ controlInWb halting := by rintro ⟨m, h, hc⟩; cases h; exact absurd hc (by decide)
  exact ⟨.inr (.inr ⟨rfl, n1, n2, fun h => absurd h n3⟩),
    .inr ⟨rfl, rfl, rfl, .inr (.inr ⟨rfl, rfl, _, rfl, by decide⟩)⟩⟩

theorem branching_shape : branching.pipelineShape := by
  intro _
  have n2 : ¬ controlInMem branching := by rintro ⟨d, h, _⟩; cases h
  have n3 : ¬ controlInWb branching := by rintro ⟨d, h, _⟩; cases h
  have m1 : ¬ haltInEx branching := by rintro ⟨d, h, hc⟩; cases h; exact absurd hc (by decide)
  have m2 : ¬ haltInMem branching := by rintro ⟨d, h, _⟩; cases h
  have m3 : ¬ haltInWbSlot branching := by rintro ⟨d, h, _⟩; cases h
  exact ⟨.inl ⟨rfl, rfl, ⟨_, rfl, by decide⟩, n2, n3⟩, .inl ⟨rfl, m1, m2, m3⟩⟩

/-! Encoding -/

theorem witness_DecodeInvertsEncode : (Instr.jr 31#5 31#5 31#5 31#5).wellFormed hw = true ∧
    (Instr.sw 31#5 31#5 0xFFFF#16).wellFormed hw = true ∧ (Instr.jal 0x3FFFFFF#26).wellFormed hw = true := by decide

theorem witness_DecodeFollowsOpcodeTable : ([0x00000000#32, 0x00000002#32, 0x00000003#32, 0x00000008#32, 0x00000020#32,
    0x00000022#32, 0x00000024#32, 0x00000025#32, 0x00000027#32, 0x0000002A#32, 0x08000000#32, 0x0C000000#32, 0x10000000#32,
    0x14000000#32, 0x20000000#32, 0x28000000#32, 0x30000000#32, 0x34000000#32, 0x8C000000#32, 0xAC000000#32,
    0x03FFFFC0#32, 0x0BFFFFFF#32, 0xAFFFFFFF#32] : List Word).all (fun w => w != hw) = true := by decide

/-! Memory: the highest address in bounds, and the lowest one out of bounds -/

theorem witness_MemReadIsBigEndianAndBounded : (0x000FFFFC#32).toNat ≤ 0x000FFFFC ∧ 0x000FFFFC < (0x000FFFFD#32).toNat := by
  decide

theorem witness_MemWriteIsBigEndianAndBounded : State.reset.mem.wf = true ∧ (0x000FFFFC#32).toNat ≤ 0x000FFFFC ∧
    0x000FFFFC < (0x000FFFFD#32).toNat := by decide

/-- A read 3 bytes above the write, one 3 bytes below it, and one that does not touch it. -/
theorem witness_OverlappingReadSeesTheWrittenBytes : State.reset.mem.wf = true ∧
    State.reset.mem.writeWord 0x000FFFF9#32 0x11223344#32 = some (State.reset.mem.setWordAt 0x000FFFF9 0x11223344#32) ∧
    ((0x000FFFFC#32).toNat ≤ 0x000FFFFC ∧ 3 < 4 ∧ (0x000FFFFC#32).toNat = (0x000FFFF9#32).toNat + 3) ∧
    ((0x000FFFF6#32).toNat ≤ 0x000FFFFC ∧ 3 < 4 ∧ (0x000FFFF9#32).toNat = (0x000FFFF6#32).toNat + 3) ∧
    (0#32).toNat ≤ 0x000FFFFC := by decide

def oneByte : Memory := { seed := [0xAB#8], cells := [(0x000FFFFF, 1#8)] }

theorem witness_CanonicalMemoryIsExtensional : oneByte.wf = true ∧ oneByte.seed = oneByte.seed ∧
    ∀ a, oneByte.readByte a = oneByte.readByte a := ⟨by decide, rfl, fun _ => rfl⟩

/-! Registers and reset -/

theorem witness_RegisterZeroStaysZero : (31#5 : RegIdx) ≠ 0#5 ∧ full.x.read 0#5 = 0#32 ∧ step full = .next (after 1 full) :=
  ⟨by decide, by decide, step_after _ (by decide)⟩

theorem witness_ResetStateIsTheTable : ([0xAB#8] : List Byte).length ≤ 0x1000 ∧ (List.replicate 0x1000 0xAB#8).length ≤ 0x1000 ∧
    1 ≤ 1 ∧ ([0xAB#8] : List Byte)[0]? = some 0xAB#8 := ⟨by decide, by rw [List.length_replicate], le_rfl, rfl⟩

theorem witness_ResetMeetsTheInvariants : (List.replicate 0x1000 0xAB#8).length ≤ 0x1000 := by rw [List.length_replicate]

/-! The meanings -/

theorem witness_AluRegisterByStage :
    (∃ (s : State) (d : IdEx), s.scratch.stage = .ex ∧ s.idEx = .live d) ∧ (∃ (s : State) (e : ExMem), s.scratch.stage = .mem ∧ s.exMem = .live e) ∧
    (∃ (s : State) (m : MemWb), s.scratch.stage = .wb ∧ s.memWb = .live m ∧ m.regWrite = true) :=
  ⟨⟨inEx (idExOf 0x00221820#32 7#32 8#32 0x1820#32 2#5 3#5), _, rfl, rfl⟩,
    ⟨inMem (exMemOf 0x00221820#32 15#32 0x1004#32 8#32 3#5 true) 0x2000 [], _, rfl, rfl⟩,
    ⟨inWb (memWbOf 0x00221820#32 15#32 3#5 true), _, rfl, rfl, rfl⟩⟩

theorem witness_ShiftsByStage :
    (∃ (s : State) (d : IdEx), s.scratch.stage = .ex ∧ s.idEx = .live d) ∧ (∃ (s : State) (e : ExMem), s.scratch.stage = .mem ∧ s.exMem = .live e) ∧
    (∃ (s : State) (m : MemWb), s.scratch.stage = .wb ∧ s.memWb = .live m ∧ m.regWrite = true) :=
  ⟨⟨inEx (idExOf 0x000117C3#32 0#32 0x80000000#32 0x17C3#32 1#5 2#5), _, rfl, rfl⟩,
    ⟨inMem (exMemOf 0x000117C3#32 0xFFFFFFFF#32 0x1004#32 0x80000000#32 2#5 true) 0x2000 [], _, rfl, rfl⟩,
    ⟨inWb (memWbOf 0x000117C3#32 0xFFFFFFFF#32 2#5 true), _, rfl, rfl, rfl⟩⟩

theorem witness_AluImmediateByStage :
    (∃ (s : State) (f : IfId), s.scratch.stage = .id ∧ s.ifId = .live f) ∧
    (∃ (s : State) (d : IdEx), s.scratch.stage = .ex ∧ s.idEx = .live d) ∧ (∃ (s : State) (e : ExMem), s.scratch.stage = .mem ∧ s.exMem = .live e) ∧
    (∃ (s : State) (m : MemWb), s.scratch.stage = .wb ∧ s.memWb = .live m ∧ m.regWrite = true) :=
  ⟨⟨inId 0x2041FFFF#32 [(2#5, 5#32)], _, rfl, rfl⟩,
    ⟨inEx (idExOf 0x2041FFFF#32 5#32 0#32 0xFFFFFFFF#32 1#5 31#5), _, rfl, rfl⟩,
    ⟨inMem (exMemOf 0x2041FFFF#32 4#32 0x1004#32 0#32 1#5 true) 0x2000 [], _, rfl, rfl⟩,
    ⟨inWb (memWbOf 0x2041FFFF#32 4#32 1#5 true), _, rfl, rfl, rfl⟩⟩

theorem witness_LoadWordByStage :
    (∃ (s : State) (d : IdEx), s.scratch.stage = .ex ∧ s.idEx = .live d) ∧
    (∃ (s : State) (e : ExMem), s.scratch.stage = .mem ∧ s.exMem = .live e ∧ e.aluOut.toNat ≤ 0x000FFFFC) ∧
    (∃ (s : State) (e : ExMem), s.scratch.stage = .mem ∧ s.exMem = .live e ∧ 0x000FFFFC < e.aluOut.toNat) ∧
    (∃ (s : State) (m : MemWb), s.scratch.stage = .wb ∧ s.memWb = .live m ∧ m.regWrite = true) :=
  ⟨⟨inEx (idExOf 0x8D0A0001#32 0x2000#32 0#32 1#32 10#5 0#5), _, rfl, rfl⟩,
    ⟨inMem (exMemOf 0x8D0A0000#32 0x000FFFFC#32 0x1004#32 0#32 10#5 true) 0x2000 [], _, rfl, rfl, by decide⟩,
    ⟨inMem (exMemOf 0x8D0A0001#32 0x000FFFFD#32 0x1004#32 0#32 10#5 true) 0x2000 [], _, rfl, rfl, by decide⟩,
    ⟨inWb (memWbOf 0x8D0A0000#32 4#32 10#5 true), _, rfl, rfl, rfl⟩⟩

theorem witness_StoreWordByStage :
    (∃ (s : State) (d : IdEx), s.scratch.stage = .ex ∧ s.idEx = .live d) ∧
    (∃ (s : State) (e : ExMem), s.scratch.stage = .mem ∧ s.exMem = .live e ∧ e.aluOut.toNat ≤ 0x000FFFFC ∧ s.mem.wf = true) ∧
    (∃ (s : State) (e : ExMem), s.scratch.stage = .mem ∧ s.exMem = .live e ∧ 0x000FFFFC < e.aluOut.toNat) ∧
    (∃ (s : State) (m : MemWb), s.scratch.stage = .wb ∧ s.memWb = .live m ∧ m.regWrite = false) :=
  ⟨⟨inEx (idExOf 0xAD090000#32 0x2000#32 7#32 0#32 9#5 0#5), _, rfl, rfl⟩,
    ⟨inMem (exMemOf 0xAD090000#32 0x000FFFFC#32 0x1004#32 7#32 0#5 false) 0x2000 [], _, rfl, rfl, by decide, by decide⟩,
    ⟨inMem (exMemOf 0xAD090000#32 0x000FFFFD#32 0x1004#32 7#32 0#5 false) 0x2000 [], _, rfl, rfl, by decide⟩,
    ⟨inWb (memWbOf 0xAD090000#32 0x2000#32 0#5 false), _, rfl, rfl, rfl⟩⟩

theorem witness_BranchesByStage :
    (∃ (s : State) (f : IfId), s.scratch.stage = .id ∧ s.ifId = .live f) ∧ (∃ (s : State) (d : IdEx), s.scratch.stage = .ex ∧ s.idEx = .live d) ∧
    (∃ (s : State) (e : ExMem), s.scratch.stage = .mem ∧ s.exMem = .live e ∧ e.aluOut = 0#32) ∧
    (∃ (s : State) (e : ExMem), s.scratch.stage = .mem ∧ s.exMem = .live e ∧ e.aluOut ≠ 0#32) ∧
    (∃ (s : State) (m : MemWb), s.scratch.stage = .wb ∧ s.memWb = .live m ∧ m.regWrite = false) :=
  ⟨⟨inId 0x10220003#32 [], _, rfl, rfl⟩, ⟨inEx (idExOf 0x10220003#32 7#32 7#32 3#32 2#5 0#5), _, rfl, rfl⟩,
    ⟨inMem (exMemOf 0x10220003#32 0#32 0x1010#32 7#32 0#5 false) 0x2000 [], _, rfl, rfl, rfl⟩,
    ⟨inMem (exMemOf 0x10220003#32 1#32 0x1010#32 7#32 0#5 false) 0x2000 [], _, rfl, rfl, by decide⟩,
    ⟨inWb (memWbOf 0x10220003#32 0#32 0#5 false), _, rfl, rfl, rfl⟩⟩

theorem witness_JumpsByStage :
    (∃ (s : State) (f : IfId), s.scratch.stage = .id ∧ s.ifId = .live f) ∧ (∃ (s : State) (d : IdEx), s.scratch.stage = .ex ∧ s.idEx = .live d) ∧
    (∃ (s : State) (e : ExMem), s.scratch.stage = .mem ∧ s.exMem = .live e) ∧
    (∃ (s : State) (m : MemWb), s.scratch.stage = .wb ∧ s.memWb = .live m ∧ m.regWrite = false) :=
  ⟨⟨inId 0x0C000410#32 [], _, rfl, rfl⟩, ⟨inEx (idExOf 0x0C000410#32 0#32 0#32 0x1040#32 0#5 0#5), _, rfl, rfl⟩,
    ⟨inMem (exMemOf 0x0C000410#32 0#32 0x1040#32 0#32 31#5 false) 0x2000 [], _, rfl, rfl⟩,
    ⟨inWb (memWbOf 0x0C000410#32 0#32 31#5 false), _, rfl, rfl, rfl⟩⟩

theorem witness_JumpRegisterByStage :
    (∃ (s : State) (f : IfId), s.scratch.stage = .id ∧ s.ifId = .live f) ∧ (∃ (s : State) (d : IdEx), s.scratch.stage = .ex ∧ s.idEx = .live d) ∧
    (∃ (s : State) (e : ExMem), s.scratch.stage = .mem ∧ s.exMem = .live e) ∧
    (∃ (s : State) (m : MemWb), s.scratch.stage = .wb ∧ s.memWb = .live m ∧ m.regWrite = false) :=
  ⟨⟨inId 0x03E00008#32 [(31#5, 0x1008#32)], _, rfl, rfl⟩,
    ⟨inEx (idExOf 0x03E00008#32 0x1008#32 0#32 8#32 0#5 0#5), _, rfl, rfl⟩,
    ⟨inMem (exMemOf 0x03E00008#32 0#32 0x1008#32 0#32 0#5 false) 0x2000 [], _, rfl, rfl⟩,
    ⟨inWb (memWbOf 0x03E00008#32 0#32 0#5 false), _, rfl, rfl, rfl⟩⟩

theorem witness_HaltByStage :
    (∃ (s : State) (f : IfId), s.scratch.stage = .id ∧ s.ifId = .live f) ∧ (∃ (s : State) (d : IdEx), s.scratch.stage = .ex ∧ s.idEx = .live d) ∧
    (∃ (s : State) (e : ExMem), s.scratch.stage = .mem ∧ s.exMem = .live e) ∧ (∃ (s : State) (m : MemWb), s.scratch.stage = .wb ∧ s.memWb = .live m) :=
  ⟨⟨inId hw [], _, rfl, rfl⟩, ⟨inEx (idExOf hw 0#32 0#32 0xFFFFFFFF#32 31#5 31#5), _, rfl, rfl⟩,
    ⟨inMem (exMemOf hw 0#32 0x1004#32 0#32 0#5 false) 0x2000 [], _, rfl, rfl⟩,
    ⟨inWb (memWbOf hw 0#32 0#5 false), _, rfl, rfl⟩⟩

theorem witness_IdOfEveryInstruction :
    (∀ w, (inId w []).scratch.stage = .id ∧ (inId w []).ifId = .live { word := w, nextPc := 0x1004#32 } ∧
      (inId w []).haltWord = hw) ∧
    [0x00221820#32, 0x10220003#32, 0x08000404#32, 0x0C000410#32, hw].all (fun w => (decode hw w).toOption.isSome) = true :=
  ⟨fun _ => ⟨rfl, rfl, rfl⟩, by decide⟩

theorem witness_UnusedFieldsAreIgnored : (inEx (idExOf 0x00221820#32 7#32 8#32 0x1820#32 2#5 3#5)).scratch.stage ≠ .id := by
  decide

/-! One tick -/

theorem witness_StepIsTheTickPseudocode : full.run = .running := rfl

theorem witness_StepRunsTheDecodedInstructions : full.run = .running ∧
    full.memWb = .live (memWbOf 0x20010001#32 1#32 1#5 true) ∧
    (memWbOf 0x20010001#32 1#32 1#5 true).instr.op = .known (.addi 0#5 1#5 1#16) ∧
    full.exMem = .live (exMemOf 0x20020002#32 2#32 0x1008#32 0#32 2#5 true) ∧
    (exMemOf 0x20020002#32 2#32 0x1008#32 0#32 2#5 true).instr.op = .known (.addi 0#5 2#5 2#16) ∧
    full.idEx = .live (idExOf 0x20030003#32 0#32 0#32 3#32 3#5 0#5) ∧
    (idExOf 0x20030003#32 0#32 0#32 3#32 3#5 0#5).instr.op = .known (.addi 0#5 3#5 3#16) ∧
    full.ifId = .live { word := 0x20040004#32, nextPc := 0x1010#32 } ∧
    decode full.haltWord 0x20040004#32 = .known (.addi 0#5 4#5 4#16) := by decide

theorem witness_FirstTickFetchesAtPc : State.reset.ready ∧ State.reset.mem.readWord State.reset.pc = some 0#32 :=
  ⟨⟨rfl, rfl, rfl, rfl, rfl, rfl, rfl⟩, by decide⟩

/-- The three kinds of tick: fetching, frozen by the control instruction in ID, frozen by the count. -/
theorem witness_FetchOfEveryTick :
    (full.run = .running ∧ step full = .next (after 1 full) ∧ (after 1 full).run = .running ∧ ¬ fetchFrozen full) ∧
    ((fetched 0x10000003#32).run = .running ∧ step (fetched 0x10000003#32) = .next (after 1 (fetched 0x10000003#32)) ∧
      (after 1 (fetched 0x10000003#32)).run = .running ∧ fetchFrozen (fetched 0x10000003#32) ∧
      controlInId (fetched 0x10000003#32)) ∧
    (branching.run = .running ∧ step branching = .next (after 1 branching) ∧ (after 1 branching).run = .running ∧
      fetchFrozen branching ∧ ¬ controlInId branching) := by
  have hc : controlInId (fetched 0x10000003#32) := ⟨_, rfl, by decide⟩
  refine ⟨⟨rfl, step_after _ (by decide), by decide, not_frozen _ rfl rfl (by decide)⟩,
    ⟨rfl, step_after _ (by decide), by decide, .inr (.inr (.inr hc)), hc⟩,
    ⟨rfl, step_after _ (by decide), by decide, .inr (.inr (.inl (by decide))), ?_⟩⟩
  rintro ⟨f, hf, _⟩; cases hf

theorem witness_BubbleCommitsNothing : State.reset.memWb = .bubble ∧ State.reset.exMem = .bubble ∧
    State.reset.idEx = .bubble ∧ State.reset.ifId = .bubble := ⟨rfl, rfl, rfl, rfl⟩

theorem witness_InstructionsAdvanceOneStage : full.run = .running ∧ step full = .next (after 1 full) ∧
    (after 1 full).run = .running ∧ (∃ f, full.ifId = .live f) ∧ (∃ d, full.idEx = .live d) ∧
    (∃ e, full.exMem = .live e) ∧ State.reset.run = .running ∧ step State.reset = .next (after 1 State.reset) ∧
    (after 1 State.reset).run = .running ∧ State.reset.ifId = .bubble ∧ State.reset.idEx = .bubble ∧
    State.reset.exMem = .bubble :=
  ⟨rfl, step_after _ (by decide), by decide, ⟨_, rfl⟩, ⟨_, rfl⟩, ⟨_, rfl⟩, rfl, step_after _ (by decide), by decide, rfl, rfl,
    rfl⟩

theorem witness_RegistersAreReadAsOfTickStart : full.run = .running ∧ step full = .next (after 1 full) ∧
    (after 1 full).run = .running ∧ full.ifId = .live { word := 0x20040004#32, nextPc := 0x1010#32 } :=
  ⟨rfl, step_after _ (by decide), by decide, rfl⟩

/-- Each of the four control words, and a word that is none of them. -/
theorem witness_StallRequestedByControlOnly :
    (∀ w, (fetched w).run = .running ∧ (fetched w).haltSeen = false ∧ (fetched w).fetchStall = 0 ∧
      (fetched w).ifId = .live { word := w, nextPc := 0x1004#32 } ∧ (fetched w).haltWord = hw) ∧
    [0x08000404#32, 0x0C000410#32, 0x10000003#32, 0x14000003#32, 0x20040004#32].all (fun w =>
      w != hw && holds (step (fetched w)) (fun t => t.run == .running)) = true :=
  ⟨fun _ => ⟨rfl, rfl, rfl, rfl, rfl⟩, by decide⟩

theorem witness_OnlyStoresWriteMemory : step full = .next (after 1 full) := step_after _ (by decide)

theorem witness_OnlyWbAndJalWriteRegisters : step full = .next (after 1 full) ∧ (after 1 full).run = .running ∧
    (after 1 full).x.read 1#5 ≠ full.x.read 1#5 := ⟨step_after _ (by decide), by decide, by decide⟩

/-- `addi x8, x0, 5` in WB; `add x3, x8, x0` in IF_ID, and again at `pc`. -/
def writingBack : State :=
  { prog [0x01001820#32] with
    ifId := .live { word := 0x01001820#32, nextPc := 0x1000#32 }
    memWb := .live (memWbOf 0x20080005#32 5#32 8#5 true) }

theorem witness_WriteBackIsReadableFromTheNextTick : writingBack.run = .running ∧
    step writingBack = .next (after 1 writingBack) ∧ (after 1 writingBack).run = .running ∧
    step (after 1 writingBack) = .next (after 1 (after 1 writingBack)) ∧ (after 1 (after 1 writingBack)).run = .running ∧
    writingBack.memWb = .live (memWbOf 0x20080005#32 5#32 8#5 true) ∧
    (memWbOf 0x20080005#32 5#32 8#5 true).instr.op ≠ .known .halt ∧ (8#5 : RegIdx) ≠ 0#5 ∧
    writingBack.exMem = .bubble ∧ writingBack.ifId = .live { word := 0x01001820#32, nextPc := 0x1000#32 } ∧
    Word.rs 0x01001820#32 = 8#5 ∧ (after 1 writingBack).ifId = .live { word := 0x01001820#32, nextPc := 0x1004#32 } :=
  ⟨rfl, step_after _ (by decide), by decide, step_after _ (by decide), by decide, rfl, by decide, by decide, rfl, rfl,
    by decide, by decide⟩

/-- `sw` to the address the same tick fetches from. -/
def storingAtPc : State :=
  { State.reset with exMem := .live (exMemOf 0xAD090000#32 0x1000#32 0x1004#32 0x20010007#32 0#5 false) }

theorem witness_StoreIsFetchedInItsMemTick : storingAtPc.run = .running ∧ storingAtPc.mem.wf = true ∧
    storingAtPc.exMem = .live (exMemOf 0xAD090000#32 0x1000#32 0x1004#32 0x20010007#32 0#5 false) ∧
    (exMemOf 0xAD090000#32 0x1000#32 0x1004#32 0x20010007#32 0#5 false).instr.op = .known (.sw 8#5 9#5 0#16) ∧
    (exMemOf 0xAD090000#32 0x1000#32 0x1004#32 0x20010007#32 0#5 false).aluOut = storingAtPc.pc ∧ ¬ fetchFrozen storingAtPc ∧
    step storingAtPc = .next (after 1 storingAtPc) ∧ (after 1 storingAtPc).run = .running :=
  ⟨rfl, by decide, rfl, by decide, by decide, not_frozen _ rfl rfl (by decide), step_after _ (by decide), by decide⟩

theorem witness_HaltInWbEndsTheTick : halting.run = .running ∧ halting.memWb = .live (memWbOf hw 0#32 0#5 false) ∧
    (memWbOf hw 0#32 0#5 false).instr.op = .known .halt := by decide

theorem witness_DataAccessOutOfBoundsEndsTheRun : loadingOut.run = .running ∧ wbGoesOn loadingOut ∧
    loadingOut.exMem = .live (exMemOf 0x8D0A0001#32 0x000FFFFD#32 0x1004#32 0#32 10#5 true) ∧
    (exMemOf 0x8D0A0001#32 0x000FFFFD#32 0x1004#32 0#32 10#5 true).instr.op = .known (.lw 8#5 10#5 1#16) ∧
    0x000FFFFC < (0x000FFFFD#32 : Word).toNat :=
  ⟨rfl, wbGoesOn_of_bubble _ rfl, rfl, by decide, by decide⟩

theorem witness_UnknownWordEndsTheRunInEx :
    (∀ w, (unknownInEx w).run = .running ∧ wbGoesOn (unknownInEx w) ∧ memGoesOn (unknownInEx w) ∧
      (unknownInEx w).idEx = .live (idExOf w 0#32 0#32 0#32 0#5 0#5)) ∧
    (idExOf 0x70000000#32 0#32 0#32 0#32 0#5 0#5).instr.op = .unknownOpcode ∧
    (idExOf 0x00221821#32 0#32 0#32 0#32 0#5 0#5).instr.op = .unknownFunct :=
  ⟨fun _ => ⟨rfl, wbGoesOn_of_bubble _ rfl, memGoesOn_of_bubble _ rfl, rfl⟩, by decide, by decide⟩

theorem witness_UnknownEncodingsAreTheRest : ∀ op ∈ [Decoded.unknownFunct, Decoded.unknownOpcode], ∃ (s : State) (d : IdEx),
    s.run = .running ∧ wbGoesOn s ∧ memGoesOn s ∧ s.idEx = .live d ∧ d.instr.op = op := by
  have h := witness_UnknownWordEndsTheRunInEx
  simp only [List.mem_cons, List.not_mem_nil, or_false, forall_eq_or_imp, forall_eq]
  obtain ⟨h1, h2, h3⟩ := h
  obtain ⟨a, b, c, d⟩ := h1 0x00221821#32
  obtain ⟨a', b', c', d'⟩ := h1 0x70000000#32
  exact ⟨⟨_, _, a, b, c, d, h3⟩, ⟨_, _, a', b', c', d', h2⟩⟩

/-- The machine about to fetch at the first address out of bounds. -/
def fetchingOut : State := { State.reset with pc := 0x000FFFFD#32 }

theorem witness_FetchOutOfBoundsEndsTheRun : fetchingOut.run = .running ∧ wbGoesOn fetchingOut ∧ memGoesOn fetchingOut ∧
    exGoesOn fetchingOut ∧ ¬ fetchFrozen fetchingOut ∧ 0x000FFFFC < (pcAfterMem fetchingOut).toNat :=
  ⟨rfl, wbGoesOn_of_bubble _ rfl, memGoesOn_of_bubble _ rfl, exGoesOn_of_bubble _ rfl, not_frozen _ rfl rfl (by decide),
    by decide⟩

theorem witness_TickGoesOnUnlessAStageEndsIt :
    (State.reset.run = .running ∧ wbGoesOn State.reset ∧ memGoesOn State.reset ∧ exGoesOn State.reset ∧
      (pcAfterMem State.reset).toNat ≤ 0x000FFFFC) ∧
    (fetchFrozen { State.reset with pc := 0x00100000#32, fetchStall := 1 }) :=
  ⟨⟨rfl, wbGoesOn_of_bubble _ rfl, memGoesOn_of_bubble _ rfl, exGoesOn_of_bubble _ rfl, by decide⟩,
    .inr (.inr (.inl (by decide)))⟩

theorem witness_TicksExactlyWhenRunning : State.reset.run = .running ∧ { State.reset with run := .halted }.run = .halted ∧
    { State.reset with run := fetchFault 0x00100000#32 }.run = fetchFault 0x00100000#32 := ⟨rfl, rfl, rfl⟩

theorem witness_EndedTickKeepsTheLatches :
    (step halting = .next (after 1 halting) ∧ (after 1 halting).run ≠ .running) ∧
    (step loadingOut = .next (after 1 loadingOut) ∧ (after 1 loadingOut).run ≠ .running) :=
  ⟨⟨step_after _ (by decide), by decide⟩, ⟨step_after _ (by decide), by decide⟩⟩

theorem witness_HiLoAndParametersNeverChange : step full = .next (after 1 full) := step_after _ (by decide)

/-! Invariants -/

theorem witness_MemoryStaysCanonical : storingAtPc.mem.wf = true ∧ step storingAtPc = .next (after 1 storingAtPc) :=
  ⟨by decide, step_after _ (by decide)⟩

theorem witness_LatchesStayCoherent : full.latchesCoherent ∧ step full = .next (after 1 full) := by
  refine ⟨⟨fun d hd => ?_, fun e he => ?_, fun m hm => ?_⟩, step_after _ (by decide)⟩
  · cases hd; exact ⟨rfl, by decide, by decide, by decide⟩
  · cases he; exact ⟨.addi 0#5 2#5 2#16, by decide, by decide, rfl, rfl⟩
  · cases hm; exact ⟨.addi 0#5 1#5 1#16, by decide, by decide, rfl, rfl⟩

theorem witness_PipelineKeepsItsShape :
    (branching.pipelineShape ∧ step branching = .next (after 1 branching) ∧ (after 1 branching).run = .running) ∧
    (halting.pipelineShape ∧ step halting = .next (after 1 halting)) :=
  ⟨⟨branching_shape, step_after _ (by decide), by decide⟩, ⟨halting_shape, step_after _ (by decide)⟩⟩

theorem witness_HaltedPipelineIsEmpty : halting.pipelineShape ∧ step halting = .next (after 1 halting) ∧
    (after 1 halting).run = .halted := ⟨halting_shape, step_after _ (by decide), by decide⟩

/-! Runs -/

/-- `k` ticks after a word is in IF_ID. -/
def fromId (w : Word) (k : Nat) : State := after k (fetched w)

theorem witness_ControlFreezesFetchForThreeTicks : (fetched 0x10000003#32).run = .running ∧
    (fetched 0x10000003#32).pipelineShape ∧ (fetched 0x10000003#32).ifId = .live { word := 0x10000003#32, nextPc := 0x1004#32 } ∧
    isControl (decode (fetched 0x10000003#32).haltWord 0x10000003#32) = true ∧
    holds (runTicks 4 (fetched 0x10000003#32)) (fun t => t.run == .running) = true :=
  ⟨rfl, shape_of_empty _ rfl rfl rfl rfl rfl, rfl, by decide, by decide⟩

/-- `jr x31` with the address 0x2000 in `x31`. -/
def jumping (k : Nat) : State := after k { fetched 0x03E00008#32 with x := Regs.reset.write 31#5 0x2000#32 }

theorem witness_JumpRegisterHasAShadowOfTwo : (jumping 0).run = .running ∧ (jumping 0).pc = 0x1004#32 ∧
    (jumping 0).ifId = .live { word := 0x03E00008#32, nextPc := 0x1004#32 } ∧
    decode (jumping 0).haltWord 0x03E00008#32 = .known (.jr 31#5 0#5 0#5 0#5) ∧
    ¬ fetchFrozen (jumping 0) ∧ ¬ fetchFrozen (jumping 1) ∧ ¬ fetchFrozen (jumping 2) ∧
    pcAfterMem (jumping 0) = (jumping 0).pc ∧ pcAfterMem (jumping 1) = (jumping 1).pc ∧
    holds (runTicks 3 (jumping 0)) (fun t => t.run == .running) = true ∧
    (memAfterMem (jumping 0)).readWord 0x1004#32 = some 0#32 ∧ (memAfterMem (jumping 1)).readWord 0x1008#32 = some 0#32 ∧
    (memAfterMem (jumping 2)).readWord ((jumping 0).x.read 31#5) = some 0#32 :=
  ⟨rfl, by decide, by decide, by decide, not_frozen _ (by decide) (by decide) (by decide),
    not_frozen _ (by decide) (by decide) (by decide), not_frozen _ (by decide) (by decide) (by decide), by decide, by decide,
    by decide, by decide, by decide, by decide⟩

theorem witness_HaltDrainsThePipeline : (fetched hw).run = .running ∧ (fetched hw).pipelineShape ∧
    (fetched hw).ifId = .live { word := hw, nextPc := 0x1004#32 } ∧ hw = (fetched hw).haltWord ∧
    holds (runTicks 3 (fetched hw)) (fun t => t.run == .running) = true :=
  ⟨rfl, shape_of_empty _ rfl rfl rfl rfl rfl, rfl, rfl, by decide⟩

theorem prog_ready (words : List Word) : (prog words).ready := ⟨rfl, rfl, rfl, rfl, rfl, rfl, rfl⟩

/-- V28: `addi x1, x2, 1`. -/
theorem witness_AluInstructionRun : (prog [0x20410001#32, hw]).ready ∧
    aluEffect (prog [0x20410001#32, hw]).x (.addi 2#5 1#5 1#16) = some (1#5, 1#32) ∧
    (Instr.addi 2#5 1#5 1#16).wellFormed (prog [0x20410001#32, hw]).haltWord = true ∧
    (prog [0x20410001#32, hw]).mem.holdsWords (prog [0x20410001#32, hw]).pc
      [encode (prog [0x20410001#32, hw]).haltWord (.addi 2#5 1#5 1#16), (prog [0x20410001#32, hw]).haltWord] :=
  ⟨prog_ready _, by decide, by decide, by decide, by decide, trivial⟩

/-- `lw x10, 0x1000(x0)`: loads its own word. -/
theorem witness_LoadInstructionRun : (prog [0x8C0A1000#32, hw]).ready ∧
    (Instr.lw 0#5 10#5 0x1000#16).wellFormed (prog [0x8C0A1000#32, hw]).haltWord = true ∧
    (prog [0x8C0A1000#32, hw]).mem.holdsWords (prog [0x8C0A1000#32, hw]).pc
      [encode (prog [0x8C0A1000#32, hw]).haltWord (.lw 0#5 10#5 0x1000#16), (prog [0x8C0A1000#32, hw]).haltWord] ∧
    (prog [0x8C0A1000#32, hw]).mem.readWord
      ((prog [0x8C0A1000#32, hw]).x.read 0#5 + (0x1000#16 : BitVec 16).signExtend 32) = some 0x8C0A1000#32 :=
  ⟨prog_ready _, by decide, ⟨by decide, by decide, trivial⟩, by decide⟩

/-- `sw x29, 0x2000(x0)`. -/
theorem witness_StoreInstructionRun : (prog [0xAC1D2000#32, hw]).ready ∧
    (Instr.sw 0#5 29#5 0x2000#16).wellFormed (prog [0xAC1D2000#32, hw]).haltWord = true ∧
    (prog [0xAC1D2000#32, hw]).mem.holdsWords (prog [0xAC1D2000#32, hw]).pc
      [encode (prog [0xAC1D2000#32, hw]).haltWord (.sw 0#5 29#5 0x2000#16), (prog [0xAC1D2000#32, hw]).haltWord] ∧
    (prog [0xAC1D2000#32, hw]).mem.writeWord
        ((prog [0xAC1D2000#32, hw]).x.read 0#5 + (0x2000#16 : BitVec 16).signExtend 32) ((prog [0xAC1D2000#32, hw]).x.read 29#5)
      = some ((prog [0xAC1D2000#32, hw]).mem.setWordAt 0x2000 0x00008000#32) :=
  ⟨prog_ready _, by decide, ⟨by decide, by decide, trivial⟩, by decide⟩

/-- P8 and V60, the halt word at the target. -/
theorem witness_JumpInstructionRun :
    ((prog [0x08000401#32, hw]).ready ∧ (prog [0x08000401#32, hw]).mem.readWord 0x1004#32 = some hw ∧
      (Instr.j 0x401#26).wellFormed hw = true ∧
      (prog [0x08000401#32, hw]).mem.readWord 0x1000#32 = some (encode hw (.j 0x401#26))) ∧
    ((prog [0x0C000401#32, hw]).ready ∧ (prog [0x0C000401#32, hw]).mem.readWord 0x1004#32 = some hw ∧
      (Instr.jal 0x401#26).wellFormed hw = true ∧
      (prog [0x0C000401#32, hw]).mem.readWord 0x1000#32 = some (encode hw (.jal 0x401#26))) :=
  ⟨⟨prog_ready _, by decide, by decide, by decide⟩, ⟨prog_ready _, by decide, by decide, by decide⟩⟩

/-- `beq x0, x0, 1` and `bne x0, x29, 1` are taken, to 0x1008; `bne x0, x0, 1` and `beq x0, x29, 1` are not, to 0x1004. -/
theorem witness_BranchInstructionRun :
    ((prog [0x10000001#32, 0#32, hw]).ready ∧ (Instr.beq 0#5 0#5 1#16).wellFormed hw = true ∧
      (prog [0x10000001#32, 0#32, hw]).mem.readWord 0x1000#32 = some (encode hw (.beq 0#5 0#5 1#16)) ∧
      (prog [0x10000001#32, 0#32, hw]).mem.readWord (0x1000#32 + 4#32 + ((1#16 : BitVec 16).signExtend 32 <<< 2)) = some hw) ∧
    ((prog [0x14000001#32, hw]).ready ∧ (Instr.bne 0#5 0#5 1#16).wellFormed hw = true ∧
      (prog [0x14000001#32, hw]).mem.readWord 0x1000#32 = some (encode hw (.bne 0#5 0#5 1#16)) ∧
      (prog [0x14000001#32, hw]).mem.readWord (0x1000#32 + 4#32) = some hw) ∧
    ((prog [0x101D0001#32, hw]).ready ∧ (Instr.beq 0#5 29#5 1#16).wellFormed hw = true ∧
      (prog [0x101D0001#32, hw]).x.read 0#5 ≠ (prog [0x101D0001#32, hw]).x.read 29#5 ∧
      (prog [0x101D0001#32, hw]).mem.readWord 0x1000#32 = some (encode hw (.beq 0#5 29#5 1#16)) ∧
      (prog [0x101D0001#32, hw]).mem.readWord (0x1000#32 + 4#32) = some hw) ∧
    ((prog [0x141D0001#32, 0#32, hw]).ready ∧ (Instr.bne 0#5 29#5 1#16).wellFormed hw = true ∧
      (prog [0x141D0001#32, 0#32, hw]).x.read 0#5 ≠ (prog [0x141D0001#32, 0#32, hw]).x.read 29#5 ∧
      (prog [0x141D0001#32, 0#32, hw]).mem.readWord 0x1000#32 = some (encode hw (.bne 0#5 29#5 1#16)) ∧
      (prog [0x141D0001#32, 0#32, hw]).mem.readWord (0x1000#32 + 4#32 + ((1#16 : BitVec 16).signExtend 32 <<< 2)) = some hw) :=
  ⟨⟨prog_ready _, by decide, by decide, by decide⟩, ⟨prog_ready _, by decide, by decide, by decide⟩,
    ⟨prog_ready _, by decide, by decide, by decide, by decide⟩, ⟨prog_ready _, by decide, by decide, by decide, by decide⟩⟩

/-- `jr x29` with 0x8000 in `x29` and the halt word there. -/
def jumpToStack : State := { prog [0x03A00008#32] with mem := (prog [0x03A00008#32]).mem.loadWords 0x8000 [hw] }

theorem witness_JumpRegisterInstructionRun : jumpToStack.ready ∧ jumpToStack.haltWord ≠ 0#32 ∧
    (Instr.jr 29#5 0#5 0#5 0#5).wellFormed jumpToStack.haltWord = true ∧
    jumpToStack.mem.holdsWords jumpToStack.pc [encode jumpToStack.haltWord (.jr 29#5 0#5 0#5 0#5), 0#32, 0#32] ∧
    jumpToStack.mem.readWord (jumpToStack.x.read 29#5) = some jumpToStack.haltWord :=
  ⟨⟨rfl, rfl, rfl, rfl, rfl, rfl, rfl⟩, by decide, by decide, ⟨by decide, by decide, by decide, trivial⟩, by decide⟩

/-- P5: `addi x1, x0, 5`, no-ops, `addi x2, x1, 1`, at the distances 2 (stale) and 3 (fresh). -/
theorem witness_ReadAfterWriteDistance :
    (Instr.addi 0#5 1#5 5#16).wellFormed hw = true ∧ (Instr.addi 1#5 2#5 1#16).wellFormed hw = true ∧ hw ≠ 0#32 ∧
    ((prog [0x20010005#32, 0#32, 0#32, 0x20220001#32, hw]).ready ∧
      (prog [0x20010005#32, 0#32, 0#32, 0x20220001#32, hw]).mem.holdsWords 0x1000#32
        [encode hw (.addi 0#5 1#5 5#16), 0#32, 0#32, encode hw (.addi 1#5 2#5 1#16), hw] ∧
      aluEffect Regs.reset (.addi 0#5 1#5 5#16) = some (1#5, 5#32) ∧
      aluEffect Regs.reset (.addi 1#5 2#5 1#16) = some (2#5, 1#32)) ∧
    ((prog [0x20010005#32, 0#32, 0#32, 0#32, 0x20220001#32, hw]).ready ∧
      (prog [0x20010005#32, 0#32, 0#32, 0#32, 0x20220001#32, hw]).mem.holdsWords 0x1000#32
        [encode hw (.addi 0#5 1#5 5#16), 0#32, 0#32, 0#32, encode hw (.addi 1#5 2#5 1#16), hw] ∧
      aluEffect (Regs.reset.write 1#5 5#32) (.addi 1#5 2#5 1#16) = some (2#5, 6#32)) :=
  ⟨by decide, by decide, by decide,
    ⟨prog_ready _, ⟨by decide, by decide, by decide, by decide, by decide, trivial⟩, by decide, by decide⟩,
    ⟨prog_ready _, ⟨by decide, by decide, by decide, by decide, by decide, by decide, trivial⟩, by decide⟩⟩

theorem witness_RunOverZeroMemoryEndsAtTheTop : hw ≠ 0#32 ∧ (List.replicate 0x1000 0xAB#8).length ≤ 0x1000 :=
  ⟨by decide, by rw [List.length_replicate]⟩

theorem witness_LoadStoresTheProgram : State.reset.betweenRuns = true ∧ State.reset.mem.wf = true ∧
    (∃ rest, [ProgramLine.malformed, .word 1#32] = .malformed :: rest) ∧ 0x000FFFFC + 4 * [hw].length ≤ 0x100000 ∧
    [hw][0]? = some hw ∧ 0x100000 < 0x000FFFFD + 4 * [hw].length ∧ 0x100000 < 0x000FFFFD + 4 :=
  ⟨by decide, by decide, ⟨_, rfl⟩, by decide, rfl, by decide, by decide⟩

/-- V63: the halt word alone, five ticks; four of them end nothing, and the first leaves the machine in the middle of the
run. -/
theorem witness_HostRunTicksUntilStopped : ((prog [hw]).betweenRuns = true ∧ (prog [hw]).run = .running ∧
      holds (runTicks 4 (prog [hw])) (fun t => t.run == .running && holds (step t) (fun u => u.run == .halted)) = true ∧
      (hostRunWithin 5 (prog [hw])).isSome = true ∧ (hostRunWithin 4 (prog [hw])).isSome = false) ∧
    { State.reset with run := .halted }.run ≠ .running ∧
    ((prog [hw]).pipelineShape ∧ step (prog [hw]) = .next (after 1 (prog [hw])) ∧ (after 1 (prog [hw])).run = .running) :=
  ⟨⟨by decide, rfl, by decide, by decide, by decide⟩, by decide, shape_of_empty _ rfl rfl rfl rfl rfl, step_after _ (by decide), by decide⟩

end Sys2Proof.Tests
end

section
/-! PROOFS. The state (spec 10): a bubble commits nothing (R27), a step is the tick of the pseudocode (40 R70), and register 0
stays zero (R11). -/

namespace Sys2Proof.Machine

variable {s t : State}

/-! ### A stage whose input latch is a bubble (10 R27, 40 R89) -/

theorem wbStage_of_bubble (h : s.memWb = .bubble) : wbStage s = .next (s.atStage .wb) := by
  simp only [wbStage, h]

theorem memStage_of_bubble (h : s.exMem = .bubble) : memStage s = .next ((s.atStage .mem).putMemWb .bubble) := by
  simp only [memStage, h]

theorem exStage_of_bubble (h : s.idEx = .bubble) : exStage s = .next ((s.atStage .ex).putExMem .bubble) := by
  simp only [exStage, h]

theorem idStage_of_bubble (h : s.ifId = .bubble) : idStage s = .next ((s.atStage .id).putIdEx .bubble) := by
  simp only [idStage, h]

/-- Settles O28: each of the four stages that have an input latch, by its equation at a bubble. -/
theorem bubbleCommitsNothing : Obligations.BubbleCommitsNothing :=
  fun _ => ⟨wbStage_of_bubble, memStage_of_bubble, exStage_of_bubble, idStage_of_bubble⟩

/-! ### A step is the tick of the pseudocode -/

/-- IF, the last evaluation of a tick. It leaves the stage under evaluation as it is, so `andThen_next`, which is about a stage
that sets it, does not cover it. -/
theorem andThen_ifStage (s : State) (st : Stage) :
    andThen (.next (s.atStage st)) ifStage = .next ((unlessEnded s ifRule).atStage st) := by
  unfold andThen unlessEnded
  by_cases hs : s.run = .running <;> simp [hs, ifStage_eq]

/-- The five evaluations and the hand-over are those of the pseudocode, a tick that is cut included. -/
theorem tick_eq (s : State) : tick s = .next (tickRule s) := by
  obtain ⟨_, hmem⟩ := andThen_next (wbRule s.beginTick) memStage memRule .wb .mem
    (fun t => by rw [memStage_eq, memRule_atStage]) memRule_atStage
  obtain ⟨_, hex⟩ := andThen_next (unlessEnded (wbRule s.beginTick) memRule) exStage exRule _ .ex
    (fun t => by rw [exStage_eq, exRule_atStage]) exRule_atStage
  obtain ⟨_, hid⟩ := andThen_next (unlessEnded (unlessEnded (wbRule s.beginTick) memRule) exRule) idStage idRule _ .id
    (fun t => by rw [idStage_eq, idRule_atStage]) idRule_atStage
  rw [tick, wbStage_eq, wbRule_atStage, hmem, hex, hid, andThen_ifStage, endTick_next, tickRule]

/-- Everything a step can do: a running machine makes the tick of the pseudocode, a stopped one makes no step. -/
theorem step_next_iff : step s = .next t ↔ s.run = .running ∧ t = tickRule s := by
  unfold step tickIfRunning
  cases hr : s.run with
  | running => simp [tick_eq, eq_comm]
  | halted => simp
  | faulted kind info => simp

/-! ### Register 0 (10 R11) -/

theorem regsReset_read_zero : Regs.reset.read 0#5 = 0#32 := by decide

theorem regsAfterWb_read_zero (s : State) : (regsAfterWb s).read 0#5 = s.x.read 0#5 := by
  unfold regsAfterWb
  cases s.memWb with
  | bubble => rfl
  | live m =>
    dsimp only
    split
    · exact Regs.read_write_zero _ _ _
    · rfl

theorem regsAfterMem_read_zero (s : State) : (regsAfterMem s).read 0#5 = s.x.read 0#5 := by
  unfold regsAfterMem
  cases s.exMem with
  | bubble => exact regsAfterWb_read_zero s
  | live e =>
    dsimp only
    split
    · rw [Regs.read_write_zero, regsAfterWb_read_zero]
    · exact regsAfterWb_read_zero s

/-- The registers a tick leaves are those it began with (WB ended it), those after its WB (MEM ended it) or those after its
MEM. -/
theorem tickRule_x (hr : s.run = .running) :
    (tickRule s).x = s.x ∨ (tickRule s).x = regsAfterWb s ∨ (tickRule s).x = regsAfterMem s := by
  rcases tickRule_cases s hr with ⟨m, -, -, hwb⟩ | ⟨-, e, rs, rt, imm16, -, -, -, hmem⟩ | ⟨-, -, d, kind, -, -, hex⟩ |
    ⟨-, -, -, -, -, hif⟩ | ⟨-, -, -, -, hend⟩
  · rw [hwb]; exact .inl rfl
  · rw [hmem]; exact .inr (.inl rfl)
  · rw [hex]; exact .inr (.inr rfl)
  · rw [hif]; exact .inr (.inr rfl)
  · rw [hend]; exact .inr (.inr rfl)

/-- No step changes what register 0 reads as, zero or not. -/
theorem step_read_zero (h : step s = .next t) : t.x.read 0#5 = s.x.read 0#5 := by
  obtain ⟨hr, rfl⟩ := step_next_iff.mp h
  rcases tickRule_x hr with hx | hx | hx <;> rw [hx]
  · exact regsAfterWb_read_zero s
  · exact regsAfterMem_read_zero s

/-- Settles O10: the guarded write, the reset value, and that no step changes what register 0 reads as. -/
theorem registerZeroStaysZero : Obligations.RegisterZeroStaysZero :=
  ⟨Regs.write_zero, fun x i j v hi => by simp [Regs.read_write, hi], fun _ _ => regsReset_read_zero,
    fun _ _ h0 h => (step_read_zero h).trans h0⟩

end Sys2Proof.Machine
end

section
/-! PROOFS. The encoding (spec 30): decoding a word is the inverse of building it (R51), the rows of the opcode table are read
off a word by mask and match (R56), and a word of no row ends the run in EX (R58). -/

namespace Sys2Proof

variable {haltWord w : Word} {i : Instr}

/-! ### A decoded word is the word of its instruction (30 R51, R54) -/

/-- The word of an instruction decodes to it, unless the comparison with `HALT_WORD` takes the word first (D1). -/
theorem decode_encode_of_ne (h : encode haltWord i ≠ haltWord) : decode haltWord (encode haltWord i) = .known i := by
  rw [decode_of_ne _ _ h]
  cases i with
  | halt => exact absurd rfl h
  | sll | srl | sra | jr | add | sub | and | or | nor | slt => simp [encode, decodeR]
  | j | jal | beq | bne | addi | slti | andi | ori | lw | sw => simp [encode, decodeIJ]

theorem decode_eq_known_iff (hw : w ≠ haltWord) : decode haltWord w = .known i ↔ w = encode haltWord i := by
  constructor
  · exact encode_of_decode_known _ _ _
  · rintro rfl; exact decode_encode_of_ne hw

/-! ### A word is built from its own fields exactly when its opcode (and funct) are the given ones (30 R51) -/

theorem eq_encodeR_iff (w : Word) (funct : BitVec 6) :
    w = encodeR w.rs w.rt w.rd w.shamt funct ↔ w.opcode = 0x00#6 ∧ w.funct = funct := by
  constructor
  · intro h
    rw [h]; simp
  · rintro ⟨ho, rfl⟩
    exact (encodeR_fields w ho).symm

theorem eq_encodeI_iff (w : Word) (opcode : BitVec 6) : w = encodeI opcode w.rs w.rt w.imm16 ↔ w.opcode = opcode := by
  constructor
  · intro h
    rw [h]; simp
  · rintro rfl
    exact (encodeI_fields w).symm

theorem eq_encodeJ_iff (w : Word) (opcode : BitVec 6) : w = encodeJ opcode w.target26 ↔ w.opcode = opcode := by
  constructor
  · intro h
    rw [h]; simp
  · rintro rfl
    exact (encodeJ_fields w).symm

/-! ### Mask and match (30 R56) -/

theorem opcode_and {m : Word} (hm : m.opcode = BitVec.allOnes 6) (w : Word) : (w &&& m).opcode = w.opcode := by
  unfold Word.opcode at hm ⊢
  rw [BitVec.extractLsb'_and, hm, BitVec.and_allOnes]

theorem funct_and {m : Word} (hm : m.funct = BitVec.allOnes 6) (w : Word) : (w &&& m).funct = w.funct := by
  unfold Word.funct at hm ⊢
  rw [BitVec.extractLsb'_and, hm, BitVec.and_allOnes]

/-- Mask and match of an R-format row: the match is what the mask leaves of any word of the row. -/
theorem and_functMask_eq_iff (w : Word) (funct : BitVec 6) :
    w &&& 0xFC00003F#32 = funct.setWidth 32 ↔ w.opcode = 0x00#6 ∧ w.funct = funct := by
  have hrow := encodeR_mask w.rs w.rt w.rd w.shamt funct
  constructor
  · intro h
    have hsame := h.trans hrow.symm
    have ho := congrArg Word.opcode hsame
    have hf := congrArg Word.funct hsame
    rw [opcode_and rfl, opcode_and rfl, encodeR_opcode] at ho
    rw [funct_and rfl, funct_and rfl, encodeR_funct] at hf
    exact ⟨ho, hf⟩
  · intro h
    rwa [← (eq_encodeR_iff w funct).mpr h] at hrow

/-- Mask and match of an I- or J-format row. -/
theorem and_opcodeMask_eq_iff (w : Word) (opcode : BitVec 6) :
    w &&& 0xFC000000#32 = opcode ++ 0#26 ↔ w.opcode = opcode := by
  have hrow := encodeJ_mask opcode w.target26
  constructor
  · intro h
    have ho := congrArg Word.opcode (h.trans hrow.symm)
    rwa [opcode_and rfl, opcode_and rfl, encodeJ_opcode] at ho
  · intro h
    rwa [← (eq_encodeJ_iff w opcode).mpr h] at hrow

/-! ### The rows of the table, by format -/

theorem decode_rRow_iff (hw : w ≠ haltWord) (funct : BitVec 6)
    (hi : encode haltWord i = encodeR w.rs w.rt w.rd w.shamt funct) :
    decode haltWord w = .known i ↔ w &&& 0xFC00003F#32 = funct.setWidth 32 := by
  rw [decode_eq_known_iff hw, hi, eq_encodeR_iff, and_functMask_eq_iff]

theorem decode_jRow_iff (hw : w ≠ haltWord) (opcode : BitVec 6) (hi : encode haltWord i = encodeJ opcode w.target26) :
    decode haltWord w = .known i ↔ w &&& 0xFC000000#32 = opcode ++ 0#26 := by
  rw [decode_eq_known_iff hw, hi, eq_encodeJ_iff, and_opcodeMask_eq_iff]

theorem decode_iRow_iff (hw : w ≠ haltWord) (opcode : BitVec 6) (hi : encode haltWord i = encodeI opcode w.rs w.rt w.imm16) :
    decode haltWord w = .known i ↔ w &&& 0xFC000000#32 = opcode ++ 0#26 := by
  rw [decode_eq_known_iff hw, hi, eq_encodeI_iff, and_opcodeMask_eq_iff]

/-- Settles O2: the halt row is the first comparison of the decoder; every other row, in the order of the table, by the lemma
of its format at its funct or opcode. -/
theorem decodeFollowsOpcodeTable : Obligations.DecodeFollowsOpcodeTable := fun _ _ =>
  ⟨Machine.decode_eq_halt_iff _ _, fun hw =>
    ⟨decode_rRow_iff hw 0x00#6 rfl, decode_rRow_iff hw 0x02#6 rfl, decode_rRow_iff hw 0x03#6 rfl,
      decode_rRow_iff hw 0x08#6 rfl, decode_rRow_iff hw 0x20#6 rfl, decode_rRow_iff hw 0x22#6 rfl,
      decode_rRow_iff hw 0x24#6 rfl, decode_rRow_iff hw 0x25#6 rfl, decode_rRow_iff hw 0x27#6 rfl,
      decode_rRow_iff hw 0x2A#6 rfl, decode_jRow_iff hw 0x02#6 rfl, decode_jRow_iff hw 0x03#6 rfl,
      decode_iRow_iff hw 0x04#6 rfl, decode_iRow_iff hw 0x05#6 rfl, decode_iRow_iff hw 0x08#6 rfl,
      decode_iRow_iff hw 0x0A#6 rfl, decode_iRow_iff hw 0x0C#6 rfl, decode_iRow_iff hw 0x0D#6 rfl,
      decode_iRow_iff hw 0x23#6 rfl, decode_iRow_iff hw 0x2B#6 rfl⟩⟩

/-! ### The words of no row (30 R58) -/

/-- A chain of rows goes past a row to the answer `u`, which is no instruction, when the test of the row fails. -/
theorem ite_known_eq_iff {c : Prop} [Decidable c] {rest u : Decoded} (hu : .known i ≠ u) :
    (if c then .known i else rest) = u ↔ ¬c ∧ rest = u := by
  by_cases hc : c <;> simp [hc, hu]

theorem decodeR_ne_unknownOpcode (w : Word) : decodeR w ≠ .unknownOpcode := by
  unfold decodeR
  simp [ite_known_eq_iff]

theorem decodeIJ_ne_unknownFunct (w : Word) : decodeIJ w ≠ .unknownFunct := by
  unfold decodeIJ
  simp [ite_known_eq_iff]

theorem decodeR_eq_unknownFunct_iff (w : Word) : decodeR w = .unknownFunct ↔
    w.funct ∉ [0x00#6, 0x02#6, 0x03#6, 0x08#6, 0x20#6, 0x22#6, 0x24#6, 0x25#6, 0x27#6, 0x2A#6] := by
  unfold decodeR
  simp only [ite_known_eq_iff, ne_eq, reduceCtorEq, not_false_eq_true, List.mem_cons, List.not_mem_nil, not_or, and_true]
  tauto

theorem decodeIJ_eq_unknownOpcode_iff (w : Word) : decodeIJ w = .unknownOpcode ↔
    w.opcode ∉ [0x02#6, 0x03#6, 0x04#6, 0x05#6, 0x08#6, 0x0A#6, 0x0C#6, 0x0D#6, 0x23#6, 0x2B#6] := by
  unfold decodeIJ
  simp only [ite_known_eq_iff, ne_eq, reduceCtorEq, not_false_eq_true, List.mem_cons, List.not_mem_nil, not_or, and_true]
  tauto

theorem decode_eq_unknownFunct_iff (haltWord w : Word) : decode haltWord w = .unknownFunct ↔ w ≠ haltWord ∧
    w.opcode = 0x00#6 ∧ w.funct ∉ [0x00#6, 0x02#6, 0x03#6, 0x08#6, 0x20#6, 0x22#6, 0x24#6, 0x25#6, 0x27#6, 0x2A#6] := by
  unfold decode
  rw [ite_known_eq_iff (by simp), ← decodeR_eq_unknownFunct_iff]
  by_cases ho : w.opcode = 0x00#6
  · simp [ho]
  · simp [ho, decodeIJ_ne_unknownFunct]

theorem decode_eq_unknownOpcode_iff (haltWord w : Word) : decode haltWord w = .unknownOpcode ↔ w ≠ haltWord ∧
    w.opcode ∉ [0x00#6, 0x02#6, 0x03#6, 0x04#6, 0x05#6, 0x08#6, 0x0A#6, 0x0C#6, 0x0D#6, 0x23#6, 0x2B#6] := by
  unfold decode
  rw [ite_known_eq_iff (by simp), List.mem_cons, not_or, ← decodeIJ_eq_unknownOpcode_iff]
  by_cases ho : w.opcode = 0x00#6
  · simp [ho, decodeR_ne_unknownOpcode]
  · simp [ho]

end Sys2Proof

namespace Sys2Proof.Machine

/-- An unknown word in ID_EX ends the run with the fatal error of its kind, unless WB or MEM of the tick ended it. -/
theorem step_of_unknown {s : State} {d : IdEx} {kind : FaultKind} (hr : s.run = .running) (hwb : wbGoesOn s)
    (hmem : memGoesOn s) (hd : s.idEx = .live d)
    (hkind : d.instr.op = .unknownOpcode ∧ kind = .unknownOpcode ∨ d.instr.op = .unknownFunct ∧ kind = .unknownFunct) :
    ∃ t info, step s = .next t ∧ t.run = .faulted kind info :=
  ⟨tickRule s, _, step_next_iff.mpr ⟨hr, rfl⟩, by rw [tickRule_exEnds s hr hwb hmem d hd kind hkind]; rfl⟩

/-- Settles O3: the two lists by the decoder's chains of rows, the fatal errors by what EX does with an unknown word. -/
theorem unknownEncodingsAreTheRest : Obligations.UnknownEncodingsAreTheRest :=
  ⟨fun haltWord w => ⟨decode_eq_unknownFunct_iff haltWord w, decode_eq_unknownOpcode_iff haltWord w⟩,
    fun _ _ hr hwb hmem hd =>
      ⟨fun ho => step_of_unknown hr hwb hmem hd (.inr ⟨ho, rfl⟩),
        fun ho => step_of_unknown hr hwb hmem hd (.inl ⟨ho, rfl⟩)⟩⟩

end Sys2Proof.Machine
end

section
/-! PROOFS. Encoding, the rest (spec 30, 95): the round trip of every instruction that has a word of its own, the word as a
number, and the vectors. -/

namespace Sys2Proof

/-- Settles O1: halt is the first comparison; of every other instruction `wellFormed` says that the comparison fails. -/
theorem decodeInvertsEncode : Obligations.DecodeInvertsEncode := by
  intro haltWord i hi
  by_cases hh : i = .halt
  · subst hh; exact decode_haltWord haltWord
  · refine decode_encode_of_ne ?_
    simpa [Instr.wellFormed, hh] using hi

/-- Fields side by side as a number: the upper one times the power of two of its position. -/
theorem toNat_append {n k : Nat} (a : BitVec n) (b : BitVec k) : (a ++ b).toNat = a.toNat * 2 ^ k + b.toNat := by
  rw [BitVec.toNat_append, ← Nat.shiftLeft_add_eq_or_of_lt b.isLt, Nat.shiftLeft_eq]

/-- Settles O4: by `toNat_append` at each field. -/
theorem wordIsTheSumOfItsFields : Obligations.WordIsTheSumOfItsFields := by
  intro haltWord rs rt rd shamt imm16 target26
  simp only [encode, encodeR, encodeI, encodeJ, toNat_append]
  simp
  omega

/-- Settles O5: eleven closed words. -/
theorem decoderVectors : Obligations.DecoderVectors := by
  unfold Obligations.DecoderVectors
  decide

end Sys2Proof
end

section
/-! PROOFS. Memory (spec 20): words as bytes and bytes as numbers, a read that overlaps a write, and the canonical form as a
normal form. -/

namespace Sys2Proof.Machine

variable {m m' : Memory}

/-! ### Words and their bytes as numbers (20 R33) -/

theorem toNat_wordOfBytes (b0 b1 b2 b3 : Byte) : (wordOfBytes b0 b1 b2 b3).toNat =
    b0.toNat * 2 ^ 24 + b1.toNat * 2 ^ 16 + b2.toNat * 2 ^ 8 + b3.toNat := by
  simp only [wordOfBytes, toNat_append]
  omega

theorem toNat_byteOfWord (v : Word) (k : Nat) : (byteOfWord v k).toNat = v.toNat / 2 ^ (8 * (3 - k)) % 2 ^ 8 := by
  rw [byteOfWord, BitVec.extractLsb'_toNat, Nat.shiftRight_eq_div_pow]

/-- Byte `j` of the word at `a` is the byte at `a + j`. -/
theorem Memory.wordAt_byte (m : Memory) (a : Nat) : ∀ j, j < 4 →
    (m.wordAt a).toNat / 2 ^ (8 * (3 - j)) % 2 ^ 8 = (m.readByte (a + j)).toNat := by
  have h0 := (m.readByte a).isLt
  have h1 := (m.readByte (a + 1)).isLt
  have h2 := (m.readByte (a + 2)).isLt
  have h3 := (m.readByte (a + 3)).isLt
  rw [Memory.wordAt, toNat_wordOfBytes]
  intro j hj
  obtain rfl | rfl | rfl | rfl : j = 0 ∨ j = 1 ∨ j = 2 ∨ j = 3 := by omega
  all_goals norm_num only [Nat.add_zero] at h0 h1 h2 h3 ⊢; omega

theorem inBounds_memSize {a : Word} (h : a.toNat ≤ 0xFFFFC) : a.toNat + 4 ≤ Config.memSize := by
  unfold Config.memSize; omega

/-- Settles O6: the word read is the four bytes side by side. -/
theorem memReadIsBigEndianAndBounded : Obligations.MemReadIsBigEndianAndBounded := fun m a =>
  ⟨fun hb => ⟨_, readWord_inBounds m a hb, toNat_wordOfBytes _ _ _ _⟩,
    fun hb => Memory.readWord_out m a (inBounds_false a hb)⟩

/-- Settles O7: what every byte reads as after the write, at the four addresses and beside them. -/
theorem memWriteIsBigEndianAndBounded : Obligations.MemWriteIsBigEndianAndBounded := by
  intro m a v hwf
  refine ⟨fun hb => ⟨_, writeWord_inBounds m a v hb, ?_⟩, fun hb => Memory.writeWord_out m a v (inBounds_false a hb)⟩
  have hbyte : ∀ k, k < 4 → ((m.setWordAt a.toNat v).readByte (a.toNat + k)).toNat = v.toNat / 2 ^ (8 * (3 - k)) % 2 ^ 8 := by
    intro k hk
    rw [Memory.readByte_setWordAt _ _ _ _ hwf (inBounds_memSize hb), if_pos (by omega), Nat.add_sub_cancel_left,
      toNat_byteOfWord]
  have hv := v.isLt
  refine ⟨?_, ?_, ?_, ?_, fun b hbeside => ?_⟩
  · have := hbyte 0 (by omega); norm_num at this hv ⊢; omega
  · exact hbyte 1 (by omega)
  · exact hbyte 2 (by omega)
  · simpa using hbyte 3 (by omega)
  · rw [Memory.readByte_setWordAt _ _ _ _ hwf (inBounds_memSize hb), if_neg (by omega)]

/-! ### A read that overlaps a write (20 R35) -/

/-- The word read at `b` after `v` was written at `a`, byte by byte. -/
theorem Memory.wordAt_setWordAt_byte (v : Word) {a b : Nat} (hwf : m.wf = true) (ha : a + 4 ≤ Config.memSize) (j : Nat)
    (hj : j < 4) : ((m.setWordAt a v).wordAt b).toNat / 2 ^ (8 * (3 - j)) % 2 ^ 8 =
      if a ≤ b + j ∧ b + j < a + 4 then v.toNat / 2 ^ (8 * (3 - (b + j - a))) % 2 ^ 8 else (m.readByte (b + j)).toNat := by
  rw [Memory.wordAt_byte _ _ j hj, Memory.readByte_setWordAt _ _ _ _ hwf ha]
  split
  · exact toNat_byteOfWord _ _
  · rfl

/-- A read `k` bytes above the write: the lower bytes of the word written are the upper bytes of the word read. -/
theorem wordAbove_of_bytes {w v k : Nat} (hw : w < 2 ^ 32) (hk : k < 4)
    (h : ∀ j, j + k < 4 → w / 2 ^ (8 * (3 - j)) % 2 ^ 8 = v / 2 ^ (8 * (3 - (j + k))) % 2 ^ 8) :
    w / 2 ^ (8 * k) = v % 2 ^ (32 - 8 * k) := by
  have h0 := h 0
  have h1 := h 1
  have h2 := h 2
  have h3 := h 3
  obtain rfl | rfl | rfl | rfl : k = 0 ∨ k = 1 ∨ k = 2 ∨ k = 3 := by omega
  all_goals norm_num at h0 h1 h2 h3 hw ⊢; omega

/-- Settles O8: the byte statement by `wordAt_setWordAt_byte`, the two word statements by the bytes they share. -/
theorem overlappingReadSeesTheWrittenBytes : Obligations.OverlappingReadSeesTheWrittenBytes := by
  intro m m' a b v hwf hw hb
  obtain ⟨ha, rfl⟩ := Memory.writeWord_some _ _ _ _ hw
  have hbytes := Memory.wordAt_setWordAt_byte (b := b.toNat) v hwf ((inBounds_iff a).mp ha)
  have hlt := ((m.setWordAt a.toNat v).wordAt b.toNat).isLt
  refine ⟨_, readWord_inBounds _ _ hb, hbytes, fun k hk hab => ?_, fun k hk hab => ?_⟩
  · refine wordAbove_of_bytes hlt hk fun j hj => ?_
    rw [hbytes j (by omega), if_pos (by omega), show b.toNat + j - a.toNat = j + k by omega]
  · refine (wordAbove_of_bytes v.isLt hk fun j hj => ?_).symm
    rw [hbytes (j + k) (by omega), if_pos (by omega), show b.toNat + (j + k) - a.toNat = j by omega]

/-! ### The canonical form is a normal form -/

theorem mem_of_lookupCell {a : Nat} {b : Byte} {l : List Host.Cell} (h : lookupCell a l = some b) : (a, b) ∈ l := by
  induction l with
  | nil => cases h
  | cons c rest ih =>
    obtain ⟨k, v⟩ := c
    unfold lookupCell at h
    split at h
    next hk => cases h; subst hk; exact List.mem_cons_self
    · exact List.mem_cons_of_mem _ (ih h)

theorem le_of_lookupCell {low a : Nat} {b : Byte} {l : List Host.Cell} (hl : cellsRiseFrom low l = true)
    (h : lookupCell a l = some b) : low ≤ a := by
  by_contra ha
  rw [lookupCell_of_lt low l hl a (by omega)] at h; cases h

/-- Cells with rising addresses are determined by what they list. -/
theorem cells_ext {low low' : Nat} {l l' : List Host.Cell} (hl : cellsRiseFrom low l = true)
    (hl' : cellsRiseFrom low' l' = true) (h : ∀ a, lookupCell a l = lookupCell a l') : l = l' := by
  induction l generalizing low low' l' with
  | nil =>
    cases l' with
    | nil => rfl
    | cons c' rest' => have := h c'.1; simp [lookupCell] at this
  | cons c rest ih =>
    cases l' with
    | nil => have := h c.1; simp [lookupCell] at this
    | cons c' rest' =>
      obtain ⟨k, v⟩ := c
      obtain ⟨k', v'⟩ := c'
      simp only [cellsRiseFrom, Bool.and_eq_true, decide_eq_true_eq] at hl hl'
      have hk : k = k' := by
        have h1 : k' ≤ k := le_of_lookupCell (l := (k', v') :: rest') (by simp [cellsRiseFrom, hl'.2])
          ((h k).symm.trans (if_pos rfl))
        have h2 : k ≤ k' := le_of_lookupCell (l := (k, v) :: rest) (by simp [cellsRiseFrom, hl.2])
          ((h k').trans (if_pos rfl))
        omega
      subst hk
      have hv : v = v' := by simpa [lookupCell] using h k
      subst hv
      congr 1
      refine ih hl.2 hl'.2 fun a => ?_
      by_cases ha : a = k
      · rw [lookupCell_of_lt _ _ hl.2 a (by omega), lookupCell_of_lt _ _ hl'.2 a (by omega)]
      · simpa [lookupCell, ha] using h a

/-- A canonical memory lists an address exactly when the byte there differs from what it reads as when unlisted. -/
theorem Memory.lookupCell_of_wf (hwf : m.wf = true) (a : Nat) :
    lookupCell a m.cells = if m.readByte a = m.unlisted a then none else some (m.readByte a) := by
  obtain ⟨-, hall, -⟩ := (Memory.wf_iff m).mp hwf
  unfold Memory.readByte
  cases hl : lookupCell a m.cells with
  | none => rw [Option.getD_none, if_pos rfl]
  | some b => rw [Option.getD_some, if_neg (hall _ (mem_of_lookupCell hl)).2]

/-- Settles O9: the bytes determine what is listed, and what is listed the cells. -/
theorem canonicalMemoryIsExtensional : Obligations.CanonicalMemoryIsExtensional := by
  intro m m' hwf hwf' hseed hread
  have hcells : m.cells = m'.cells := by
    refine cells_ext ((Memory.wf_iff m).mp hwf).1 ((Memory.wf_iff m').mp hwf').1 fun a => ?_
    have hunlisted : m.unlisted a = m'.unlisted a := by rw [Memory.unlisted, hseed]; rfl
    rw [Memory.lookupCell_of_wf hwf, Memory.lookupCell_of_wf hwf', hread a, hunlisted]
  cases m; cases m'
  simp only at hseed hcells
  rw [hseed, hcells]

end Sys2Proof.Machine
end

section
/-! PROOFS. The meanings, stage by stage (spec 41 to 46): what `exec` of an instruction is in each of the four stages, said once
for all instructions, and from that the statements of each family. -/

namespace Sys2Proof.Machine

variable {s : State} {i : Instr}

/-! ### `exec` in ID and in MEM (`exec_ex` and `exec_wb` are EX and WB) -/

/-- What ID of an instruction reads off it (40 R80, R81). -/
def operandsOf : Instr → IfId → IdOperands
  | .sll rs rt rd shamt, _ => operandsR rs rt rd shamt 0x00#6
  | .srl rs rt rd shamt, _ => operandsR rs rt rd shamt 0x02#6
  | .sra rs rt rd shamt, _ => operandsR rs rt rd shamt 0x03#6
  | .jr rs rt rd shamt, _ => operandsR rs rt rd shamt 0x08#6
  | .add rs rt rd shamt, _ => operandsR rs rt rd shamt 0x20#6
  | .sub rs rt rd shamt, _ => operandsR rs rt rd shamt 0x22#6
  | .and rs rt rd shamt, _ => operandsR rs rt rd shamt 0x24#6
  | .or rs rt rd shamt, _ => operandsR rs rt rd shamt 0x25#6
  | .nor rs rt rd shamt, _ => operandsR rs rt rd shamt 0x27#6
  | .slt rs rt rd shamt, _ => operandsR rs rt rd shamt 0x2A#6
  | .j target26, f | .jal target26, f => operandsJ f.nextPc target26
  | .beq rs rt imm16, _ | .bne rs rt imm16, _ | .addi rs rt imm16, _ | .slti rs rt imm16, _ | .andi rs rt imm16, _
  | .ori rs rt imm16, _ | .lw rs rt imm16, _ | .sw rs rt imm16, _ => operandsI rs rt imm16
  | .halt, f => operandsOfWord f.word

/-- What ID of an instruction asks of the stall controller (40 R83, R84). -/
def controlOf : Instr → State → State
  | .j _ | .jal _ | .beq .. | .bne .. => requestStall
  | .halt => noteHalt
  | _ => keepFetching

/-- MEM of an instruction (40 R75, R76). -/
def memSlot : Instr → State → Result
  | .lw .. => loadSlot
  | .sw .. => storeSlot
  | .beq .. => commitSlot (commitPcIf beqTaken)
  | .bne .. => commitSlot (commitPcIf bneTaken)
  | .j _ | .jr .. => commitSlot commitPc
  | .jal _ => commitSlot commitPcAndLink
  | _ => passSlot

theorem byStage_of_id {a b c d : Result} (h : s.scratch.stage = .id) : byStage s a b c d = a := by simp only [byStage, h]
theorem byStage_of_mem {a b c d : Result} (h : s.scratch.stage = .mem) : byStage s a b c d = c := by simp only [byStage, h]

theorem exec_id_eq (i : Instr) (h : s.scratch.stage = .id) :
    exec i s = decodeSlot (.known i) (operandsOf i) (controlOf i) s := by
  cases i <;> exact byStage_of_id h

theorem exec_mem (i : Instr) (h : s.scratch.stage = .mem) : exec i s = memSlot i s := by
  cases i <;> exact byStage_of_mem h

/-! ### The stage actions on a live latch -/

theorem exec_id_of_live {f : IfId} (i : Instr) (h : s.scratch.stage = .id) (hf : s.ifId = .live f) :
    exec i s = .next ((controlOf i s).putIdEx (.live (decodedRecord (.known i) (operandsOf i f) f s.scratch.xStart))) := by
  rw [exec_id_eq i h]; simp only [decodeSlot, hf]

theorem exec_ex_of_live {d : IdEx} (i : Instr) (h : s.scratch.stage = .ex) (hd : s.idEx = .live d) :
    exec i s = .next (s.putExMem (.live (exRecord i d))) := by
  rw [exec_ex i s h]; simp only [executeSlot, hd]

theorem commitSlot_of_live {e : ExMem} (commit : ExMem → State → State) (he : s.exMem = .live e) :
    commitSlot commit s = .next ((commit e s).putMemWb (memWbRecord e e.aluOut)) := by
  simp only [commitSlot, he]; rfl

theorem passSlot_of_live {e : ExMem} (he : s.exMem = .live e) :
    passSlot s = .next (s.putMemWb (memWbRecord e e.aluOut)) := commitSlot_of_live _ he

theorem exec_wb_of_write {m : MemWb} (hi : i ≠ .halt) (h : s.scratch.stage = .wb) (hm : s.memWb = .live m)
    (hw : m.regWrite = true) : exec i s = .next (s.writeReg m.destIndex m.result) := by
  rw [exec_wb i s h hi]; simp only [writeBackSlot, hm, hw, if_true]

theorem exec_wb_of_no_write {m : MemWb} (hi : i ≠ .halt) (h : s.scratch.stage = .wb) (hm : s.memWb = .live m)
    (hw : m.regWrite = false) : exec i s = .next s := by
  rw [exec_wb i s h hi]; simp only [writeBackSlot, hm, hw, Bool.false_eq_true, if_false]

theorem haltSlot_of_live {m : MemWb} (hm : s.memWb = .live m) : haltSlot s = .next (s.setRun .halted) := by
  simp only [haltSlot, hm]

/-- MEM and WB of every instruction that only passes its result through MEM. -/
theorem passes_and_writes (hmem : memSlot i = passSlot) (hi : i ≠ .halt) :
    (∀ e : ExMem, s.scratch.stage = .mem → s.exMem = .live e → exec i s = .next (s.putMemWb (memWbRecord e e.aluOut))) ∧
    (∀ m : MemWb, s.scratch.stage = .wb → s.memWb = .live m → m.regWrite = true →
      exec i s = .next { s with x := s.x.write m.destIndex m.result }) :=
  ⟨fun e h he => by rw [exec_mem i h, hmem, passSlot_of_live he], fun m h hm hw => exec_wb_of_write hi h hm hw⟩

/-! ### Arithmetic, logic and shifts (41, 42, 43) -/

/-- Settles O13: EX by the row of each instruction; MEM and WB alike for the six. -/
theorem aluRegisterByStage : Obligations.AluRegisterByStage := by
  intro rs rt rd shamt s
  refine ⟨fun d h hd => ⟨exec_ex_of_live _ h hd, exec_ex_of_live _ h hd, exec_ex_of_live _ h hd, exec_ex_of_live _ h hd,
    exec_ex_of_live _ h hd, exec_ex_of_live _ h hd⟩, ?_⟩
  simp only [List.forall_mem_cons, List.not_mem_nil, false_implies, implies_true, and_true]
  exact ⟨passes_and_writes rfl nofun, passes_and_writes rfl nofun, passes_and_writes rfl nofun,
    passes_and_writes rfl nofun, passes_and_writes rfl nofun, passes_and_writes rfl nofun⟩

/-! The shifts as arithmetic on numbers. -/

theorem shiftLeft_eq_ofNat (v : Word) (n : Nat) : v <<< n = BitVec.ofNat 32 (v.toNat * 2 ^ n) := by
  apply BitVec.eq_of_toNat_eq
  rw [BitVec.toNat_shiftLeft, BitVec.toNat_ofNat, Nat.shiftLeft_eq]

theorem ushiftRight_eq_ofNat (v : Word) (n : Nat) : v >>> n = BitVec.ofNat 32 (v.toNat / 2 ^ n) := by
  apply BitVec.eq_of_toNat_eq
  rw [BitVec.toNat_ushiftRight, BitVec.toNat_ofNat, Nat.shiftRight_eq_div_pow,
    Nat.mod_eq_of_lt (lt_of_le_of_lt (Nat.div_le_self _ _) v.isLt)]

theorem sshiftRight_eq_ofInt (v : Word) (n : Nat) : v.sshiftRight n = BitVec.ofInt 32 (v.toInt / 2 ^ n) := by
  rw [BitVec.sshiftRight_eq, Int.shiftRight_eq_div_pow]; norm_cast

/-- Settles O14: EX by the row of each shift, the shift as a number; MEM and WB alike for the three. -/
theorem shiftsByStage : Obligations.ShiftsByStage := by
  intro rs rt rd shamt s
  refine ⟨fun d h hd => ⟨?_, ?_, ?_⟩, ?_⟩
  · rw [exec_ex_of_live _ h hd, ← shiftLeft_eq_ofNat]; rfl
  · rw [exec_ex_of_live _ h hd, ← ushiftRight_eq_ofNat]; rfl
  · rw [exec_ex_of_live _ h hd, ← sshiftRight_eq_ofInt]; rfl
  simp only [List.forall_mem_cons, List.not_mem_nil, false_implies, implies_true, and_true]
  exact ⟨passes_and_writes rfl nofun, passes_and_writes rfl nofun, passes_and_writes rfl nofun⟩

/-- Settles O15: ID and EX by the row of each instruction; MEM and WB alike for the four. -/
theorem aluImmediateByStage : Obligations.AluImmediateByStage := by
  intro rs rt imm16 s
  simp only [List.forall_mem_cons, List.not_mem_nil, false_implies, implies_true, and_true]
  refine ⟨fun f h hf => ⟨exec_id_of_live _ h hf, exec_id_of_live _ h hf, exec_id_of_live _ h hf, exec_id_of_live _ h hf⟩,
    fun d h hd => ⟨exec_ex_of_live _ h hd, exec_ex_of_live _ h hd, exec_ex_of_live _ h hd, exec_ex_of_live _ h hd⟩, ?_⟩
  exact ⟨passes_and_writes rfl nofun, passes_and_writes rfl nofun, passes_and_writes rfl nofun,
    passes_and_writes rfl nofun⟩

/-! ### Loads and stores (44) -/

theorem loadSlot_inBounds {e : ExMem} (he : s.exMem = .live e) (hb : e.aluOut.toNat ≤ 0xFFFFC) :
    loadSlot s = .next (s.putMemWb (memWbRecord e (s.mem.wordAt e.aluOut.toNat))) := by
  simp only [loadSlot, he, readWord_inBounds _ _ hb]; rfl

theorem loadSlot_out {e : ExMem} (he : s.exMem = .live e) (hb : 0xFFFFC < e.aluOut.toNat) :
    loadSlot s = .next (s.setRun (dataFault e)) := by
  simp only [loadSlot, he, Memory.readWord_out _ _ (inBounds_false _ hb)]; rfl

theorem storeSlot_inBounds {e : ExMem} (he : s.exMem = .live e) (hb : e.aluOut.toNat ≤ 0xFFFFC) :
    storeSlot s =
      .next ((s.setMem (s.mem.setWordAt e.aluOut.toNat e.storeValue)).putMemWb (memWbRecord e e.aluOut)) := by
  simp only [storeSlot, he, writeWord_inBounds _ _ _ hb]; rfl

theorem storeSlot_out {e : ExMem} (he : s.exMem = .live e) (hb : 0xFFFFC < e.aluOut.toNat) :
    storeSlot s = .next (s.setRun (dataFault e)) := by
  simp only [storeSlot, he, Memory.writeWord_out _ _ _ (inBounds_false _ hb)]; rfl

/-- Settles O16: MEM is the load, in bounds or out of bounds. -/
theorem loadWordByStage : Obligations.LoadWordByStage := fun rs rt imm16 _ =>
  ⟨fun _ h hd => exec_ex_of_live _ h hd,
    fun _ h he hb => (exec_mem (.lw rs rt imm16) h).trans (loadSlot_inBounds he hb),
    fun _ h he hb => (exec_mem (.lw rs rt imm16) h).trans (loadSlot_out he hb),
    fun _ h hm hw => exec_wb_of_write nofun h hm hw⟩

/-- Settles O17: MEM is the store; what is read after it, by the laws of memory. -/
theorem storeWordByStage : Obligations.StoreWordByStage := by
  intro rs rt imm16 s
  refine ⟨fun d h hd => exec_ex_of_live _ h hd, fun e h he hb hwf => ?_,
    fun e h he hb => (exec_mem (.sw rs rt imm16) h).trans (storeSlot_out he hb),
    fun m h hm hw => exec_wb_of_no_write nofun h hm hw⟩
  have ha := inBounds_memSize hb
  refine ⟨_, (exec_mem (.sw rs rt imm16) h).trans (storeSlot_inBounds he hb), ?_, fun b hbeside => ?_⟩
  · rw [readWord_inBounds _ _ hb, Memory.wordAt_setWordAt _ _ _ hwf ha]
  · rw [Memory.readByte_setWordAt _ _ _ _ hwf ha, if_neg (by omega)]

/-! ### Control transfer and halt (45, 46) -/

theorem shiftLeft_two_eq (v : Word) : v <<< 2 = BitVec.ofNat 32 (4 * v.toNat) := by
  rw [shiftLeft_eq_ofNat, Nat.mul_comm]; rfl

theorem commitPcIf_of_taken {taken : Word → Bool} {e : ExMem} (h : taken e.aluOut = true) :
    commitPcIf taken e s = { s with pc := e.nextPc } := if_pos h
theorem commitPcIf_of_not_taken {taken : Word → Bool} {e : ExMem} (h : taken e.aluOut = false) :
    commitPcIf taken e s = s := if_neg (by rw [h]; decide)

/-- Settles O18: both branches at once in ID, EX and WB; MEM by whether the difference is zero. -/
theorem branchesByStage : Obligations.BranchesByStage := by
  intro rs rt imm16 s
  rw [List.forall_mem_cons, List.forall_mem_singleton]
  refine ⟨⟨fun f h hf => exec_id_of_live _ h hf, fun d h hd => ?_, fun e h he => ?_,
      fun m h hm hw => exec_wb_of_no_write nofun h hm hw⟩,
    ⟨fun f h hf => exec_id_of_live _ h hf, fun d h hd => ?_, fun e h he => ?_,
      fun m h hm hw => exec_wb_of_no_write nofun h hm hw⟩⟩
  · rw [exec_ex_of_live _ h hd, ← shiftLeft_two_eq]; rfl
  · rw [exec_mem _ h, memSlot, commitSlot_of_live _ he]
    by_cases hz : e.aluOut = 0#32
    · rw [commitPcIf_of_taken (by simp [beqTaken, hz]), if_pos (.inl ⟨rfl, hz⟩)]
    · rw [commitPcIf_of_not_taken (by simp [beqTaken, hz]), if_neg (by simp [hz])]
  · rw [exec_ex_of_live _ h hd, ← shiftLeft_two_eq]; rfl
  · rw [exec_mem _ h, memSlot, commitSlot_of_live _ he]
    by_cases hz : e.aluOut = 0#32
    · rw [commitPcIf_of_not_taken (by simp [bneTaken, hz]), if_neg (by simp [hz])]
    · rw [commitPcIf_of_taken (by simp [bneTaken, hz]), if_pos (.inr ⟨rfl, hz⟩)]

/-- The absolute target is the top four bits of the address after the jump, the target field, and two zeros. -/
theorem jumpTarget_eq_append (nextPc : Word) (target26 : BitVec 26) :
    jumpTarget nextPc target26 = nextPc.extractLsb' 28 4 ++ target26 ++ 0#2 := by
  have hm : ∀ i, i < 32 → (0xF0000000#32).getLsbD i = decide (28 ≤ i) := by decide
  apply BitVec.eq_of_getLsbD_eq
  intro i hi
  rw [jumpTarget, BitVec.getLsbD_or, BitVec.getLsbD_and, hm i hi, BitVec.getLsbD_shiftLeft, BitVec.getLsbD_setWidth,
    BitVec.getLsbD_append, BitVec.getLsbD_append, BitVec.getLsbD_extractLsb']
  by_cases h2 : i < 2
  · simp [h2, show ¬ 28 ≤ i by omega]
  by_cases h28 : i < 28
  · simp [h2, show ¬ 28 ≤ i by omega, show i - 2 < 26 by omega, show i - 2 < 32 by omega, hi]
  · have htop : target26.getLsbD (i - 2) = false := BitVec.getLsbD_of_ge _ _ (by omega)
    simp [h2, htop, show 28 ≤ i by omega, show ¬ i - 2 < 26 by omega, show i - 2 - 26 < 4 by omega,
      show 28 + (i - 2 - 26) = i by omega]

theorem toNat_jumpTarget (nextPc : Word) (target26 : BitVec 26) :
    (jumpTarget nextPc target26).toNat = nextPc.toNat / 2 ^ 28 * 2 ^ 28 + target26.toNat * 4 := by
  have h := nextPc.isLt
  rw [jumpTarget_eq_append, toNat_append, toNat_append, BitVec.extractLsb'_toNat, Nat.shiftRight_eq_div_pow,
    BitVec.toNat_ofNat]
  norm_num at h ⊢; omega

/-- Settles O19: ID, EX and WB of both jumps alike but for the destination of `jal`; MEM of each. -/
theorem jumpsByStage : Obligations.JumpsByStage := by
  intro target26 s
  simp only [List.forall_mem_cons, List.not_mem_nil, false_implies, implies_true, and_true]
  refine ⟨⟨⟨fun f h hf => ⟨_, exec_id_of_live _ h hf, rfl, rfl, toNat_jumpTarget _ _⟩,
        fun d h hd => exec_ex_of_live _ h hd, fun m h hm hw => exec_wb_of_no_write nofun h hm hw⟩,
      ⟨fun f h hf => ⟨_, exec_id_of_live _ h hf, rfl, rfl, toNat_jumpTarget _ _⟩,
        fun d h hd => exec_ex_of_live _ h hd, fun m h hm hw => exec_wb_of_no_write nofun h hm hw⟩⟩,
    fun e h he => ⟨?_, ?_⟩⟩
  · exact (exec_mem (.j target26) h).trans (commitSlot_of_live _ he)
  · exact (exec_mem (.jal target26) h).trans (commitSlot_of_live _ he)

/-- Settles O20: ID asks for nothing; MEM is the commit of `pc`. -/
theorem jumpRegisterByStage : Obligations.JumpRegisterByStage := fun rs rt rd shamt _ =>
  ⟨fun _ h hf => ⟨_, exec_id_of_live _ h hf, rfl, rfl, rfl⟩, fun _ h hd => exec_ex_of_live _ h hd,
    fun _ h he => (exec_mem (.jr rs rt rd shamt) h).trans (commitSlot_of_live _ he),
    fun _ h hm hw => exec_wb_of_no_write nofun h hm hw⟩

/-- Settles O21: ID notes the halt, WB ends the run. -/
theorem haltByStage : Obligations.HaltByStage := by
  intro s
  refine ⟨fun f h hf => ⟨_, exec_id_of_live _ h hf, rfl, rfl⟩, fun d h hd => exec_ex_of_live _ h hd,
    fun e h he => (exec_mem .halt h).trans (passSlot_of_live he),
    fun m h hm => (exec_halt_wb s h).trans (haltSlot_of_live hm)⟩

/-! ### ID of every instruction, from the bits of the word (40 R80, R81) -/

theorem setWidth_target26 (w : Word) : w.target26.setWidth 32 = w &&& 0x03FFFFFF#32 := by
  have hm : ∀ i, i < 32 → (0x03FFFFFF#32).getLsbD i = decide (i < 26) := by decide
  apply BitVec.eq_of_getLsbD_eq
  intro i hi
  rw [BitVec.getLsbD_and, hm i hi, BitVec.getLsbD_setWidth, Word.target26, BitVec.getLsbD_extractLsb', Nat.zero_add]
  by_cases h : i < 26 <;> simp [h, hi]

/-- The immediate by the opcode of the word: the absolute target for opcodes 2 and 3, else the sign-extended low half. -/
theorem immediateRule_of_decode {haltWord : Word} {f : IfId} (h : decode haltWord f.word = .known i) :
    immediateRule (.known i) f = if f.word ≠ haltWord ∧ (f.word.opcode = 0x02#6 ∨ f.word.opcode = 0x03#6)
      then (f.nextPc &&& 0xF0000000#32) ||| ((f.word &&& 0x03FFFFFF#32) <<< 2)
      else (f.word.extractLsb' 0 16).signExtend 32 := by
  have hw := encode_of_decode_known _ _ _ h
  by_cases hh : f.word = haltWord
  · rw [if_neg (by simp [hh])]
    obtain rfl : i = .halt := by rw [hh, decode_haltWord] at h; exact (Decoded.known.inj h).symm
    rfl
  rw [← setWidth_target26]
  cases i with
  | halt => exact absurd hw hh
  | j | jal => rw [if_pos ⟨hh, by rw [hw]; simp [encode]⟩]; rfl
  | sll | srl | sra | jr | add | sub | and | or | nor | slt => rw [if_neg (by rw [hw]; simp [encode])]; rfl
  | beq | bne | addi | slti | andi | ori | lw | sw => rw [if_neg (by rw [hw]; simp [encode])]; rfl

/-- Settles O22: the record by the bits of the word, the stall controller by whether the instruction is halt or a control
instruction. -/
theorem idOfEveryInstruction : Obligations.IdOfEveryInstruction := by
  intro i s f h hf hdec
  rw [exec_id i s f h hf (encode_of_decode_known _ _ _ hdec), idRecord, immediateRule_of_decode hdec]
  by_cases hi : i = .halt
  · subst hi
    simp only [if_true, decide_true, Bool.or_true]; rfl
  · simp only [hi, if_false, decide_false, Bool.or_false]
    by_cases hc : isControl (.known i) = true
    · simp only [hc, if_true]; rfl
    · simp only [hc]; rfl

/-! ### Unused fields (30 R57) -/

/-- After ID an instruction is its row in EX, its slot in MEM and the write-back. -/
theorem exec_congr_of_not_id {i' : Instr} (h : s.scratch.stage ≠ .id) (hex : exRecord i = exRecord i')
    (hmem : memSlot i = memSlot i') (hi : i ≠ .halt) (hi' : i' ≠ .halt) : exec i s = exec i' s := by
  cases hst : s.scratch.stage with
  | id => exact absurd hst h
  | ex => rw [exec_ex i s hst, exec_ex i' s hst, hex]
  | mem => rw [exec_mem i hst, exec_mem i' hst, hmem]
  | wb => rw [exec_wb i s hst hi, exec_wb i' s hst hi']

/-- Settles O23: neither the row nor the slot of these instructions names the field. -/
theorem unusedFieldsAreIgnored : Obligations.UnusedFieldsAreIgnored := by
  intro rs rs' rt rt' rd rd' shamt shamt' s h
  refine ⟨?_, ?_, ?_, ?_, ?_, ?_, ?_, ?_, ?_, ?_⟩
  all_goals exact exec_congr_of_not_id h rfl rfl nofun nofun

end Sys2Proof.Machine
end

section
/-! PROOFS. One tick (spec 40, 60): what a step that runs to its end leaves, and what a step that ends the run leaves. -/

namespace Sys2Proof.Machine

variable {s t : State}

/-! ### Inversion: everything a step can do, by whether the machine runs after it -/

/-- A step after which the machine runs was ended by no stage. -/
theorem step_running (h : step s = .next t) (ht : t.run = .running) :
    s.run = .running ∧ wbGoesOn s ∧ memGoesOn s ∧ exGoesOn s ∧
      (frozenIn s = true ∨ (pcAfterMem s).toNat ≤ 0xFFFFC) ∧ t = afterTick s := by
  obtain ⟨hr, rfl⟩ := step_next_iff.mp h
  rcases tickRule_cases s hr with ⟨m, -, -, he⟩ | ⟨-, e, rs, rt, imm16, -, -, -, he⟩ | ⟨-, -, d, kind, -, -, he⟩ |
    ⟨-, -, -, -, -, he⟩ | ⟨hwb, hmem, hex, hif, he⟩
  · rw [he] at ht; cases ht
  · rw [he] at ht; cases ht
  · rw [he] at ht; cases ht
  · rw [he] at ht; cases ht
  · exact ⟨hr, hwb, hmem, hex, hif, he⟩

theorem step_eq_afterTick (h : step s = .next t) (ht : t.run = .running) : t = afterTick s := by
  obtain ⟨-, -, -, -, -, ht⟩ := step_running h ht
  exact ht

theorem step_goesOn (hr : s.run = .running) (hwb : wbGoesOn s) (hmem : memGoesOn s) (hex : exGoesOn s)
    (hif : frozenIn s = true ∨ (pcAfterMem s).toNat ≤ 0xFFFFC) : step s = .next (afterTick s) :=
  step_next_iff.mpr ⟨hr, (tickRule_goesOn s hr hwb hmem hex hif).symm⟩

/-- A step that ends the run drops the latches it primed. -/
theorem step_ended (h : step s = .next t) (ht : t.run ≠ .running) :
    t.ifId = s.ifId ∧ t.idEx = s.idEx ∧ t.exMem = s.exMem ∧ t.memWb = s.memWb := by
  obtain ⟨hr, rfl⟩ := step_next_iff.mp h
  rcases tickRule_cases s hr with ⟨m, -, -, he⟩ | ⟨-, e, rs, rt, imm16, -, -, -, he⟩ | ⟨-, -, d, kind, -, -, he⟩ |
    ⟨-, -, -, -, -, he⟩ | ⟨-, -, -, -, he⟩
  · rw [he]; exact ⟨rfl, rfl, rfl, rfl⟩
  · rw [he]; exact ⟨rfl, rfl, rfl, rfl⟩
  · rw [he]; exact ⟨rfl, rfl, rfl, rfl⟩
  · rw [he]; exact ⟨rfl, rfl, rfl, rfl⟩
  · rw [he] at ht; exact absurd hr ht

/-- Only WB and only of the halt instruction halts the machine. -/
theorem step_halted (h : step s = .next t) (ht : t.run = .halted) :
    s.run = .running ∧ (∃ m, s.memWb = .live m ∧ m.instr.op = .known .halt) ∧
      t = { s with run := .halted, scratch := Scratch.idle } := by
  obtain ⟨hr, rfl⟩ := step_next_iff.mp h
  rcases tickRule_cases s hr with ⟨m, hm, ho, he⟩ | ⟨-, e, rs, rt, imm16, -, -, -, he⟩ | ⟨-, -, d, kind, -, -, he⟩ |
    ⟨-, -, -, -, -, he⟩ | ⟨-, -, -, -, he⟩
  · exact ⟨hr, ⟨m, hm, ho⟩, he⟩
  · rw [he] at ht; cases ht
  · rw [he] at ht; cases ht
  · rw [he] at ht; cases ht
  · rw [he] at ht; exact absurd (hr.symm.trans ht) (by decide)

/-- What no step changes. -/
theorem step_frame (h : step s = .next t) :
    t.hi = s.hi ∧ t.lo = s.lo ∧ t.haltWord = s.haltWord ∧ t.scratch = Scratch.idle := by
  obtain ⟨hr, rfl⟩ := step_next_iff.mp h
  rcases tickRule_cases s hr with ⟨m, -, -, he⟩ | ⟨-, e, rs, rt, imm16, -, -, -, he⟩ | ⟨-, -, d, kind, -, -, he⟩ |
    ⟨-, -, -, -, -, he⟩ | ⟨-, -, -, -, he⟩ <;> rw [he] <;> exact ⟨rfl, rfl, rfl, rfl⟩

/-- A step leaves memory as it was (WB or MEM ended it) or as its MEM left it. -/
theorem step_mem (h : step s = .next t) : t.mem = s.mem ∨ t.mem = memAfterMem s := by
  obtain ⟨hr, rfl⟩ := step_next_iff.mp h
  rcases tickRule_cases s hr with ⟨m, -, -, he⟩ | ⟨-, e, rs, rt, imm16, -, -, -, he⟩ | ⟨-, -, d, kind, -, -, he⟩ |
    ⟨-, -, -, -, -, he⟩ | ⟨-, -, -, -, he⟩
  · rw [he]; exact .inl rfl
  · rw [he]; exact .inl rfl
  · rw [he]; exact .inr rfl
  · rw [he]; exact .inr rfl
  · rw [he]; exact .inr rfl

/-- MEM leaves memory as it was, or as the write of a `sw` in bounds leaves it. -/
theorem memAfterMem_cases (s : State) : memAfterMem s = s.mem ∨
    ∃ e rs rt imm16, s.exMem = .live e ∧ e.instr.op = .known (.sw rs rt imm16) ∧
      s.mem.writeWord e.aluOut e.storeValue = some (memAfterMem s) := by
  unfold memAfterMem
  cases s.exMem with
  | bubble => exact .inl rfl
  | live e =>
    dsimp only
    split
    next rs rt imm16 ho =>
      cases hw : s.mem.writeWord e.aluOut e.storeValue with
      | none => exact .inl rfl
      | some m => exact .inr ⟨e, rs, rt, imm16, rfl, ho, hw⟩
    · exact .inl rfl

/-! ### What a latch holds after a tick that runs to its end -/

@[simp] theorem afterTick_run (s : State) : (afterTick s).run = s.run := rfl
@[simp] theorem afterTick_haltWord (s : State) : (afterTick s).haltWord = s.haltWord := rfl
@[simp] theorem afterTick_x (s : State) : (afterTick s).x = regsAfterMem s := rfl
@[simp] theorem afterTick_mem (s : State) : (afterTick s).mem = memAfterMem s := rfl
@[simp] theorem afterTick_idEx (s : State) : (afterTick s).idEx = nextIdEx s := rfl
@[simp] theorem afterTick_exMem (s : State) : (afterTick s).exMem = nextExMem s := rfl
@[simp] theorem afterTick_memWb (s : State) : (afterTick s).memWb = nextMemWb s := rfl
@[simp] theorem afterTick_haltSeen (s : State) : (afterTick s).haltSeen = haltAfterId s := rfl
theorem afterTick_fetchStall (s : State) :
    (afterTick s).fetchStall = if stallAfterId s = 0 then 0 else stallAfterId s - 1 := rfl

theorem afterTick_pc_frozen (h : frozenIn s = true) : (afterTick s).pc = pcAfterMem s := if_pos h
theorem afterTick_ifId_frozen (h : frozenIn s = true) : (afterTick s).ifId = .bubble := if_pos h
theorem afterTick_pc_fetch (h : frozenIn s = false) : (afterTick s).pc = pcAfterMem s + 4#32 :=
  if_neg (Bool.eq_false_iff.mp h)
theorem afterTick_ifId_fetch (h : frozenIn s = false) : (afterTick s).ifId =
    .live { word := (memAfterMem s).wordAt (pcAfterMem s).toNat, nextPc := pcAfterMem s + 4#32 } :=
  if_neg (Bool.eq_false_iff.mp h)

theorem nextIdEx_of_live {f : IfId} (h : s.ifId = .live f) :
    nextIdEx s = .live (idRecord (decode s.haltWord f.word) f s.x) := by simp only [nextIdEx, h]
theorem nextIdEx_eq_live {d : IdEx} (h : nextIdEx s = .live d) :
    ∃ f, s.ifId = .live f ∧ d = idRecord (decode s.haltWord f.word) f s.x := by
  unfold nextIdEx at h
  cases hf : s.ifId with
  | bubble => rw [hf] at h; cases h
  | live f => rw [hf] at h; exact ⟨f, rfl, (Latch.live.inj h).symm⟩
theorem nextIdEx_of_bubble (h : s.ifId = .bubble) : nextIdEx s = .bubble := by simp only [nextIdEx, h]

theorem nextExMem_of_live {d : IdEx} {i : Instr} (h : s.idEx = .live d) (ho : d.instr.op = .known i) :
    nextExMem s = .live (exRecord i d) := by simp only [nextExMem, h, ho]
theorem nextExMem_eq_live {e : ExMem} (h : nextExMem s = .live e) :
    ∃ d i, s.idEx = .live d ∧ d.instr.op = .known i ∧ e = exRecord i d := by
  unfold nextExMem at h
  cases hd : s.idEx with
  | bubble => rw [hd] at h; cases h
  | live d =>
    rw [hd] at h; dsimp only at h
    split at h
    next i ho => exact ⟨d, i, rfl, ho, (Latch.live.inj h).symm⟩
    · cases h
theorem nextExMem_of_bubble (h : s.idEx = .bubble) : nextExMem s = .bubble := by simp only [nextExMem, h]

/-- An instruction in ID_EX that EX does not end the tick on is a known one. -/
theorem exGoesOn_known (h : exGoesOn s) {d : IdEx} (hd : s.idEx = .live d) : ∃ i, d.instr.op = .known i := by
  obtain ⟨h1, h2⟩ := h d hd
  cases ho : d.instr.op with
  | known i => exact ⟨i, rfl⟩
  | unknownOpcode => exact absurd ho h1
  | unknownFunct => exact absurd ho h2

theorem nextMemWb_of_live {e : ExMem} (h : s.exMem = .live e) : ∃ v, nextMemWb s = .live (forwardRecord e v) := by
  unfold nextMemWb
  rw [h]; dsimp only
  split <;> exact ⟨_, rfl⟩
theorem nextMemWb_eq_live {m : MemWb} (h : nextMemWb s = .live m) :
    ∃ e v, s.exMem = .live e ∧ m = forwardRecord e v := by
  cases he : s.exMem with
  | bubble => simp only [nextMemWb, he, reduceCtorEq] at h
  | live e =>
    obtain ⟨v, hv⟩ := nextMemWb_of_live he
    exact ⟨e, v, rfl, Latch.live.inj (h.symm.trans hv)⟩
theorem nextMemWb_of_bubble (h : s.exMem = .bubble) : nextMemWb s = .bubble := by simp only [nextMemWb, h]

/-! ### What EX carries along -/

@[simp] theorem exRecord_instr (i : Instr) (d : IdEx) : (exRecord i d).instr = d.instr := by cases i <;> rfl
@[simp] theorem exRecord_fallthroughPc (i : Instr) (d : IdEx) : (exRecord i d).fallthroughPc = d.nextPc := by
  cases i <;> rfl
@[simp] theorem exRecord_regWrite (i : Instr) (d : IdEx) : (exRecord i d).regWrite = writesInWb i := by cases i <;> rfl

end Sys2Proof.Machine
end

section
/-! PROOFS. The invariants (spec 10, 40): memory stays canonical, the latches stay coherent with the words they carry, and the
stall controller stays in step with the pipeline. -/

namespace Sys2Proof.Machine

variable {s t : State}

/-! ### Memory -/

theorem memAfterMem_wf (h : s.mem.wf = true) : (memAfterMem s).wf = true := by
  rcases memAfterMem_cases s with hm | ⟨e, rs, rt, imm16, -, -, hw⟩
  · rwa [hm]
  · exact Memory.writeWord_wf _ _ _ _ hw h

theorem memAfterMem_seed (s : State) : (memAfterMem s).seed = s.mem.seed := by
  rcases memAfterMem_cases s with hm | ⟨e, rs, rt, imm16, -, -, hw⟩
  · rw [hm]
  · exact Memory.writeWord_seed _ _ _ _ hw

/-- Settles O44: a step leaves memory alone or as its MEM left it, and a write in bounds keeps the canonical form. -/
theorem memoryStaysCanonical : Obligations.MemoryStaysCanonical := by
  intro s t hwf h
  rcases step_mem h with hm | hm
  · rwa [hm]
  · rw [hm]; exact memAfterMem_wf hwf

/-! ### The latches and the words they carry -/

theorem idRecord_coherent (haltWord : Word) (f : IfId) (x : Regs) :
    (idRecord (decode haltWord f.word) f x).coherent haltWord := ⟨rfl, rfl, rfl, rfl⟩

/-- EX sends a result to the register the instruction names. -/
theorem exRecord_destIndex {haltWord : Word} {i : Instr} {d : IdEx} (hi : decode haltWord d.instr.word = .known i)
    (hrt : d.rtIndex = d.instr.word.rt) (hrd : d.rdIndex = d.instr.word.rd) :
    (exRecord i d).destIndex = destIndexOf i := by
  have hw := encode_of_decode_known _ _ _ hi
  rw [hw] at hrt hrd
  cases i with
  | add | sub | and | or | nor | slt | sll | srl | sra => exact hrd.trans (encodeR_rd ..)
  | addi | andi | ori | slti | lw => exact hrt.trans (encodeI_rt ..)
  | jr | j | jal | beq | bne | sw | halt => rfl

theorem exRecord_coherent {haltWord : Word} {i : Instr} {d : IdEx} (hd : d.coherent haltWord) (hi : d.instr.op = .known i) :
    (exRecord i d).coherent haltWord := by
  obtain ⟨hop, hrt, hrd, -⟩ := hd
  have hdec : decode haltWord d.instr.word = .known i := hop.symm.trans hi
  exact ⟨i, by rwa [exRecord_instr], by rwa [exRecord_instr], exRecord_regWrite i d, exRecord_destIndex hdec hrt hrd⟩

/-- MEM hands the instruction and its destination on. -/
theorem forwardRecord_coherent {haltWord : Word} {e : ExMem} (he : e.coherent haltWord) (v : Word) :
    (forwardRecord e v).coherent haltWord := he

theorem afterTick_latchesCoherent (h : s.latchesCoherent) : (afterTick s).latchesCoherent := by
  obtain ⟨hidEx, hexMem, -⟩ := h
  refine ⟨fun d hd => ?_, fun e he => ?_, fun m hm => ?_⟩
  · obtain ⟨f, -, rfl⟩ := nextIdEx_eq_live hd
    exact idRecord_coherent _ _ _
  · obtain ⟨d, i, hd, hi, rfl⟩ := nextExMem_eq_live he
    exact exRecord_coherent (hidEx d hd) hi
  · obtain ⟨e, v, he, rfl⟩ := nextMemWb_eq_live hm
    exact forwardRecord_coherent (hexMem e he) v

/-- Settles O45: a tick that runs to its end forms each latch from a coherent one, a tick that is cut keeps the latches. -/
theorem latchesStayCoherent : Obligations.LatchesStayCoherent := by
  intro s t hc h
  by_cases ht : t.run = .running
  · rw [step_eq_afterTick h ht]
    exact afterTick_latchesCoherent hc
  · obtain ⟨-, hidEx, hexMem, hmemWb⟩ := step_ended h ht
    obtain ⟨-, -, hhw, -⟩ := step_frame h
    unfold State.latchesCoherent
    rwa [hidEx, hexMem, hmemWb, hhw]

/-! ### The shape of the pipeline -/

/-- Every instruction moves one stage on, whatever is asked of it. -/
theorem exists_idEx_afterTick (P : Decoded → Prop) :
    (∃ d, (afterTick s).idEx = .live d ∧ P d.instr.op) ↔ ∃ f, s.ifId = .live f ∧ P (decode s.haltWord f.word) := by
  constructor
  · rintro ⟨d, hd, hP⟩
    obtain ⟨f, hf, rfl⟩ := nextIdEx_eq_live hd
    exact ⟨f, hf, hP⟩
  · rintro ⟨f, hf, hP⟩
    exact ⟨_, nextIdEx_of_live hf, hP⟩

theorem exists_exMem_afterTick (P : Decoded → Prop) (hex : exGoesOn s) :
    (∃ e, (afterTick s).exMem = .live e ∧ P e.instr.op) ↔ ∃ d, s.idEx = .live d ∧ P d.instr.op := by
  constructor
  · rintro ⟨e, he, hP⟩
    obtain ⟨d, i, hd, -, rfl⟩ := nextExMem_eq_live he
    exact ⟨d, hd, by rwa [exRecord_instr] at hP⟩
  · rintro ⟨d, hd, hP⟩
    obtain ⟨i, hi⟩ := exGoesOn_known hex hd
    exact ⟨_, nextExMem_of_live hd hi, by rwa [exRecord_instr]⟩

theorem exists_memWb_afterTick (P : Decoded → Prop) :
    (∃ m, (afterTick s).memWb = .live m ∧ P m.instr.op) ↔ ∃ e, s.exMem = .live e ∧ P e.instr.op := by
  constructor
  · rintro ⟨m, hm, hP⟩
    obtain ⟨e, v, he, rfl⟩ := nextMemWb_eq_live hm
    exact ⟨e, he, hP⟩
  · rintro ⟨e, he, hP⟩
    obtain ⟨v, hv⟩ := nextMemWb_of_live he
    exact ⟨_, hv, hP⟩

theorem controlInEx_afterTick : controlInEx (afterTick s) ↔ controlInId s :=
  exists_idEx_afterTick (fun op => isControl op = true)
theorem controlInMem_afterTick (hex : exGoesOn s) : controlInMem (afterTick s) ↔ controlInEx s :=
  exists_exMem_afterTick (fun op => isControl op = true) hex
theorem controlInWb_afterTick : controlInWb (afterTick s) ↔ controlInMem s :=
  exists_memWb_afterTick (fun op => isControl op = true)

theorem haltInEx_afterTick : haltInEx (afterTick s) ↔ haltInId s := by
  unfold haltInId
  simp only [← decode_eq_halt_iff]
  exact exists_idEx_afterTick (fun op => op = .known .halt)
theorem haltInMem_afterTick (hex : exGoesOn s) : haltInMem (afterTick s) ↔ haltInEx s :=
  exists_exMem_afterTick (fun op => op = .known .halt) hex
theorem haltInWbSlot_afterTick : haltInWbSlot (afterTick s) ↔ haltInMem s :=
  exists_memWb_afterTick (fun op => op = .known .halt)

/-! A bubble in IF_ID asks for nothing. -/

theorem controlIn_of_bubble (h : s.ifId = .bubble) : controlIn s = false := by simp only [controlIn, h]
theorem haltIn_of_bubble (h : s.ifId = .bubble) : haltIn s = false := by simp only [haltIn, h]
theorem not_controlInId_of_bubble (h : s.ifId = .bubble) : ¬ controlInId s := by
  rw [← controlIn_iff, controlIn_of_bubble h]; simp
theorem not_haltInId_of_bubble (h : s.ifId = .bubble) : ¬ haltInId s := by
  rw [← haltIn_iff, haltIn_of_bubble h]; simp

/-- The halt instruction is no control instruction. -/
theorem not_controlInId_of_haltInId (h : haltInId s) : ¬ controlInId s := by
  obtain ⟨f, hf, hw⟩ := h
  rintro ⟨g, hg, hc⟩
  obtain rfl := Latch.live.inj (hf.symm.trans hg)
  rw [(decode_eq_halt_iff _ _).mpr hw] at hc
  cases hc

/-- The stall count after the tick: 2 with a control instruction in ID, else one less. -/
theorem fetchStall_afterTick_of_control (h : controlInId s) : (afterTick s).fetchStall = 2 := by
  rw [afterTick_fetchStall, stallAfterId, if_pos ((controlIn_iff s).mpr h)]; rfl
theorem fetchStall_afterTick_of_not_control (h : ¬ controlInId s) :
    (afterTick s).fetchStall = if s.fetchStall = 0 then 0 else s.fetchStall - 1 := by
  rw [afterTick_fetchStall, stallAfterId, if_neg ((controlIn_iff s).not.mpr h)]

theorem haltSeen_afterTick_iff : (afterTick s).haltSeen = true ↔ s.haltSeen = true ∨ haltInId s := by
  rw [afterTick_haltSeen, haltAfterId, Bool.or_eq_true, haltIn_iff]

theorem ifId_afterTick_of_frozen (h : fetchFrozen s) : (afterTick s).ifId = .bubble :=
  afterTick_ifId_frozen ((frozenIn_iff s).mpr h)

/-- The stall count follows the control instruction through ID_EX, EX_MEM and out of the count. -/
theorem afterTick_stallShape (hex : exGoesOn s) (h : s.stallShape) : (afterTick s).stallShape := by
  unfold State.stallShape at h ⊢
  rw [controlInEx_afterTick, controlInMem_afterTick hex, controlInWb_afterTick]
  rcases h with ⟨hst, hif, hinEx, hinMem, -⟩ | ⟨hst, hif, hid, hinMem, -⟩ | ⟨hst, hinEx, hinMem, -⟩
  · have hc := not_controlInId_of_bubble hif
    refine .inr (.inl ⟨?_, ?_, nextIdEx_of_bubble hif, hinEx, hinMem⟩)
    · rw [fetchStall_afterTick_of_not_control hc, hst]; rfl
    · exact ifId_afterTick_of_frozen (.inr (.inr (.inl (by rw [hst]; decide))))
  · have hc := not_controlInId_of_bubble hif
    have hinEx : ¬ controlInEx s := by rintro ⟨d, hd, -⟩; rw [hid] at hd; cases hd
    refine .inr (.inr ⟨?_, hc, hinEx, fun _ => ⟨?_, nextIdEx_of_bubble hif, nextExMem_of_bubble hid⟩⟩)
    · rw [fetchStall_afterTick_of_not_control hc, hst]; rfl
    · exact ifId_afterTick_of_frozen (.inr (.inr (.inl (by rw [hst]; decide))))
  · by_cases hc : controlInId s
    · exact .inl ⟨fetchStall_afterTick_of_control hc, ifId_afterTick_of_frozen (.inr (.inr (.inr hc))), hc, hinEx, hinMem⟩
    · refine .inr (.inr ⟨?_, hc, hinEx, fun hwb => absurd hwb hinMem⟩)
      rw [fetchStall_afterTick_of_not_control hc, hst]; rfl

/-- In a pipeline in shape a live word in IF_ID means that nothing is pending. -/
theorem fetchStall_of_ifId_live (h : s.stallShape) {f : IfId} (hf : s.ifId = .live f) : s.fetchStall = 0 := by
  rcases h with ⟨-, hif, -⟩ | ⟨-, hif, -⟩ | ⟨hst, -⟩
  · rw [hf] at hif; cases hif
  · rw [hf] at hif; cases hif
  · exact hst

theorem haltSeen_of_ifId_live (h : s.haltShape) {f : IfId} (hf : s.ifId = .live f) :
    s.haltSeen = false ∧ ¬ haltInEx s ∧ ¬ haltInMem s ∧ ¬ haltInWbSlot s := by
  rcases h with h | ⟨-, -, hif, -⟩
  · exact h
  · rw [hf] at hif; cases hif

/-- `halt_seen` follows the halt instruction from ID to WB, behind which nothing is fetched. -/
theorem afterTick_haltShape (hwb : wbGoesOn s) (hex : exGoesOn s) (hstall : s.stallShape) (h : s.haltShape) :
    (afterTick s).haltShape := by
  have hnot : ¬ haltInWbSlot s := by rintro ⟨m, hm, ho⟩; exact hwb m hm ho
  unfold State.haltShape
  rw [haltInEx_afterTick, haltInMem_afterTick hex, haltInWbSlot_afterTick]
  rcases h with ⟨hseen, hinEx, hinMem, -⟩ | ⟨hseen, hst, hif, hwhere⟩
  · by_cases hh : haltInId s
    · obtain ⟨f, hf, -⟩ := id hh
      refine .inr ⟨haltSeen_afterTick_iff.mpr (.inr hh), ?_, ifId_afterTick_of_frozen (.inr (.inl hh)),
        .inl ⟨hh, hinEx, hinMem⟩⟩
      rw [fetchStall_afterTick_of_not_control (not_controlInId_of_haltInId hh), fetchStall_of_ifId_live hstall hf]; rfl
    · refine .inl ⟨?_, hh, hinEx, hinMem⟩
      rw [Bool.eq_false_iff, Ne, haltSeen_afterTick_iff, hseen]
      simp [hh]
  · have hh := not_haltInId_of_bubble hif
    refine .inr ⟨haltSeen_afterTick_iff.mpr (.inl hseen), ?_, ifId_afterTick_of_frozen (.inl hseen), ?_⟩
    · rw [fetchStall_afterTick_of_not_control (not_controlInId_of_bubble hif), hst]; rfl
    · rcases hwhere with ⟨hinEx, hinMem, -⟩ | ⟨hid, hinMem, -⟩ | ⟨-, -, hinWb⟩
      · exact .inr (.inl ⟨nextIdEx_of_bubble hif, hinEx, hinMem⟩)
      · exact .inr (.inr ⟨nextIdEx_of_bubble hif, nextExMem_of_bubble hid, hinMem⟩)
      · exact absurd hinWb hnot

/-- Settles O46: a step after which the machine runs is a tick that runs to its end, and that keeps both halves of the shape. -/
theorem pipelineKeepsItsShape : Obligations.PipelineKeepsItsShape := by
  intro s t hs h ht
  obtain ⟨hr, hwb, -, hex, -, rfl⟩ := step_running h ht
  obtain ⟨hstall, hhalt⟩ := hs hr
  exact ⟨afterTick_stallShape hex hstall, afterTick_haltShape hwb hex hstall hhalt⟩

/-- Settles O47: of the places `halt_seen` can speak of, MEM_WB is the one from which the run ends. -/
theorem haltedPipelineIsEmpty : Obligations.HaltedPipelineIsEmpty := by
  intro s t hs h ht
  obtain ⟨hr, hm, rfl⟩ := step_halted h ht
  obtain ⟨-, hhalt⟩ := hs hr
  rcases hhalt with ⟨-, -, -, hnot⟩ | ⟨hseen, hst, hif, ⟨-, -, hnot⟩ | ⟨-, -, hnot⟩ | ⟨hid, hex, hin⟩⟩
  · exact absurd hm hnot
  · exact absurd hm hnot
  · exact absurd hm hnot
  · exact ⟨hif, hid, hex, hseen, hst, hin⟩

/-! ### The state after reset (10 R26) -/

theorem resetWith_ready (haltWord : Word) (seed : List Byte) : (State.resetWith haltWord seed).ready :=
  ⟨rfl, rfl, rfl, rfl, rfl, rfl, rfl⟩

theorem resetWith_readByte (haltWord : Word) (seed : List Byte) (a : Nat) :
    (State.resetWith haltWord seed).mem.readByte a = seed.getD a 0#8 := rfl

theorem regsReset_read_sp : Regs.reset.read 29#5 = 0x00008000#32 := by decide

theorem regsReset_read_other : ∀ i : RegIdx, i ≠ 29#5 → Regs.reset.read i = 0#32 := by decide

/-- Settles O11: the registers are 32 values to look at, memory reads as the seed and then zeros. -/
theorem resetStateIsTheTable : Obligations.ResetStateIsTheTable := by
  intro haltWord seed _
  refine ⟨rfl, regsReset_read_sp, regsReset_read_other, rfl, rfl, fun a ha => ?_, fun a b hb => ?_,
    resetWith_ready haltWord seed, rfl⟩
  · rw [resetWith_readByte, List.getD_eq_default _ _ ha]
  · rw [resetWith_readByte, List.getD_eq_getElem?_getD, hb]; rfl

/-- An empty pipeline has the shape of one, and no latch to be coherent. -/
theorem ready_pipelineShape (h : s.ready) : s.pipelineShape := by
  obtain ⟨-, hif, hid, hex, hwb, hst, hseen⟩ := h
  intro _
  have hdead : ∀ {α : Type} {l : Latch α} {P : α → Prop}, l = .bubble → ¬ ∃ r, l = .live r ∧ P r := by
    rintro α l P rfl ⟨r, hr, -⟩; cases hr
  exact ⟨.inr (.inr ⟨hst, hdead hid, hdead hex, fun hc => absurd hc (hdead hwb)⟩),
    .inl ⟨hseen, hdead hid, hdead hex, hdead hwb⟩⟩

theorem ready_latchesCoherent (h : s.ready) : s.latchesCoherent := by
  obtain ⟨-, -, hid, hex, hwb, -, -⟩ := h
  refine ⟨fun d hd => ?_, fun e he => ?_, fun m hm => ?_⟩
  · rw [hid] at hd; cases hd
  · rw [hex] at he; cases he
  · rw [hwb] at hm; cases hm

/-- Settles O12: an empty pipeline meets the invariants of the pipeline, and no cell is listed. -/
theorem resetMeetsTheInvariants : Obligations.ResetMeetsTheInvariants := fun haltWord seed hlen =>
  ⟨regsReset_read_zero, Memory.wf_empty seed hlen, ready_latchesCoherent (resetWith_ready haltWord seed),
    ready_pipelineShape (resetWith_ready haltWord seed), rfl⟩

end Sys2Proof.Machine
end

section
/-! PROOFS. The statements about one tick (spec 40, 60): what a tick that runs to its end does to every instruction, the fetch,
the registers and memory, and what ends a tick. -/

namespace Sys2Proof.Machine

variable {s t : State}

/-- Settles O24: the tick is the pseudocode's, by `tick_eq`. -/
theorem stepIsTheTickPseudocode : Obligations.StepIsTheTickPseudocode :=
  fun _ hr => step_next_iff.mpr ⟨hr, rfl⟩

/-! ### A slot that holds an instruction (40 R70) -/

theorem wbStage_of_live {m : MemWb} {i : Instr} (h : s.memWb = .live m) (ho : m.instr.op = .known i) :
    wbStage s = exec i (s.atStage .wb) := by simp only [wbStage, h, ho, execDecoded]
theorem memStage_of_live {e : ExMem} {i : Instr} (h : s.exMem = .live e) (ho : e.instr.op = .known i) :
    memStage s = exec i (s.atStage .mem) := by simp only [memStage, h, ho, execDecoded]
theorem exStage_of_live {d : IdEx} {i : Instr} (h : s.idEx = .live d) (ho : d.instr.op = .known i) :
    exStage s = exec i (s.atStage .ex) := by simp only [exStage, h, ho, execDecoded]
theorem idStage_of_live {f : IfId} {i : Instr} (h : s.ifId = .live f) (ho : decode s.haltWord f.word = .known i) :
    idStage s = exec i (s.atStage .id) := by simp only [idStage, h, ho, execDecoded]

theorem step_eq_stages (hr : s.run = .running) : step s =
    endTick (andThen (andThen (andThen (andThen (wbStage s.beginTick) memStage) exStage) idStage) ifStage) := by
  simp only [step, tickIfRunning, hr, tick]

/-- What the stages before IF leave alone: their input latches and the word that is halt. -/
def SameLatches (s t : State) : Prop :=
  t.ifId = s.ifId ∧ t.idEx = s.idEx ∧ t.exMem = s.exMem ∧ t.haltWord = s.haltWord

/-- The answer of a stage keeps the latches of `s`. -/
def KeepsLatches (s : State) (r : Result) : Prop := ∀ t, r = .next t → SameLatches s t

theorem wbStage_keepsLatches (s : State) : KeepsLatches s (wbStage s) := by
  intro t ht
  rw [wbStage_eq, wbRule_atStage] at ht
  obtain rfl := Host.Outcome.next.inj ht
  unfold wbRule
  repeat' split
  all_goals exact ⟨rfl, rfl, rfl, rfl⟩

theorem memStage_keepsLatches (s : State) : KeepsLatches s (memStage s) := by
  intro t ht
  rw [memStage_eq, memRule_atStage] at ht
  obtain rfl := Host.Outcome.next.inj ht
  unfold memRule
  repeat' split
  all_goals exact ⟨rfl, rfl, rfl, rfl⟩

theorem exStage_keepsLatches (s : State) : KeepsLatches s (exStage s) := by
  intro t ht
  rw [exStage_eq, exRule_atStage] at ht
  obtain rfl := Host.Outcome.next.inj ht
  unfold exRule
  repeat' split
  all_goals exact ⟨rfl, rfl, rfl, rfl⟩

theorem andThen_keepsLatches {r : Result} {stage : State → Result} (hr : KeepsLatches s r)
    (hstage : ∀ u, KeepsLatches u (stage u)) : KeepsLatches s (andThen r stage) := by
  intro t ht
  cases r with
  | next u =>
    obtain ⟨h1, h2, h3, h4⟩ := hr u rfl
    unfold andThen at ht; dsimp only at ht
    split at ht
    · obtain ⟨g1, g2, g3, g4⟩ := hstage u t ht
      exact ⟨g1.trans h1, g2.trans h2, g3.trans h3, g4.trans h4⟩
    · obtain rfl := Host.Outcome.next.inj ht
      exact ⟨h1, h2, h3, h4⟩
  | fault _ => cases ht
  | refused _ => cases ht

/-- Two stages that agree on what is answered follow it alike. -/
theorem andThen_congr {r : Result} {f g : State → Result} (h : ∀ t, r = .next t → f t = g t) : andThen r f = andThen r g := by
  cases r with
  | next t => simp only [andThen, h t rfl]
  | fault _ => rfl
  | refused _ => rfl

/-- With an instruction in every slot a step is `exec` of the four, then IF: no stage changes a latch a later one reads. -/
theorem step_eq_execs {iw im ie id : Instr} {m : MemWb} {e : ExMem} {d : IdEx} {f : IfId} (hr : s.run = .running)
    (hm : s.memWb = .live m) (hiw : m.instr.op = .known iw) (he : s.exMem = .live e) (him : e.instr.op = .known im)
    (hd : s.idEx = .live d) (hie : d.instr.op = .known ie) (hf : s.ifId = .live f)
    (hid : decode s.haltWord f.word = .known id) : step s =
      endTick (andThen (andThen (andThen (andThen (exec iw (s.beginTick.atStage .wb)) (fun t => exec im (t.atStage .mem)))
        (fun t => exec ie (t.atStage .ex))) (fun t => exec id (t.atStage .id))) ifStage) := by
  have kwb : KeepsLatches s.beginTick (wbStage s.beginTick) := wbStage_keepsLatches _
  have kmem := andThen_keepsLatches kwb memStage_keepsLatches
  have kex := andThen_keepsLatches kmem exStage_keepsLatches
  have emem : andThen (wbStage s.beginTick) memStage = andThen (wbStage s.beginTick) (fun t => exec im (t.atStage .mem)) :=
    andThen_congr fun t ht => by
      obtain ⟨-, -, hex, -⟩ := kwb t ht
      exact memStage_of_live (hex.trans he) him
  have eex : ∀ r, KeepsLatches s.beginTick r → andThen r exStage = andThen r (fun t => exec ie (t.atStage .ex)) :=
    fun r hk => andThen_congr fun t ht => by
      obtain ⟨-, hidEx, -, -⟩ := hk t ht
      exact exStage_of_live (hidEx.trans hd) hie
  have eid : ∀ r, KeepsLatches s.beginTick r → andThen r idStage = andThen r (fun t => exec id (t.atStage .id)) :=
    fun r hk => andThen_congr fun t ht => by
      obtain ⟨hifId, -, -, hhw⟩ := hk t ht
      exact idStage_of_live (hifId.trans hf) (by rw [hhw]; exact hid)
  rw [step_eq_stages hr, eid _ kex, eex _ kmem, emem, wbStage_of_live (s := s.beginTick) hm hiw]

/-- Settles O25: the tick, the stages at a live latch, and both together. -/
theorem stepRunsTheDecodedInstructions : Obligations.StepRunsTheDecodedInstructions :=
  ⟨fun _ => ⟨step_eq_stages, fun _ _ => wbStage_of_live, fun _ _ => memStage_of_live, fun _ _ => exStage_of_live,
    fun _ _ => idStage_of_live⟩, fun _ _ _ _ _ _ _ _ _ => step_eq_execs⟩

/-! ### The kinds of tick that run to their end -/

theorem frozenIn_eq_false_iff : frozenIn s = false ↔
    s.haltSeen = false ∧ haltIn s = false ∧ s.fetchStall = 0 ∧ controlIn s = false := by
  unfold frozenIn haltAfterId stallAfterId
  cases s.haltSeen <;> cases haltIn s <;> cases controlIn s <;> simp

theorem not_fetchFrozen_iff : ¬ fetchFrozen s ↔ frozenIn s = false := by rw [← frozenIn_iff, Bool.not_eq_true]

theorem readWord_eq_some_iff {m : Memory} {a v : Word} : m.readWord a = some v ↔ a.toNat ≤ 0xFFFFC ∧ m.wordAt a.toNat = v := by
  by_cases h : a.toNat ≤ 0xFFFFC
  · simp [readWord_inBounds m a h, h]
  · rw [Memory.readWord_out m a (inBounds_false a (by omega))]; simp [h]

/-- A tick that fetches: no stage ends it and Fetch is not frozen. -/
theorem step_fetch {w : Word} (hr : s.run = .running) (hwb : wbGoesOn s) (hmem : memGoesOn s) (hex : exGoesOn s)
    (hz : frozenIn s = false) (hw : (memAfterMem s).readWord (pcAfterMem s) = some w) :
    step s = .next { s with
      x := regsAfterMem s, mem := memAfterMem s, pc := pcAfterMem s + 4#32,
      ifId := .live { word := w, nextPc := pcAfterMem s + 4#32 }, idEx := nextIdEx s, exMem := nextExMem s,
      memWb := nextMemWb s, scratch := Scratch.idle } := by
  obtain ⟨hb, rfl⟩ := readWord_eq_some_iff.mp hw
  obtain ⟨hseen, hhalt, hst, hctl⟩ := frozenIn_eq_false_iff.mp hz
  rw [step_goesOn hr hwb hmem hex (.inr hb)]
  simp only [afterTick, hz, stallAfterId, haltAfterId, hseen, hhalt, hst, hctl, Bool.false_eq_true, if_false, if_true,
    Bool.or_false]

/-- A tick in which Fetch is frozen and no stage ends it. -/
theorem step_frozen (hr : s.run = .running) (hwb : wbGoesOn s) (hmem : memGoesOn s) (hex : exGoesOn s)
    (hz : fetchFrozen s) :
    step s = .next { s with
      x := regsAfterMem s, mem := memAfterMem s, pc := pcAfterMem s, ifId := .bubble, idEx := nextIdEx s,
      exMem := nextExMem s, memWb := nextMemWb s,
      fetchStall := if stallAfterId s = 0 then 0 else stallAfterId s - 1, haltSeen := haltAfterId s,
      scratch := Scratch.idle } := by
  have hz' := (frozenIn_iff s).mpr hz
  rw [step_goesOn hr hwb hmem hex (.inl hz')]
  simp only [afterTick, hz', if_true]

/-! A bubble ends no tick and commits nothing. -/

theorem wbGoesOn_of_bubble (h : s.memWb = .bubble) : wbGoesOn s := by intro m hm; rw [h] at hm; cases hm
theorem memGoesOn_of_bubble (h : s.exMem = .bubble) : memGoesOn s := by intro e he; rw [h] at he; cases he
theorem exGoesOn_of_bubble (h : s.idEx = .bubble) : exGoesOn s := by intro d hd; rw [h] at hd; cases hd

theorem regsAfterWb_of_bubble (h : s.memWb = .bubble) : regsAfterWb s = s.x := by simp only [regsAfterWb, h]
theorem regsAfterMem_of_bubble (h : s.exMem = .bubble) : regsAfterMem s = regsAfterWb s := by simp only [regsAfterMem, h]
theorem memAfterMem_of_bubble (h : s.exMem = .bubble) : memAfterMem s = s.mem := by simp only [memAfterMem, h]
theorem pcAfterMem_of_bubble (h : s.exMem = .bubble) : pcAfterMem s = s.pc := by simp only [pcAfterMem, h]

/-- Settles O26: nothing is in the way of the fetch, and nothing else is in the pipeline. -/
theorem firstTickFetchesAtPc : Obligations.FirstTickFetchesAtPc := by
  rintro s w ⟨hr, hif, hid, hex, hwb, hst, hseen⟩ hw
  have hz : frozenIn s = false :=
    frozenIn_eq_false_iff.mpr ⟨hseen, haltIn_of_bubble hif, hst, controlIn_of_bubble hif⟩
  have hfetch : (memAfterMem s).readWord (pcAfterMem s) = some w := by
    rwa [memAfterMem_of_bubble hex, pcAfterMem_of_bubble hex]
  rw [step_fetch hr (wbGoesOn_of_bubble hwb) (memGoesOn_of_bubble hex) (exGoesOn_of_bubble hid) hz hfetch]
  rw [regsAfterMem_of_bubble hex, regsAfterWb_of_bubble hwb, memAfterMem_of_bubble hex, pcAfterMem_of_bubble hex,
    nextIdEx_of_bubble hif, nextExMem_of_bubble hid, nextMemWb_of_bubble hex, hid, hex, hwb]

/-! ### The fetch of a tick (40 R85, R86) -/

theorem fetchStall_afterTick_of_fetch (h : frozenIn s = false) : (afterTick s).fetchStall = 0 := by
  obtain ⟨-, -, hst, hctl⟩ := frozenIn_eq_false_iff.mp h
  rw [afterTick_fetchStall, stallAfterId, hctl, hst]; rfl

/-- Settles O27: frozen or not, by the fields of the state a tick leaves. -/
theorem fetchOfEveryTick : Obligations.FetchOfEveryTick := by
  intro s t hr h ht
  obtain ⟨-, -, -, -, hif, rfl⟩ := step_running h ht
  constructor
  · intro hz
    have hz' := (frozenIn_iff s).mpr hz
    refine ⟨ifId_afterTick_of_frozen hz, afterTick_pc_frozen hz', fetchStall_afterTick_of_control, fun hc => ?_⟩
    rw [fetchStall_afterTick_of_not_control hc]
    generalize s.fetchStall = n
    revert n; decide
  · intro hz
    have hz' := not_fetchFrozen_iff.mp hz
    have hb : (pcAfterMem s).toNat ≤ 0xFFFFC := hif.resolve_left (by rw [hz']; simp)
    exact ⟨_, readWord_inBounds _ _ hb, afterTick_ifId_fetch hz', afterTick_pc_fetch hz', fetchStall_afterTick_of_fetch hz'⟩

/-! ### Instructions move on, and read registers as of the start of the tick -/

/-- Settles O29: the three latches after the tick, by what was in the three before it. -/
theorem instructionsAdvanceOneStage : Obligations.InstructionsAdvanceOneStage := by
  intro s t hr h ht
  obtain ⟨-, -, -, hex, -, rfl⟩ := step_running h ht
  refine ⟨fun f hf => ⟨_, nextIdEx_of_live hf, rfl, rfl⟩, fun d hd => ?_, fun e he => ?_, nextIdEx_of_bubble,
    nextExMem_of_bubble, nextMemWb_of_bubble⟩
  · obtain ⟨i, hi⟩ := exGoesOn_known hex hd
    exact ⟨_, nextExMem_of_live hd hi, exRecord_instr i d, exRecord_fallthroughPc i d⟩
  · obtain ⟨v, hv⟩ := nextMemWb_of_live he
    exact ⟨_, hv, rfl, rfl⟩

/-- Settles O30: the record ID forms reads the registers the tick began with. -/
theorem registersAreReadAsOfTickStart : Obligations.RegistersAreReadAsOfTickStart := by
  intro s t f hr h ht hf
  rw [step_eq_afterTick h ht]
  exact ⟨_, nextIdEx_of_live hf, rfl, rfl⟩

/-! ### What freezes Fetch (40 R83) -/

theorem isControl_decodeR (w : Word) : isControl (decodeR w) = false := by
  simp only [decodeR, apply_ite isControl]
  simp only [isControl, ite_self]

theorem isControl_decodeIJ_iff (w : Word) :
    isControl (decodeIJ w) = true ↔ w.opcode ∈ [0x02#6, 0x03#6, 0x04#6, 0x05#6] := by
  simp only [decodeIJ, apply_ite isControl]
  simp only [isControl]
  generalize w.opcode = opcode
  revert opcode; decide

theorem isControl_decode_iff {haltWord w : Word} (h : w ≠ haltWord) :
    isControl (decode haltWord w) = true ↔ w.opcode ∈ [0x02#6, 0x03#6, 0x04#6, 0x05#6] := by
  rw [decode_of_ne _ _ h]
  by_cases ho : w.opcode = 0x00#6
  · rw [if_pos ho, isControl_decodeR, ho]; decide
  · rw [if_neg ho, isControl_decodeIJ_iff]

/-- Settles O31: of the four reasons for a frozen Fetch only a control instruction in ID is left. -/
theorem stallRequestedByControlOnly : Obligations.StallRequestedByControlOnly := by
  intro s t f hr hseen hst hf hne h ht
  rw [step_eq_afterTick h ht, ← isControl_decode_iff hne]
  constructor
  · intro hc
    have hcid : controlInId s := ⟨f, hf, hc⟩
    exact ⟨fetchStall_afterTick_of_control hcid, ifId_afterTick_of_frozen (.inr (.inr (.inr hcid)))⟩
  · intro hc
    have hz : frozenIn s = false := frozenIn_eq_false_iff.mpr
      ⟨hseen, by simp [haltIn, hf, hne], hst, by simpa [controlIn, hf] using hc⟩
    refine ⟨fetchStall_afterTick_of_fetch hz, ?_⟩
    rw [afterTick_ifId_fetch hz]; simp

/-! ### What a tick writes (10 R12, 20 R37) -/

/-- Settles O32: by what a step leaves in memory and what MEM leaves. -/
theorem onlyStoresWriteMemory : Obligations.OnlyStoresWriteMemory := by
  intro s t h
  rcases step_mem h with hm | hm
  · exact .inl hm
  rcases memAfterMem_cases s with hs | ⟨e, rs, rt, imm16, he, ho, hw⟩
  · exact .inl (hm.trans hs)
  · obtain ⟨hb, -⟩ := Memory.writeWord_some _ _ _ _ hw
    rw [inBounds_iff] at hb
    exact .inr ⟨hm, e, rs, rt, imm16, he, ho, by unfold Config.memSize at hb; omega⟩

/-- A register WB changes is the destination of the instruction in MEM_WB, which is not halt. -/
theorem regsAfterWb_changed {r : RegIdx} (h : (regsAfterWb s).read r ≠ s.x.read r) :
    ∃ m, s.memWb = .live m ∧ m.regWrite = true ∧ m.destIndex = r ∧ m.instr.op ≠ .known .halt := by
  unfold regsAfterWb at h
  cases hm : s.memWb with
  | bubble => rw [hm] at h; exact absurd rfl h
  | live m =>
    rw [hm] at h; dsimp only at h
    split at h
    next hw =>
      obtain ⟨ho, hrw⟩ := hw
      refine ⟨m, rfl, hrw, ?_, ho⟩
      by_contra hne
      exact h (Regs.read_write_other _ _ _ _ (Ne.symm hne))
    · exact absurd rfl h

/-- MEM leaves the registers as WB left them, or `jal` has written register 31. -/
theorem regsAfterMem_cases (s : State) : regsAfterMem s = regsAfterWb s ∨
    ∃ e target26, s.exMem = .live e ∧ e.instr.op = .known (.jal target26) ∧
      regsAfterMem s = (regsAfterWb s).write 31#5 e.fallthroughPc := by
  unfold regsAfterMem
  cases s.exMem with
  | bubble => exact .inl rfl
  | live e =>
    dsimp only
    split
    next target26 ho => exact .inr ⟨e, target26, rfl, ho, rfl⟩
    · exact .inl rfl

theorem regsAfterMem_changed {r : RegIdx} (h : (regsAfterMem s).read r ≠ s.x.read r) :
    (∃ m, s.memWb = .live m ∧ m.regWrite = true ∧ m.destIndex = r ∧ m.instr.op ≠ .known .halt) ∨
    (r = 31#5 ∧ ∃ e target26, s.exMem = .live e ∧ e.instr.op = .known (.jal target26)) := by
  rcases regsAfterMem_cases s with hx | ⟨e, target26, he, ho, hx⟩
  · rw [hx] at h; exact .inl (regsAfterWb_changed h)
  · by_cases hr : r = 31#5
    · exact .inr ⟨hr, e, target26, he, ho⟩
    · rw [hx, Regs.read_write_other _ _ _ _ hr] at h
      exact .inl (regsAfterWb_changed h)

/-- Settles O33: the registers a step leaves are those before it, those after its WB or those after its MEM. -/
theorem onlyWbAndJalWriteRegisters : Obligations.OnlyWbAndJalWriteRegisters := by
  intro s t h
  refine ⟨fun ht => by rw [step_eq_afterTick h ht, afterTick_x], fun r hne => ?_⟩
  obtain ⟨hr, rfl⟩ := step_next_iff.mp h
  rcases tickRule_x hr with hx | hx | hx <;> rw [hx] at hne
  · exact absurd rfl hne
  · exact .inl (regsAfterWb_changed hne)
  · exact regsAfterMem_changed hne

/-- Settles O34: ID of each tick reads the registers that tick began with, and the second began with what the first's WB
wrote. -/
theorem writeBackIsReadableFromTheNextTick : Obligations.WriteBackIsReadableFromTheNextTick := by
  intro s t u m f g hr hst ht htu hu hm ho hw h0 hjal hf hfrs hg hgrs
  have ex := step_eq_afterTick hst ht
  have eu := step_eq_afterTick htu hu
  have hx : t.x.read m.destIndex = m.result := by
    rcases regsAfterMem_cases s with hx | ⟨e, target26, he, hop, -⟩
    · rw [ex, afterTick_x, hx, regsAfterWb, hm]; dsimp only
      rw [if_pos ⟨ho, hw⟩, Regs.read_write_same _ _ _ h0]
    · exact absurd hop (hjal e target26 he)
  constructor
  · refine ⟨_, by rw [ex]; exact nextIdEx_of_live hf, ?_⟩
    rw [← hfrs]; rfl
  · refine ⟨_, by rw [eu]; exact nextIdEx_of_live hg, ?_⟩
    rw [← hx, ← hgrs]; rfl

/-- Settles O35: the fetch reads the memory MEM left, at the address the `sw` wrote. -/
theorem storeIsFetchedInItsMemTick : Obligations.StoreIsFetchedInItsMemTick := by
  intro s t e rs rt imm16 hr hwf he ho ha hz h ht
  obtain ⟨-, -, hmem, -, -, rfl⟩ := step_running h ht
  have hb := hmem e he rs rt imm16 (.inr ho)
  have hpc : pcAfterMem s = s.pc := by simp only [pcAfterMem, he, ho]
  have hm : memAfterMem s = s.mem.setWordAt e.aluOut.toNat e.storeValue := by
    simp only [memAfterMem, he, ho, writeWord_inBounds _ _ _ hb, Option.getD_some]
  rw [afterTick_ifId_fetch (not_fetchFrozen_iff.mp hz), hpc, hm, ← ha,
    Memory.wordAt_setWordAt _ _ _ hwf (by unfold Config.memSize; omega)]

/-! ### What ends a tick (40 R73, 60 R141 to R143) -/

/-- Settles O36: WB of halt ends the tick before anything else runs. -/
theorem haltInWbEndsTheTick : Obligations.HaltInWbEndsTheTick :=
  fun s m hr hm ho => step_next_iff.mpr ⟨hr, (tickRule_wbEnds s m hm ho).symm⟩

/-- Settles O37: MEM of an access out of bounds ends the tick after WB. -/
theorem dataAccessOutOfBoundsEndsTheRun : Obligations.DataAccessOutOfBoundsEndsTheRun := by
  intro s e rs rt imm16 hr hwb he ho hb
  rw [step_next_iff.mpr ⟨hr, rfl⟩, tickRule_memEnds s hr hwb e he rs rt imm16 ho hb]

/-- Settles O38: EX of an unknown word ends the tick after MEM. -/
theorem unknownWordEndsTheRunInEx : Obligations.UnknownWordEndsTheRunInEx := by
  intro s d hr hwb hmem hd
  constructor
  · intro ho
    rw [step_next_iff.mpr ⟨hr, rfl⟩, tickRule_exEnds s hr hwb hmem d hd .unknownOpcode (.inl ⟨ho, rfl⟩)]; rfl
  · intro ho
    rw [step_next_iff.mpr ⟨hr, rfl⟩, tickRule_exEnds s hr hwb hmem d hd .unknownFunct (.inr ⟨ho, rfl⟩)]; rfl

/-- Settles O39: the fetch out of bounds ends the tick after ID, which, Fetch not being frozen, has asked for nothing. -/
theorem fetchOutOfBoundsEndsTheRun : Obligations.FetchOutOfBoundsEndsTheRun := by
  intro s hr hwb hmem hex hz hb
  have hz' := not_fetchFrozen_iff.mp hz
  obtain ⟨hseen, hhalt, hst, hctl⟩ := frozenIn_eq_false_iff.mp hz'
  rw [step_next_iff.mpr ⟨hr, rfl⟩, tickRule_ifEnds s hr hwb hmem hex hz' hb]
  simp only [afterId, afterMem, stallAfterId, haltAfterId, hseen, hhalt, hst, hctl, Bool.false_eq_true, if_false,
    Bool.or_false]

/-- Settles O40: the tick no stage ends, by `step_goesOn`. -/
theorem tickGoesOnUnlessAStageEndsIt : Obligations.TickGoesOnUnlessAStageEndsIt :=
  fun s hr hwb hmem hex hif =>
    ⟨afterTick s, step_goesOn hr hwb hmem hex (hif.imp_left (frozenIn_iff s).mpr), hr⟩

/-- Settles O41: by the three run statuses. -/
theorem ticksExactlyWhenRunning : Obligations.TicksExactlyWhenRunning := by
  intro s
  refine ⟨fun hr => ⟨_, step_next_iff.mpr ⟨hr, rfl⟩⟩, fun hh => ?_, fun kind info hk => ?_⟩
  · simp only [step, tickIfRunning, hh]
  · simp only [step, tickIfRunning, hk]

/-- Settles O42: a tick that is cut drops what it primed. -/
theorem endedTickKeepsTheLatches : Obligations.EndedTickKeepsTheLatches := fun _ _ => step_ended

/-- Settles O43: by the fields no tick touches; the seed, because a write in memory keeps it. -/
theorem hiLoAndParametersNeverChange : Obligations.HiLoAndParametersNeverChange := by
  intro s t h
  obtain ⟨hhi, hlo, hhw, hsc⟩ := step_frame h
  refine ⟨hhi, hlo, hhw, ?_, hsc⟩
  rcases step_mem h with hm | hm
  · rw [hm]
  · rw [hm, memAfterMem_seed]

end Sys2Proof.Machine
end

section
/-! PROOFS. Several ticks (spec 40 R88, R90; 45 R129): the three bubbles behind a control instruction, the drain behind halt, and
the two words fetched behind `jr`. -/

namespace Sys2Proof.Machine

variable {s t : State}

/-- The fetch of a tick that runs to its end with Fetch not frozen. -/
theorem ifId_of_fetch (h : step s = .next t) (ht : t.run = .running) (hz : frozenIn s = false) :
    ∃ w, (memAfterMem s).readWord (pcAfterMem s) = some w ∧
      t.ifId = .live { word := w, nextPc := pcAfterMem s + 4#32 } ∧ t.pc = pcAfterMem s + 4#32 := by
  obtain ⟨hr, -, -, -, -, -⟩ := step_running h ht
  obtain ⟨-, hfetch⟩ := fetchOfEveryTick s t hr h ht
  obtain ⟨w, hw, hif, hpc, -⟩ := hfetch (not_fetchFrozen_iff.mpr hz)
  exact ⟨w, hw, hif, hpc⟩

/-- With a bubble in IF_ID the stall count goes down and `halt_seen` stays. -/
theorem afterTick_of_ifId_bubble (hif : s.ifId = .bubble) :
    (afterTick s).fetchStall = (if s.fetchStall = 0 then 0 else s.fetchStall - 1) ∧ (afterTick s).haltSeen = s.haltSeen := by
  refine ⟨fetchStall_afterTick_of_not_control (not_controlInId_of_bubble hif), ?_⟩
  rw [afterTick_haltSeen, haltAfterId, haltIn_of_bubble hif, Bool.or_false]

/-- Settles O48: the count is 2, 1 and 0 after the three ticks, IF_ID a bubble after each; by then the control instruction has
left EX_MEM, so that the fourth tick fetches from the `pc` its MEM left. -/
theorem controlFreezesFetchForThreeTicks : Obligations.ControlFreezesFetchForThreeTicks := by
  intro s1 s2 s3 s4 s5 f hr1 hshape hf hctl h12 h23 h34 h45 hr5
  obtain ⟨hr2, -⟩ := step_next_iff.mp h23
  obtain ⟨hr3, -⟩ := step_next_iff.mp h34
  obtain ⟨hr4, -⟩ := step_next_iff.mp h45
  obtain ⟨-, -, -, hex2, -, e3⟩ := step_running h23 hr3
  have e2 := step_eq_afterTick h12 hr2
  have e4 := step_eq_afterTick h34 hr4
  have hc : controlInId s1 := ⟨f, hf, hctl⟩
  have hseen1 : s1.haltSeen = false := (haltSeen_of_ifId_live (hshape hr1).2 hf).1
  -- after the first tick
  have hif2 : s2.ifId = .bubble := by rw [e2]; exact ifId_afterTick_of_frozen (.inr (.inr (.inr hc)))
  have hst2 : s2.fetchStall = 2 := by rw [e2]; exact fetchStall_afterTick_of_control hc
  have hseen2 : s2.haltSeen = false := by
    rw [e2, Bool.eq_false_iff, Ne, haltSeen_afterTick_iff, hseen1]
    rintro (h | h)
    · cases h
    · exact not_controlInId_of_haltInId h hc
  have hid2 : s2.idEx = .live (idRecord (decode s1.haltWord f.word) f s1.x) := by rw [e2]; exact nextIdEx_of_live hf
  obtain ⟨i, hi⟩ := exGoesOn_known hex2 hid2
  -- after the second
  obtain ⟨hst3, hseen3⟩ := afterTick_of_ifId_bubble hif2
  rw [← e3, hst2] at hst3
  rw [← e3, hseen2] at hseen3
  have hz2 : fetchFrozen s2 := .inr (.inr (.inl (by rw [hst2]; decide)))
  have hif3 : s3.ifId = .bubble := by rw [e3]; exact ifId_afterTick_of_frozen hz2
  have hid3 : s3.idEx = .bubble := by rw [e3]; exact nextIdEx_of_bubble hif2
  have hex3 := nextExMem_of_live hid2 hi
  rw [← afterTick_exMem, ← e3] at hex3
  -- after the third
  obtain ⟨hst4, hseen4⟩ := afterTick_of_ifId_bubble hif3
  rw [← e4, hst3] at hst4
  rw [← e4, hseen3] at hseen4
  have hz3 : fetchFrozen s3 := .inr (.inr (.inl (by rw [hst3]; decide)))
  have hif4 : s4.ifId = .bubble := by rw [e4]; exact ifId_afterTick_of_frozen hz3
  have hex4 : s4.exMem = .bubble := by rw [e4]; exact nextExMem_of_bubble hid3
  have hpc4 : s4.pc = pcAfterMem s3 := by rw [e4]; exact afterTick_pc_frozen ((frozenIn_iff s3).mpr hz3)
  -- the fourth tick fetches
  have hz4 : frozenIn s4 = false :=
    frozenIn_eq_false_iff.mpr ⟨hseen4, haltIn_of_bubble hif4, hst4, controlIn_of_bubble hif4⟩
  obtain ⟨w, hw, hif5, -⟩ := ifId_of_fetch h45 hr5 hz4
  rw [memAfterMem_of_bubble hex4, pcAfterMem_of_bubble hex4] at hw
  rw [pcAfterMem_of_bubble hex4] at hif5
  exact ⟨_, hid2, rfl, hif2, hif3, hif4, hst4, _, hex3, exRecord_instr _ _, hpc4, w, hw, hif5⟩

/-- Settles O49: two fetches behind `jr`, and in the third tick the fetch at the register value that its MEM wrote to `pc`. -/
theorem jumpRegisterHasAShadowOfTwo : Obligations.JumpRegisterHasAShadowOfTwo := by
  intro s1 s2 s3 s4 f rs rt rd shamt w1 w2 w3 hr1 hpc1 hf hdec hz1 hz2 hz3 hpm1 hpm2 h12 h23 h34 hr4 hw1 hw2 hw3
  obtain ⟨hr2, -⟩ := step_next_iff.mp h23
  obtain ⟨hr3, -⟩ := step_next_iff.mp h34
  obtain ⟨w1', hw1', hif2, hpc2⟩ := ifId_of_fetch h12 hr2 (not_fetchFrozen_iff.mp hz1)
  obtain ⟨w2', hw2', hif3, -⟩ := ifId_of_fetch h23 hr3 (not_fetchFrozen_iff.mp hz2)
  obtain ⟨w3', hw3', hif4, hpc4⟩ := ifId_of_fetch h34 hr4 (not_fetchFrozen_iff.mp hz3)
  -- `jr` moves to EX_MEM, its target the register value read in ID
  have hid2 : s2.idEx = .live (idRecord (.known (.jr rs rt rd shamt)) f s1.x) := by
    rw [step_eq_afterTick h12 hr2, ← hdec]; exact nextIdEx_of_live hf
  have hex3 : s3.exMem = .live (exRecord (.jr rs rt rd shamt) (idRecord (.known (.jr rs rt rd shamt)) f s1.x)) := by
    rw [step_eq_afterTick h23 hr3]; exact nextExMem_of_live hid2 rfl
  have hrs : f.word.rs = rs := by rw [encode_of_decode_known _ _ _ hdec]; exact encodeR_rs ..
  have hpm3 : pcAfterMem s3 = s1.x.read rs := by
    rw [← hrs]; simp only [pcAfterMem, hex3, exRecord_instr, idRecord]; rfl
  rw [hpm1, hpc1] at hw1' hif2 hpc2
  rw [hpm2, hpc2] at hw2' hif3
  rw [hpm3] at hw3' hif4 hpc4
  obtain rfl := Option.some.inj (hw1.symm.trans hw1')
  obtain rfl := Option.some.inj (hw2.symm.trans hw2')
  obtain rfl := Option.some.inj (hw3.symm.trans hw3')
  rw [BitVec.add_assoc] at hif3
  exact ⟨hif2, hif3, hif4, hpc4⟩

/-- Settles O50: the halt instruction moves to MEM_WB in three ticks, Fetch frozen in each by it. -/
theorem haltDrainsThePipeline : Obligations.HaltDrainsThePipeline := by
  intro s1 s2 s3 s4 f hr1 _ hf hhalt h12 h23 h34 hr4
  obtain ⟨hr2, -⟩ := step_next_iff.mp h23
  obtain ⟨hr3, -⟩ := step_next_iff.mp h34
  obtain ⟨-, -, -, hex2, -, e3⟩ := step_running h23 hr3
  have e2 := step_eq_afterTick h12 hr2
  have e4 := step_eq_afterTick h34 hr4
  have hid : haltInId s1 := ⟨f, hf, hhalt⟩
  have hseen2 : s2.haltSeen = true := by rw [e2]; exact haltSeen_afterTick_iff.mpr (.inr hid)
  have hseen3 : s3.haltSeen = true := by rw [e3]; exact haltSeen_afterTick_iff.mpr (.inl hseen2)
  have hinEx : haltInEx s2 := by rw [e2]; exact haltInEx_afterTick.mpr hid
  have hinMem : haltInMem s3 := by rw [e3]; exact (haltInMem_afterTick hex2).mpr hinEx
  have hinWb : haltInWbSlot s4 := by rw [e4]; exact haltInWbSlot_afterTick.mpr hinMem
  obtain ⟨m, hm, ho⟩ := hinWb
  refine ⟨?_, ?_, ?_, haltInWbEndsTheTick s4 m hr4 hm ho⟩
  · rw [e2]; exact ifId_afterTick_of_frozen (.inr (.inl hid))
  · rw [e3]; exact ifId_afterTick_of_frozen (.inl hseen2)
  · rw [e4]; exact ifId_afterTick_of_frozen (.inl hseen3)

end Sys2Proof.Machine
end

section
/-! PROOFS. The drain behind halt and the straight line (spec 40 R90, 70 R170): how a run ends once halt is fetched, and what a
run of ALU instructions leaves in the registers, each reading them three writes late. -/

namespace Sys2Proof.Machine

variable {s t : State}

theorem runTicks_succ (n : Nat) (h : step s = .next t) : runTicks (n + 1) s = runTicks n t := by
  simp only [runTicks, h]

/-! ### The halt instruction on its way to WB (40 R90) -/

/-- ID_EX with the halt instruction fetched at `a`. -/
def haltRecord (haltWord a : Word) (x : Regs) : IdEx :=
  idRecord (.known .halt) { word := haltWord, nextPc := a + 4#32 } x

/-- The halt instruction, fetched at `a`, has passed IF_ID: nothing is fetched behind it. -/
structure Drains (s : State) (a : Word) : Prop where
  run : s.run = .running
  ifId : s.ifId = .bubble
  haltSeen : s.haltSeen = true
  fetchStall : s.fetchStall = 0
  pc : pcAfterMem s = a + 4#32
  wb : wbGoesOn s

theorem Drains.step_eq {a : Word} (h : Drains s a) (hmem : memGoesOn s) (hex : exGoesOn s) :
    step s = .next { s with x := regsAfterMem s, mem := memAfterMem s, pc := a + 4#32, idEx := .bubble,
                            exMem := nextExMem s, memWb := nextMemWb s, scratch := Scratch.idle } := by
  rw [step_frozen h.run h.wb hmem hex (.inl h.haltSeen), h.pc, nextIdEx_of_bubble h.ifId]
  simp only [stallAfterId, haltAfterId, controlIn_of_bubble h.ifId, h.fetchStall, h.haltSeen, h.ifId, Bool.false_eq_true,
    if_false, if_true, Bool.true_or]

/-- The last tick: halt in MEM_WB, nothing behind it. -/
theorem runTicks_haltInWb {a : Word} (hr : s.run = .running) (hif : s.ifId = .bubble) (hid : s.idEx = .bubble)
    (hex : s.exMem = .bubble) (hwb : s.memWb = haltInWb s.haltWord a) (hst : s.fetchStall = 0) (hseen : s.haltSeen = true)
    (hpc : s.pc = a + 4#32) : runTicks 1 s = .next (s.haltedAt a) := by
  rw [runTicks_succ 0 (haltInWbEndsTheTick s _ hr hwb rfl), State.haltedAt, ← hwb, ← hst, ← hpc, ← hseen, ← hif, ← hid,
    ← hex]
  rfl

/-- The last two ticks: WB of whatever is older runs in the first. -/
theorem runTicks_haltInExMem {a : Word} {x : Regs} (h : Drains s a) (hid : s.idEx = .bubble)
    (hex : s.exMem = .live (exDefaults (haltRecord s.haltWord a x))) :
    runTicks 2 s = .next ({ s with x := regsAfterWb s }.haltedAt a) := by
  have hmem : memGoesOn s := by
    intro e he rs rt imm16 ho
    obtain rfl := Latch.live.inj (hex.symm.trans he)
    rcases ho with ho | ho <;> cases ho
  have hx : regsAfterMem s = regsAfterWb s := by simp only [regsAfterMem, hex]; rfl
  have hm : memAfterMem s = s.mem := by simp only [memAfterMem, hex]; rfl
  have hnext : nextMemWb s = haltInWb s.haltWord a := by simp only [nextMemWb, hex]; rfl
  rw [runTicks_succ 1 (h.step_eq hmem (exGoesOn_of_bubble hid)), hx, hm]
  exact runTicks_haltInWb h.run h.ifId rfl (nextExMem_of_bubble hid) hnext h.fetchStall h.haltSeen rfl

/-- The last three ticks: MEM of the instruction before halt runs in the first, its WB in the second. -/
theorem runTicks_haltInIdEx {a : Word} {x : Regs} (h : Drains s a) (hmem : memGoesOn s)
    (hid : s.idEx = .live (haltRecord s.haltWord a x)) (hno : ¬ haltInMem s) :
    runTicks 3 s = .next ({ s with x := regsAfterWb (afterTick s), mem := memAfterMem s }.haltedAt a) := by
  have hex : exGoesOn s := by
    intro d hd
    obtain rfl := Latch.live.inj (hid.symm.trans hd)
    exact ⟨nofun, nofun⟩
  have hnext : nextExMem s = .live (exDefaults (haltRecord s.haltWord a x)) := nextExMem_of_live hid rfl
  rw [runTicks_succ 2 (h.step_eq hmem hex)]
  refine runTicks_haltInExMem (x := x) ⟨h.run, h.ifId, h.haltSeen, h.fetchStall, ?_, fun m hm ho => ?_⟩ rfl hnext
  · simp only [pcAfterMem, hnext]; rfl
  · exact hno (haltInWbSlot_afterTick.mp ⟨m, hm, ho⟩)

/-! ### ALU instructions in flight -/

/-- The 13 instructions with an architectural effect on one register and none on memory or `pc` (41 to 43). -/
def isAlu : Instr → Bool
  | .lw .. => false
  | i => writesInWb i

/-- A pending register write; to register 0 it is none. -/
abbrev Pending := RegIdx × Word
def noWrite : Pending := (0#5, 0#32)
def Regs.apply (x : Regs) (w : Pending) : Regs := x.write w.1 w.2

theorem Regs.apply_of_zero (x : Regs) {w : Pending} (h : w.1 = 0#5) : x.apply w = x := by
  rw [Regs.apply, h, Regs.write_zero]
@[simp] theorem Regs.apply_noWrite (x : Regs) : x.apply noWrite = x := Regs.apply_of_zero x rfl

/-- What an ALU instruction that reads `x` will write. -/
def aluWrite (x : Regs) (i : Instr) : Pending := (aluEffect x i).getD noWrite

theorem isAlu_of_aluEffect {x : Regs} {i : Instr} {w : Pending} (h : aluEffect x i = some w) : isAlu i = true := by
  cases i <;> first | rfl | cases h

theorem aluWrite_of_aluEffect {x : Regs} {i : Instr} {w : Pending} (h : aluEffect x i = some w) : aluWrite x i = w := by
  rw [aluWrite, h]; rfl

/-- The register and the value that EX computes are those of the architectural effect, on the registers ID has read. -/
theorem exRecord_idRecord_of_isAlu {haltWord : Word} {i : Instr} {f : IfId} (x : Regs) (hi : isAlu i = true)
    (hdec : decode haltWord f.word = .known i) :
    ((exRecord i (idRecord (.known i) f x)).destIndex, (exRecord i (idRecord (.known i) f x)).aluOut) = aluWrite x i := by
  have hw := encode_of_decode_known _ _ _ hdec
  cases i with
  | jr | j | jal | beq | bne | lw | sw | halt => cases hi
  | add | sub | and | or | nor | slt | sll | srl | sra =>
    simp only [exRecord, idRecord, aluWrite, aluEffect, Option.getD_some, hw, encode, encodeR_rs, encodeR_rt, encodeR_rd]
  | addi | andi | ori | slti =>
    simp only [exRecord, idRecord, aluWrite, aluEffect, Option.getD_some, immediateRule, hw, encode, encodeI_rs, encodeI_rt,
      encodeI_imm16]

/-! What each of the three latches behind ID carries: a bubble or an ALU instruction, by the write it will make. -/

def memWbCarries (l : Latch MemWb) (w : Pending) : Prop :=
  match l with
  | .bubble => w = noWrite
  | .live m => m.instr.op ≠ .known .halt ∧ (if m.regWrite then (m.destIndex, m.result) else noWrite) = w

def exMemCarries (l : Latch ExMem) (w : Pending) : Prop :=
  match l with
  | .bubble => w = noWrite
  | .live e => e.regWrite = true ∧ (e.destIndex, e.aluOut) = w ∧ ∃ i, e.instr.op = .known i ∧ isAlu i = true

def idExCarries (l : Latch IdEx) (w : Pending) : Prop :=
  match l with
  | .bubble => w = noWrite
  | .live d => ∃ i, d.instr.op = .known i ∧ isAlu i = true ∧ ((exRecord i d).destIndex, (exRecord i d).aluOut) = w

/-- The machine runs and nothing asked for in an earlier tick freezes Fetch. -/
structure Going (s : State) : Prop where
  run : s.run = .running
  fetchStall : s.fetchStall = 0
  haltSeen : s.haltSeen = false

/-- A pipeline of ALU instructions and bubbles, with the writes they will make, the oldest first. -/
structure Flow (s : State) (w1 w2 w3 : Pending) : Prop extends Going s where
  memWb : memWbCarries s.memWb w1
  exMem : exMemCarries s.exMem w2
  idEx : idExCarries s.idEx w3

section
variable {w1 w2 w3 : Pending}

theorem memWbCarries.wbGoesOn (h : memWbCarries s.memWb w1) : wbGoesOn s := by
  intro m hm
  rw [hm] at h
  exact h.1

theorem memWbCarries.regsAfterWb_eq (h : memWbCarries s.memWb w1) : regsAfterWb s = s.x.apply w1 := by
  unfold regsAfterWb
  cases hm : s.memWb with
  | bubble => rw [hm] at h; obtain rfl := h; rw [Regs.apply_noWrite]
  | live m =>
    rw [hm] at h
    obtain ⟨ho, rfl⟩ := h
    by_cases hw : m.regWrite = true
    · simp only [ho, hw, ne_eq, not_false_eq_true, and_self, if_true, Regs.apply]
    · simp only [hw, and_false, if_false, Regs.apply_noWrite, Bool.false_eq_true]

/-- An ALU instruction or a bubble in EX_MEM commits nothing in MEM. -/
theorem exMemCarries.commits (h : exMemCarries s.exMem w2) : memGoesOn s ∧ ¬ haltInMem s ∧
    regsAfterMem s = regsAfterWb s ∧ memAfterMem s = s.mem ∧ pcAfterMem s = s.pc ∧
    memWbCarries (nextMemWb s) w2 := by
  cases he : s.exMem with
  | bubble =>
    rw [he] at h
    refine ⟨memGoesOn_of_bubble he, ?_, regsAfterMem_of_bubble he, memAfterMem_of_bubble he, pcAfterMem_of_bubble he, ?_⟩
    · rintro ⟨e, hl, -⟩; rw [he] at hl; cases hl
    · rw [nextMemWb_of_bubble he]; exact h
  | live e =>
    rw [he] at h
    obtain ⟨hw, rfl, i, ho, hi⟩ := h
    have hno : ∀ {j}, e.instr.op = .known j → isAlu j = true := by
      intro j hj
      rw [ho] at hj
      obtain rfl := Decoded.known.inj hj
      exact hi
    simp only [regsAfterMem, memAfterMem, pcAfterMem, nextMemWb, he, ho]
    refine ⟨fun e' he' rs rt imm16 hop => ?_, ?_, ?_⟩
    · obtain rfl := Latch.live.inj (he.symm.trans he')
      rcases hop with hop | hop <;> cases hno hop
    · rintro ⟨e', he', hop⟩
      obtain rfl := Latch.live.inj (he.symm.trans he')
      cases hno hop
    · cases i with
      | jr | j | jal | beq | bne | lw | sw | halt => cases hi
      | _ => exact ⟨rfl, rfl, rfl, by rw [ho]; nofun, by simp only [hw, if_true]⟩

theorem idExCarries.exGoesOn (h : idExCarries s.idEx w3) : exGoesOn s := by
  intro d hd
  rw [hd] at h
  obtain ⟨i, ho, -⟩ := h
  rw [ho]; exact ⟨nofun, nofun⟩

theorem isAlu_writesInWb {i : Instr} (h : isAlu i = true) : writesInWb i = true := by
  cases i <;> first | rfl | cases h

theorem idExCarries.next (h : idExCarries s.idEx w3) : exMemCarries (nextExMem s) w3 := by
  cases hd : s.idEx with
  | bubble => rw [hd] at h; rw [nextExMem_of_bubble hd]; exact h
  | live d =>
    rw [hd] at h
    obtain ⟨i, ho, hi, hw⟩ := h
    rw [nextExMem_of_live hd ho]
    exact ⟨by rw [exRecord_regWrite, isAlu_writesInWb hi], hw, i, by rw [exRecord_instr]; exact ho, hi⟩

/-- An instruction in IF_ID that is neither halt nor a control instruction freezes nothing. -/
theorem Going.frozenIn_of_known {i : Instr} {f : IfId} (h : Going s) (hf : s.ifId = .live f)
    (hdec : decode s.haltWord f.word = .known i) (hnc : isControl (.known i) = false) (hnh : i ≠ .halt) :
    frozenIn s = false := by
  refine frozenIn_eq_false_iff.mpr ⟨h.haltSeen, ?_, h.fetchStall, ?_⟩
  · simp only [haltIn, hf, decide_eq_false_iff_not, ← decode_eq_halt_iff, hdec]
    exact fun h => hnh (Decoded.known.inj h)
  · simp only [controlIn, hf, hdec, hnc]

theorem isControl_of_isAlu {i : Instr} (h : isAlu i = true) : isControl (.known i) = false ∧ i ≠ .halt := by
  cases i with
  | jr | j | jal | beq | bne | lw | sw | halt => cases h
  | _ => exact ⟨rfl, nofun⟩

/-- The state after a tick of the flow that fetches `word`. -/
def State.flowed (s : State) (w : Pending) (word : Word) : State :=
  { s with x := s.x.apply w, pc := s.pc + 4#32, ifId := .live { word := word, nextPc := s.pc + 4#32 }, idEx := nextIdEx s,
           exMem := nextExMem s, memWb := nextMemWb s, scratch := Scratch.idle }

theorem Going.flowed (h : Going s) (w : Pending) (word : Word) : Going (s.flowed w word) :=
  ⟨h.run, h.fetchStall, h.haltSeen⟩

/-- A tick that fetches, with nothing but ALU instructions and bubbles in EX_MEM and MEM_WB. -/
theorem step_flowed {word : Word} (hr : s.run = .running) (hwb : memWbCarries s.memWb w1) (hmem : exMemCarries s.exMem w2)
    (hex : exGoesOn s) (hz : frozenIn s = false) (hword : s.mem.readWord s.pc = some word) :
    step s = .next (s.flowed w1 word) := by
  obtain ⟨hgo, -, hx, hm, hpc, -⟩ := hmem.commits
  rw [step_fetch hr hwb.wbGoesOn hgo hex hz (by rwa [hm, hpc]), hx, hm, hpc, hwb.regsAfterWb_eq]
  rfl

theorem Flow.flowed_flow {w : Pending} (h : Flow s w1 w2 w3) (hnext : idExCarries (nextIdEx s) w) (word : Word) :
    Flow (s.flowed w1 word) w2 w3 w := by
  obtain ⟨-, -, -, -, -, hwb⟩ := h.exMem.commits
  exact ⟨h.toGoing.flowed w1 word, hwb, h.idEx.next, hnext⟩

theorem nextIdEx_carries {i : Instr} {f : IfId} (hf : s.ifId = .live f) (hdec : decode s.haltWord f.word = .known i)
    (hi : isAlu i = true) : idExCarries (nextIdEx s) (aluWrite s.x i) := by
  rw [nextIdEx_of_live hf, hdec]
  exact ⟨i, rfl, hi, exRecord_idRecord_of_isAlu s.x hi hdec⟩

theorem Flow.step_eq {i : Instr} {f : IfId} {word : Word} (h : Flow s w1 w2 w3) (hf : s.ifId = .live f)
    (hdec : decode s.haltWord f.word = .known i) (hi : isAlu i = true) (hword : s.mem.readWord s.pc = some word) :
    step s = .next (s.flowed w1 word) ∧ Flow (s.flowed w1 word) w2 w3 (aluWrite s.x i) := by
  obtain ⟨hnc, hnh⟩ := isControl_of_isAlu hi
  exact ⟨step_flowed h.run h.memWb h.exMem h.idEx.exGoesOn (h.frozenIn_of_known hf hdec hnc hnh) hword,
    h.flowed_flow (nextIdEx_carries hf hdec hi) word⟩

/-- The state after the tick in which ID meets the halt instruction fetched at `a`. -/
def State.haltNoted (s : State) (a : Word) (w : Pending) : State :=
  { s with x := s.x.apply w, pc := a + 4#32, ifId := .bubble, idEx := .live (haltRecord s.haltWord a s.x),
           exMem := nextExMem s, memWb := nextMemWb s, haltSeen := true, scratch := Scratch.idle }

theorem step_haltNoted {a : Word} (h : Going s) (hwb : memWbCarries s.memWb w1)
    (hmem : exMemCarries s.exMem w2) (hex : exGoesOn s) (hf : s.ifId = .live { word := s.haltWord, nextPc := a + 4#32 })
    (ha : s.pc = a + 4#32) : step s = .next (s.haltNoted a w1) := by
  obtain ⟨hgo, -, hx, hm, hpc, -⟩ := hmem.commits
  have hhalt : haltInId s := ⟨_, hf, rfl⟩
  have hc : controlIn s = false := by
    rw [← Bool.not_eq_true, controlIn_iff]; exact not_controlInId_of_haltInId hhalt
  rw [step_frozen h.run hwb.wbGoesOn hgo hex (.inr (.inl hhalt)), hx, hm, hpc, hwb.regsAfterWb_eq, nextIdEx_of_live hf,
    decode_haltWord, stallAfterId, haltAfterId, hc, (haltIn_iff s).mpr hhalt, Bool.or_true, ha, State.haltNoted,
    haltRecord]
  simp only [h.fetchStall, Bool.false_eq_true, if_false, if_true]

/-- Then the run ends in three ticks, in which the instruction before halt has its MEM and its WB. -/
theorem runTicks_haltNoted {a : Word} (h : Going s) (hmem : exMemCarries s.exMem w2) (hgo : memGoesOn (s.haltNoted a w1))
    (hno : ¬ haltInMem (s.haltNoted a w1)) (hpc : pcAfterMem (s.haltNoted a w1) = a + 4#32) :
    runTicks 3 (s.haltNoted a w1) = .next ({ s with
      x := regsAfterWb (afterTick (s.haltNoted a w1)), mem := memAfterMem (s.haltNoted a w1) }.haltedAt a) := by
  obtain ⟨-, -, -, -, -, hnext⟩ := hmem.commits
  have hdrains : Drains (s.haltNoted a w1) a :=
    ⟨h.run, rfl, rfl, h.fetchStall, hpc, memWbCarries.wbGoesOn (s := s.haltNoted a w1) hnext⟩
  exact runTicks_haltInIdEx hdrains hgo rfl hno

/-- Once halt is fetched, the pending writes are made in order and nothing else changes. -/
theorem Flow.drain {a : Word} (h : Flow s w1 w2 w3) (hf : s.ifId = .live { word := s.haltWord, nextPc := a + 4#32 })
    (ha : s.pc = a + 4#32) :
    runTicks 4 s = .next ({ s with x := ((s.x.apply w1).apply w2).apply w3 }.haltedAt a) := by
  obtain ⟨-, -, -, -, -, hnext⟩ := h.exMem.commits
  have hwb : memWbCarries (s.haltNoted a w1).memWb w2 := hnext
  have hmem : exMemCarries (s.haltNoted a w1).exMem w3 := h.idEx.next
  obtain ⟨hgo, hno, hx, hm, hpc, hnext'⟩ := hmem.commits
  have hlast : regsAfterWb (afterTick (s.haltNoted a w1)) = ((s.x.apply w1).apply w2).apply w3 := by
    rw [memWbCarries.regsAfterWb_eq (s := afterTick (s.haltNoted a w1)) hnext', afterTick_x, hx, hwb.regsAfterWb_eq]; rfl
  rw [runTicks_succ 3 (step_haltNoted h.toGoing h.memWb h.exMem h.idEx.exGoesOn hf ha),
    runTicks_haltNoted h.toGoing h.exMem hgo hno hpc, hlast, hm]
  rfl

end

/-! ### The straight line -/

/-- The registers a straight line of ALU instructions leaves when three writes are pending: each instruction reads the
registers before the three writes ahead of its own (70 R170). -/
def delayed : Regs → Pending → Pending → Pending → List Instr → Regs
  | x, w1, w2, w3, [] => ((x.apply w1).apply w2).apply w3
  | x, w1, w2, w3, i :: rest => delayed (x.apply w1) w2 w3 (aluWrite x i) rest

theorem Flow.runTicks_straightLine (is : List Instr) {w1 w2 w3 : Pending} {a word : Word} {words : List Word}
    (h : Flow s w1 w2 w3) (hf : s.ifId = .live { word := word, nextPc := s.pc })
    (hwords : word :: words = is.map (encode s.haltWord) ++ [s.haltWord])
    (his : ∀ i ∈ is, isAlu i = true ∧ i.wellFormed s.haltWord = true) (hmem : s.mem.holdsWords s.pc words)
    (ha : s.pc + BitVec.ofNat 32 (4 * is.length) = a + 4#32) :
    runTicks (is.length + 4) s = .next ({ s with x := delayed s.x w1 w2 w3 is }.haltedAt a) := by
  induction is generalizing s w1 w2 w3 word words with
  | nil =>
    obtain ⟨rfl, -⟩ := List.cons.inj hwords
    have hpc : s.pc = a + 4#32 := by simpa using ha
    exact h.drain (hpc ▸ hf) hpc
  | cons i rest ih =>
    rw [List.map_cons, List.cons_append] at hwords
    obtain ⟨rfl, hrest⟩ := List.cons.inj hwords
    obtain ⟨⟨hi, hwf⟩, his⟩ := List.forall_mem_cons.mp his
    obtain ⟨word', words', hcons⟩ : ∃ word' words', rest.map (encode s.haltWord) ++ [s.haltWord] = word' :: words' := by
      cases rest <;> exact ⟨_, _, rfl⟩
    rw [hrest, hcons] at hmem
    obtain ⟨hread, hmem'⟩ := hmem
    obtain ⟨hstep, hflow⟩ := h.step_eq hf (decodeInvertsEncode _ _ hwf) hi hread
    rw [List.length_cons, Nat.add_right_comm, runTicks_succ _ hstep]
    refine ih hflow rfl hcons.symm his hmem' ?_
    rw [← ha, List.length_cons, State.flowed, BitVec.add_assoc, Nat.mul_succ, Nat.add_comm _ 4, BitVec.ofNat_add]

/-- The state after the first tick from an empty pipeline. -/
def State.firstFetch (s : State) (word : Word) : State :=
  { s with pc := s.pc + 4#32, ifId := .live { word := word, nextPc := s.pc + 4#32 }, scratch := Scratch.idle }

theorem runTicks_of_ready {word : Word} (n : Nat) (h : s.ready) (hword : s.mem.readWord s.pc = some word) :
    runTicks (n + 1) s = runTicks n (s.firstFetch word) := runTicks_succ n (firstTickFetchesAtPc s word h hword)

theorem ready_going (h : s.ready) : Going s := by
  obtain ⟨hr, -, -, -, -, hst, hseen⟩ := h
  exact ⟨hr, hst, hseen⟩

theorem firstFetch_going (h : s.ready) (word : Word) : Going (s.firstFetch word) := by
  obtain ⟨hr, hst, hseen⟩ := ready_going h
  exact ⟨hr, hst, hseen⟩

/-- An empty pipeline is a flow with no write pending. -/
theorem firstFetch_flow (h : s.ready) (word : Word) : Flow (s.firstFetch word) noWrite noWrite noWrite := by
  have hgoing := firstFetch_going h word
  obtain ⟨-, -, hid, hex, hwb, -, -⟩ := h
  refine ⟨hgoing, ?_, ?_, ?_⟩
  · show memWbCarries s.memWb _
    rw [hwb]; rfl
  · show exMemCarries s.exMem _
    rw [hex]; rfl
  · show idExCarries s.idEx _
    rw [hid]; rfl

/-- A straight line of ALU instructions and halt, from an empty pipeline. -/
theorem runTicks_straightLine (is : List Instr) (h : s.ready)
    (his : ∀ i ∈ is, isAlu i = true ∧ i.wellFormed s.haltWord = true)
    (hmem : s.mem.holdsWords s.pc (is.map (encode s.haltWord) ++ [s.haltWord])) :
    runTicks (is.length + 5) s = .next ({ s with x := delayed s.x noWrite noWrite noWrite is }.haltedAt
      (s.pc + BitVec.ofNat 32 (4 * is.length))) := by
  obtain ⟨word, words, hcons⟩ : ∃ word words, is.map (encode s.haltWord) ++ [s.haltWord] = word :: words := by
    cases is <;> exact ⟨_, _, rfl⟩
  rw [hcons] at hmem
  obtain ⟨hword, hmem⟩ := hmem
  rw [runTicks_of_ready (is.length + 4) h hword]
  refine (firstFetch_flow h word).runTicks_straightLine is rfl hcons.symm his hmem ?_
  rw [State.firstFetch, BitVec.add_assoc, BitVec.add_assoc, BitVec.add_comm 4#32]

/-- Settles O51: the straight line of one instruction. -/
theorem aluInstructionRun : Obligations.AluInstructionRun := by
  intro s i dest v h heff hwf hmem
  have hrun := runTicks_straightLine [i] h (by simpa using ⟨isAlu_of_aluEffect heff, hwf⟩) hmem
  have hx : delayed s.x noWrite noWrite noWrite [i] = s.x.write dest v := by
    simp only [delayed, aluWrite_of_aluEffect heff, Regs.apply_noWrite]; rfl
  rwa [hx] at hrun

/-! ### The distance of a read after a write (70 R170) -/

/-- The no-op: `sll` of register 0 into register 0, whose word is 0. -/
def nop : Instr := .sll 0#5 0#5 0#5 0#5

theorem encode_nop (haltWord : Word) : encode haltWord nop = 0#32 := rfl
theorem nop_wellFormed {haltWord : Word} (h : haltWord ≠ 0#32) : nop.wellFormed haltWord = true := by
  rw [Instr.wellFormed, encode_nop]; simpa [nop] using Ne.symm h

/-- A write of the no-op is none. -/
theorem apply_aluWrite_nop (x y : Regs) : x.apply (aluWrite y nop) = x := Regs.apply_of_zero x rfl

/-- With nothing pending and only no-ops ahead of it, an instruction reads the registers as they are. -/
theorem delayed_nops (x : Regs) (c : Instr) (k : Nat) {w1 w2 w3 : Pending} (h1 : w1.1 = 0#5) (h2 : w2.1 = 0#5)
    (h3 : w3.1 = 0#5) : delayed x w1 w2 w3 (List.replicate k nop ++ [c]) = x.apply (aluWrite x c) := by
  induction k generalizing w1 w2 w3 with
  | zero => simp [delayed, Regs.apply_of_zero _ h1, Regs.apply_of_zero _ h2, Regs.apply_of_zero _ h3]
  | succ k ih =>
    rw [List.replicate_succ, List.cons_append, delayed, Regs.apply_of_zero _ h1]
    exact ih h2 h3 rfl

/-- The second of two instructions sees the first's write across three or more no-ops, and not across fewer. -/
theorem delayed_distance (x : Regs) (p c : Instr) (k : Nat) :
    delayed x noWrite noWrite noWrite (p :: List.replicate k nop ++ [c]) =
      (x.apply (aluWrite x p)).apply (aluWrite (if k ≤ 2 then x else x.apply (aluWrite x p)) c) := by
  match k with
  | 0 => simp [delayed]
  | 1 => simp [delayed, apply_aluWrite_nop]
  | 2 => simp [delayed, apply_aluWrite_nop]
  | k + 3 =>
    rw [if_neg (by omega)]
    simp only [List.replicate_succ, List.cons_append, delayed, Regs.apply_noWrite]
    exact delayed_nops _ c k rfl rfl rfl

/-- Settles O57: the straight line of the two instructions with the no-ops between them. -/
theorem readAfterWriteDistance : Obligations.ReadAfterWriteDistance := by
  intro s p c k rp rc vp vc h h0 hp hc hmem hpeff hceff
  have hpw := aluWrite_of_aluEffect hpeff
  have hcw := aluWrite_of_aluEffect hceff
  have hrun := runTicks_straightLine (p :: List.replicate k nop ++ [c]) h
    (by
      intro i hi
      simp only [List.cons_append, List.mem_cons, List.mem_append, List.mem_replicate, List.not_mem_nil, or_false] at hi
      rcases hi with rfl | ⟨-, rfl⟩ | rfl
      · exact ⟨isAlu_of_aluEffect hpeff, hp⟩
      · exact ⟨rfl, nop_wellFormed h0⟩
      · exact ⟨isAlu_of_aluEffect hceff, hc⟩)
    (by simpa [encode_nop] using hmem)
  rw [delayed_distance, hpw] at hrun
  change aluWrite (if k ≤ 2 then s.x else s.x.apply (rp, vp)) c = (rc, vc) at hcw
  rw [hcw] at hrun
  have hlen : (p :: List.replicate k nop ++ [c]).length = k + 2 := by simp
  rw [hlen, show k + 2 + 5 = 7 + k by omega, show 4 * (k + 2) = 8 + 4 * k by omega] at hrun
  exact hrun

end Sys2Proof.Machine
end

section
/-! PROOFS. The runs of a load, of a store and of the control instructions (spec 44, 45), each from its fetch to the halt behind
it or at its target. -/

namespace Sys2Proof.Machine

variable {s t : State} {i : Instr}

/-- The record an instruction leaves in EX_MEM when it is alone in the pipeline. -/
def aloneRecord (s : State) (i : Instr) : ExMem :=
  exRecord i (idRecord (.known i) { word := encode s.haltWord i, nextPc := s.pc + 4#32 } s.x)

@[simp] theorem aloneRecord_op (s : State) (i : Instr) : (aloneRecord s i).instr.op = .known i := by
  rw [aloneRecord, exRecord_instr]; rfl
@[simp] theorem aloneRecord_fallthroughPc (s : State) (i : Instr) : (aloneRecord s i).fallthroughPc = s.pc + 4#32 :=
  exRecord_fallthroughPc _ _
@[simp] theorem aloneRecord_regWrite (s : State) (i : Instr) : (aloneRecord s i).regWrite = writesInWb i :=
  exRecord_regWrite _ _

/-! ### The first two ticks -/

/-- An instruction at `pc` and the word behind it, both fetched. -/
def State.secondFetch (s : State) (i : Instr) (word : Word) : State :=
  (s.firstFetch (encode s.haltWord i)).flowed noWrite word

theorem secondFetch_idEx (hwf : i.wellFormed s.haltWord = true) (word : Word) : (s.secondFetch i word).idEx =
    .live (idRecord (.known i) { word := encode s.haltWord i, nextPc := s.pc + 4#32 } s.x) := by
  have hdec : decode (s.firstFetch (encode s.haltWord i)).haltWord (encode s.haltWord i) = .known i :=
    decodeInvertsEncode _ _ hwf
  have hid : (s.secondFetch i word).idEx = _ := nextIdEx_of_live (s := s.firstFetch (encode s.haltWord i)) rfl
  rw [hid, hdec]; rfl

theorem secondFetch_exGoesOn (hwf : i.wellFormed s.haltWord = true) (word : Word) : exGoesOn (s.secondFetch i word) := by
  intro d hd
  obtain rfl := Latch.live.inj ((secondFetch_idEx hwf word).symm.trans hd)
  exact ⟨nofun, nofun⟩

theorem secondFetch_going (h : s.ready) (i : Instr) (word : Word) : Going (s.secondFetch i word) :=
  (firstFetch_going h _).flowed noWrite word

theorem secondFetch_memWb (h : s.ready) (i : Instr) (word : Word) : memWbCarries (s.secondFetch i word).memWb noWrite := by
  obtain ⟨-, -, -, -, -, hwb⟩ := (firstFetch_flow h (encode s.haltWord i)).exMem.commits
  exact hwb
theorem secondFetch_exMem (h : s.ready) (i : Instr) (word : Word) : exMemCarries (s.secondFetch i word).exMem noWrite :=
  (firstFetch_flow h (encode s.haltWord i)).idEx.next

theorem runTicks_secondFetch {word : Word} (n : Nat) (h : s.ready) (hwf : i.wellFormed s.haltWord = true)
    (hnc : isControl (.known i) = false) (hnh : i ≠ .halt) (hfirst : s.mem.readWord s.pc = some (encode s.haltWord i))
    (hword : s.mem.readWord (s.pc + 4#32) = some word) : runTicks (n + 2) s = runTicks n (s.secondFetch i word) := by
  have hflow := firstFetch_flow h (encode s.haltWord i)
  have hdec : decode (s.firstFetch (encode s.haltWord i)).haltWord (encode s.haltWord i) = .known i :=
    decodeInvertsEncode _ _ hwf
  have hz := hflow.frozenIn_of_known rfl hdec hnc hnh
  rw [runTicks_of_ready (n + 1) h hfirst,
    runTicks_succ n (step_flowed hflow.run hflow.memWb hflow.exMem hflow.idEx.exGoesOn hz hword), State.secondFetch]

/-! ### One load or store and halt (44) -/

/-- The instruction in EX_MEM and the halt instruction behind it in ID_EX. -/
def State.beforeHalt (s : State) (i : Instr) : State := (s.secondFetch i s.haltWord).haltNoted (s.pc + 4#32) noWrite

theorem beforeHalt_exMem (hwf : i.wellFormed s.haltWord = true) : (s.beforeHalt i).exMem = .live (aloneRecord s i) :=
  nextExMem_of_live (secondFetch_idEx hwf s.haltWord) rfl

theorem beforeHalt_x : (s.beforeHalt i).x = s.x := by
  show (s.x.apply noWrite).apply noWrite = s.x
  simp only [Regs.apply_noWrite]

/-- Nothing older is left to write. -/
theorem beforeHalt_regsAfterWb (h : s.ready) : regsAfterWb (s.beforeHalt i) = s.x := by
  obtain ⟨-, -, -, -, -, hwb⟩ := (secondFetch_exMem h i s.haltWord).commits
  rw [memWbCarries.regsAfterWb_eq (s := s.beforeHalt i) hwb, beforeHalt_x, Regs.apply_noWrite]

/-- The run of an instruction that is neither halt nor a control instruction: its MEM and its WB are in the last three ticks. -/
theorem runTicks_beforeHalt (h : s.ready) (hwf : i.wellFormed s.haltWord = true) (hnc : isControl (.known i) = false)
    (hnh : i ≠ .halt) (hmem : s.mem.holdsWords s.pc [encode s.haltWord i, s.haltWord]) (hgo : memGoesOn (s.beforeHalt i))
    (hpc : pcAfterMem (s.beforeHalt i) = s.pc + 4#32 + 4#32) :
    runTicks 6 s = .next ({ s with x := regsAfterWb (afterTick (s.beforeHalt i)), mem := memAfterMem (s.beforeHalt i) }.haltedAt
      (s.pc + 4#32)) := by
  obtain ⟨hword, hhalt, -⟩ := hmem
  have hgoing := secondFetch_going h i s.haltWord
  have hex := secondFetch_exMem h i s.haltWord
  have hno : ¬ haltInMem (s.beforeHalt i) := by
    rintro ⟨e, he, ho⟩
    obtain rfl := Latch.live.inj ((beforeHalt_exMem hwf).symm.trans he)
    exact hnh (Decoded.known.inj ((aloneRecord_op s i).symm.trans ho))
  have hnoted : step (s.secondFetch i s.haltWord) = .next (s.beforeHalt i) :=
    step_haltNoted hgoing (secondFetch_memWb h i s.haltWord) hex (secondFetch_exGoesOn hwf s.haltWord) rfl rfl
  rw [runTicks_secondFetch 4 h hwf hnc hnh hword hhalt, runTicks_succ 3 hnoted]
  exact runTicks_haltNoted hgoing hex hgo hno hpc

/-- The address of `lw` and `sw`: base plus sign-extended displacement. -/
theorem aloneRecord_lw_aluOut (s : State) (rs rt : RegIdx) (imm16 : BitVec 16) :
    (aloneRecord s (.lw rs rt imm16)).aluOut = s.x.read rs + imm16.signExtend 32 := by
  simp [aloneRecord, exRecord, idRecord, immediateRule, encode]
theorem aloneRecord_sw_aluOut (s : State) (rs rt : RegIdx) (imm16 : BitVec 16) :
    (aloneRecord s (.sw rs rt imm16)).aluOut = s.x.read rs + imm16.signExtend 32 := by
  simp [aloneRecord, exRecord, idRecord, immediateRule, encode]

theorem memGoesOn_of_inBounds {e : ExMem} (he : s.exMem = .live e) (hb : e.aluOut.toNat ≤ 0xFFFFC) : memGoesOn s := by
  intro e' he' _ _ _ _
  rwa [← Latch.live.inj (he.symm.trans he')]

/-- Settles O52: MEM reads the word, WB writes it. -/
theorem loadInstructionRun : Obligations.LoadInstructionRun := by
  intro s rs rt imm16 v h hwf hmem hread
  obtain ⟨hb, hv⟩ := readWord_eq_some_iff.mp hread
  have he := beforeHalt_exMem hwf
  rw [← aloneRecord_lw_aluOut s rs rt imm16] at hb hv
  have hdest : (aloneRecord s (.lw rs rt imm16)).destIndex = rt := by simp [aloneRecord, exRecord, idRecord, encode]
  have hm : memAfterMem (s.beforeHalt (.lw rs rt imm16)) = s.mem := by simp only [memAfterMem, he, aloneRecord_op]; rfl
  have hnext : nextMemWb (s.beforeHalt (.lw rs rt imm16)) = memWbRecord (aloneRecord s (.lw rs rt imm16)) v := by
    simp only [nextMemWb, he, aloneRecord_op, ← hv]; rfl
  have hx : regsAfterWb (afterTick (s.beforeHalt (.lw rs rt imm16))) = s.x.write rt v := by
    have hx' : regsAfterMem (s.beforeHalt (.lw rs rt imm16)) = s.x := by
      simp only [regsAfterMem, he, aloneRecord_op, beforeHalt_regsAfterWb h]
    simp only [regsAfterWb, afterTick_memWb, afterTick_x, hnext, memWbRecord, hx', aloneRecord_op, aloneRecord_regWrite,
      hdest]
    rfl
  rw [runTicks_beforeHalt h hwf rfl nofun hmem (memGoesOn_of_inBounds he hb)
    (by simp only [pcAfterMem, he, aloneRecord_op]; rfl), hx, hm]

/-- Settles O53: MEM writes the word, WB nothing. -/
theorem storeInstructionRun : Obligations.StoreInstructionRun := by
  intro s rs rt imm16 m h hwf hmem hwrite
  obtain ⟨hb, -⟩ := Memory.writeWord_some _ _ _ _ hwrite
  have he := beforeHalt_exMem hwf
  rw [← aloneRecord_sw_aluOut s rs rt imm16] at hb hwrite
  have hb' : (aloneRecord s (.sw rs rt imm16)).aluOut.toNat ≤ 0xFFFFC := by
    rw [inBounds_iff, Config.memSize] at hb; omega
  have hstore : (aloneRecord s (.sw rs rt imm16)).storeValue = s.x.read rt := by
    simp [aloneRecord, exRecord, exDefaults, idRecord, encode]
  have hm : memAfterMem (s.beforeHalt (.sw rs rt imm16)) = m := by
    simp only [memAfterMem, he, aloneRecord_op, hstore, show (s.beforeHalt (.sw rs rt imm16)).mem = s.mem from rfl, hwrite,
      Option.getD_some]
  have hx : regsAfterWb (afterTick (s.beforeHalt (.sw rs rt imm16))) = s.x := by
    have hx' : regsAfterMem (s.beforeHalt (.sw rs rt imm16)) = s.x := by
      simp only [regsAfterMem, he, aloneRecord_op, beforeHalt_regsAfterWb h]
    have hnext : nextMemWb (s.beforeHalt (.sw rs rt imm16)) =
        memWbRecord (aloneRecord s (.sw rs rt imm16)) (aloneRecord s (.sw rs rt imm16)).aluOut := by
      simp only [nextMemWb, he, aloneRecord_op]
    simp only [regsAfterWb, afterTick_memWb, afterTick_x, hnext, memWbRecord, hx', aloneRecord_op, aloneRecord_regWrite]
    rfl
  rw [runTicks_beforeHalt h hwf rfl nofun hmem (memGoesOn_of_inBounds he hb')
    (by simp only [pcAfterMem, he, aloneRecord_op]; rfl), hx, hm]

/-! ### A control instruction and halt at its target (45, 40 R88) -/

/-- A control instruction fetched at `pc` into an empty pipeline, after its ID. -/
def State.decoding (s : State) (i : Instr) : State :=
  { s with pc := s.pc + 4#32, fetchStall := 2, scratch := Scratch.idle,
           idEx := .live (idRecord (.known i) { word := encode s.haltWord i, nextPc := s.pc + 4#32 } s.x) }

/-- After its EX. -/
def State.resolving (s : State) (i : Instr) : State :=
  { s with pc := s.pc + 4#32, fetchStall := 1, scratch := Scratch.idle, exMem := .live (aloneRecord s i) }

/-- After its MEM, Fetch about to read where it leads. -/
def State.resolved (s : State) (i : Instr) : State :=
  { s with x := regsAfterMem (s.resolving i), pc := pcAfterMem (s.resolving i), scratch := Scratch.idle,
           memWb := memWbRecord (aloneRecord s i) (aloneRecord s i).aluOut }

/-- A frozen tick with nothing in EX_MEM and MEM_WB only moves IF_ID and ID_EX on and counts. -/
theorem step_counting (hr : t.run = .running) (hwb : t.memWb = .bubble) (hmem : t.exMem = .bubble) (hex : exGoesOn t)
    (hz : fetchFrozen t) : step t = .next { t with
      ifId := .bubble, idEx := nextIdEx t, exMem := nextExMem t, haltSeen := haltAfterId t,
      fetchStall := if stallAfterId t = 0 then 0 else stallAfterId t - 1, scratch := Scratch.idle } := by
  rw [step_frozen hr (wbGoesOn_of_bubble hwb) (memGoesOn_of_bubble hmem) hex hz, regsAfterMem_of_bubble hmem,
    regsAfterWb_of_bubble hwb, memAfterMem_of_bubble hmem, pcAfterMem_of_bubble hmem, nextMemWb_of_bubble hmem, hwb]

theorem writesInWb_of_isControl (h : isControl (.known i) = true) : writesInWb i = false := by
  cases i <;> first | rfl | cases h

section Control
variable (h : s.ready) (hc : isControl (.known i) = true)
include h

theorem step_decoding : step (s.decoding i) = .next (s.resolving i) := by
  obtain ⟨hr, hif, hid, hex, hwb, hst, hseen⟩ := h
  have hgo : exGoesOn (s.decoding i) := by
    rintro d hd
    obtain rfl := Latch.live.inj hd
    exact ⟨nofun, nofun⟩
  have hstep := step_counting (t := s.decoding i) hr hwb hex hgo
    (.inr (.inr (.inl (show (2 : Fin 4) ≠ 0 by decide))))
  rw [nextIdEx_of_bubble (s := s.decoding i) hif, nextExMem_of_live (s := s.decoding i) rfl rfl, haltAfterId, stallAfterId,
    haltIn_of_bubble (s := s.decoding i) hif, controlIn_of_bubble (s := s.decoding i) hif] at hstep
  rw [hstep]
  simp only [State.decoding, State.resolving, hif, hid, Bool.or_false, Bool.false_eq_true, if_false]
  rfl

include hc

theorem step_firstFetch_control (hwf : i.wellFormed s.haltWord = true) :
    step (s.firstFetch (encode s.haltWord i)) = .next (s.decoding i) := by
  obtain ⟨hr, hif, hid, hex, hwb, hst, hseen⟩ := h
  have hdec : decode s.haltWord (encode s.haltWord i) = .known i := decodeInvertsEncode _ _ hwf
  have hin : controlInId (s.firstFetch (encode s.haltWord i)) := ⟨_, rfl, by rw [← hc, ← hdec]; rfl⟩
  have hno : haltIn (s.firstFetch (encode s.haltWord i)) = false := by
    rw [← Bool.not_eq_true, haltIn_iff]
    exact fun hh => not_controlInId_of_haltInId hh hin
  have hstep := step_counting (t := s.firstFetch (encode s.haltWord i)) hr hwb hex (exGoesOn_of_bubble hid)
    (.inr (.inr (.inr hin)))
  rw [nextIdEx_of_live (s := s.firstFetch (encode s.haltWord i)) rfl,
    nextExMem_of_bubble (s := s.firstFetch (encode s.haltWord i)) hid, haltAfterId, stallAfterId, hno,
    (controlIn_iff _).mpr hin] at hstep
  rw [hstep]
  simp only [State.firstFetch, State.decoding, hdec, hif, hex, Bool.or_false, if_true]
  rfl

theorem step_resolving : step (s.resolving i) = .next (s.resolved i) := by
  obtain ⟨hr, hif, hid, hex, hwb, hst, hseen⟩ := h
  have hgo : memGoesOn (s.resolving i) := by
    intro e he rs rt imm16 ho
    obtain rfl := Latch.live.inj he
    rw [aloneRecord_op] at ho
    rcases ho with ho | ho <;> obtain rfl := Decoded.known.inj ho <;> cases hc
  have hm : memAfterMem (s.resolving i) = s.mem := by
    simp only [memAfterMem, State.resolving, aloneRecord_op]
    cases i <;> first | rfl | cases hc
  have hnext : nextMemWb (s.resolving i) = memWbRecord (aloneRecord s i) (aloneRecord s i).aluOut := by
    simp only [nextMemWb, State.resolving, aloneRecord_op]
    cases i <;> first | rfl | cases hc
  rw [step_frozen (s := s.resolving i) hr (wbGoesOn_of_bubble hwb) hgo (exGoesOn_of_bubble hid)
    (.inr (.inr (.inl (show (1 : Fin 4) ≠ 0 by decide)))), hm, hnext,
    nextIdEx_of_bubble (s := s.resolving i) hif, nextExMem_of_bubble (s := s.resolving i) hid, haltAfterId, stallAfterId,
    haltIn_of_bubble (s := s.resolving i) hif, controlIn_of_bubble (s := s.resolving i) hif]
  have hcount : (s.resolving i).fetchStall = 1 := rfl
  simp only [State.resolved, hcount, hif, hid, hex, hst, Bool.or_false, Bool.false_eq_true, if_false]
  rfl

/-- Once resolved, the instruction has nothing left to do, and what is fetched is the word where it leads. -/
theorem resolved_flow : Flow (s.resolved i) noWrite noWrite noWrite := by
  obtain ⟨hr, -, hid, hex, -, hst, hseen⟩ := h
  refine ⟨⟨hr, hst, hseen⟩, ⟨?_, ?_⟩, ?_, ?_⟩
  · show (aloneRecord s i).instr.op ≠ _
    rw [aloneRecord_op]
    rintro hh; obtain rfl := Decoded.known.inj hh; cases hc
  · show (if (aloneRecord s i).regWrite = true then _ else _) = _
    rw [aloneRecord_regWrite, writesInWb_of_isControl hc, if_neg Bool.false_ne_true]
  · show exMemCarries s.exMem _
    rw [hex]; rfl
  · show idExCarries s.idEx _
    rw [hid]; rfl

/-- The run of a control instruction at `pc` with the halt instruction at `target`, where it leads. -/
theorem runTicks_control {target : Word} (hwf : i.wellFormed s.haltWord = true)
    (hword : s.mem.readWord s.pc = some (encode s.haltWord i)) (hpc : pcAfterMem (s.resolving i) = target)
    (hhalt : s.mem.readWord target = some s.haltWord) :
    runTicks 9 s = .next ({ s with x := regsAfterMem (s.resolving i) }.haltedAt target) := by
  have hflow := resolved_flow h hc
  have hif : (s.resolved i).ifId = .bubble := by obtain ⟨-, hif, -⟩ := h; exact hif
  have hz : frozenIn (s.resolved i) = false := frozenIn_eq_false_iff.mpr
    ⟨hflow.haltSeen, haltIn_of_bubble hif, hflow.fetchStall, controlIn_of_bubble hif⟩
  have hnext : idExCarries (nextIdEx (s.resolved i)) noWrite := by rw [nextIdEx_of_bubble hif]; rfl
  have hfetch : (s.resolved i).mem.readWord (s.resolved i).pc = some s.haltWord := by
    show s.mem.readWord (pcAfterMem (s.resolving i)) = _
    rw [hpc, hhalt]
  rw [runTicks_of_ready 8 h hword, runTicks_succ 7 (step_firstFetch_control h hc hwf), runTicks_succ 6 (step_decoding h),
    runTicks_succ 5 (step_resolving h hc),
    runTicks_succ 4 (step_flowed hflow.run hflow.memWb hflow.exMem hflow.idEx.exGoesOn hz hfetch),
    (hflow.flowed_flow hnext s.haltWord).drain (a := pcAfterMem (s.resolving i)) rfl rfl, hpc]
  simp only [Regs.apply_noWrite]
  rfl

end Control

theorem resolving_regsAfterWb (h : s.ready) : regsAfterWb (s.resolving i) = s.x := by
  obtain ⟨-, -, -, -, hwb, -⟩ := h
  exact regsAfterWb_of_bubble (s := s.resolving i) hwb

/-- Only `jal` links. -/
theorem resolving_regsAfterMem (h : s.ready) (hi : ∀ target26, i ≠ .jal target26) : regsAfterMem (s.resolving i) = s.x := by
  rcases regsAfterMem_cases (s.resolving i) with hx | ⟨e, target26, he, ho, -⟩
  · rw [hx, resolving_regsAfterWb h]
  · obtain rfl := Latch.live.inj he
    exact absurd (Decoded.known.inj ((aloneRecord_op s i).symm.trans ho)) (hi target26)

/-- Settles O54: where a jump leads is the target ID forms; `jal` links. -/
theorem jumpInstructionRun : Obligations.JumpInstructionRun := by
  intro s target26 h target hhalt
  constructor
  · intro hwf hword
    have hpc : pcAfterMem (s.resolving (.j target26)) = target := by
      simp only [pcAfterMem, State.resolving, aloneRecord_op]
      simp [aloneRecord, exRecord, idRecord, immediateRule, encode, target]
    have hx : regsAfterMem (s.resolving (.j target26)) = s.x := resolving_regsAfterMem h nofun
    rw [runTicks_control h rfl hwf hword hpc hhalt, hx]
  · intro hwf hword
    have hpc : pcAfterMem (s.resolving (.jal target26)) = target := by
      simp only [pcAfterMem, State.resolving, aloneRecord_op]
      simp [aloneRecord, exRecord, idRecord, immediateRule, encode, target]
    have hx : regsAfterMem (s.resolving (.jal target26)) = s.x.write 31#5 (s.pc + 4#32) := by
      have hwb := resolving_regsAfterWb (i := .jal target26) h
      simp only [regsAfterMem, State.resolving, aloneRecord_op, aloneRecord_fallthroughPc] at hwb ⊢
      rw [hwb]
    rw [runTicks_control h rfl hwf hword hpc hhalt, hx]

/-- Both branches form the difference and the same target. -/
theorem aloneRecord_beq (s : State) (rs rt : RegIdx) (imm16 : BitVec 16) :
    (aloneRecord s (.beq rs rt imm16)).aluOut = s.x.read rs - s.x.read rt ∧
    (aloneRecord s (.beq rs rt imm16)).nextPc = s.pc + 4#32 + (imm16.signExtend 32 <<< 2) := by
  simp [aloneRecord, exRecord, idRecord, immediateRule, encode]
theorem aloneRecord_bne (s : State) (rs rt : RegIdx) (imm16 : BitVec 16) :
    (aloneRecord s (.bne rs rt imm16)).aluOut = s.x.read rs - s.x.read rt ∧
    (aloneRecord s (.bne rs rt imm16)).nextPc = s.pc + 4#32 + (imm16.signExtend 32 <<< 2) := by
  simp [aloneRecord, exRecord, idRecord, immediateRule, encode]

theorem difference_eq_zero_iff (a b : Word) : a - b = 0#32 ↔ a = b := sub_eq_zero

/-- Settles O55: the difference is zero exactly when the registers are equal. -/
theorem branchInstructionRun : Obligations.BranchInstructionRun := by
  intro s rs rt imm16 h taken dest
  constructor
  · intro hwf hword hhalt
    have hpc : pcAfterMem (s.resolving (.beq rs rt imm16)) = dest (decide (s.x.read rs = s.x.read rt)) := by
      obtain ⟨halu, hnext⟩ := aloneRecord_beq s rs rt imm16
      simp only [pcAfterMem, State.resolving, aloneRecord_op, halu, hnext, difference_eq_zero_iff, dest, taken,
        decide_eq_true_eq]
    have hx : regsAfterMem (s.resolving (.beq rs rt imm16)) = s.x := resolving_regsAfterMem h nofun
    rw [runTicks_control h rfl hwf hword hpc hhalt, hx]
  · intro hwf hword hhalt
    have hpc : pcAfterMem (s.resolving (.bne rs rt imm16)) = dest (decide (s.x.read rs ≠ s.x.read rt)) := by
      obtain ⟨halu, hnext⟩ := aloneRecord_bne s rs rt imm16
      simp only [pcAfterMem, State.resolving, aloneRecord_op, halu, hnext, difference_eq_zero_iff, dest, taken, ne_eq,
        decide_eq_true_eq]
    have hx : regsAfterMem (s.resolving (.bne rs rt imm16)) = s.x := resolving_regsAfterMem h nofun
    rw [runTicks_control h rfl hwf hword hpc hhalt, hx]

/-! ### `jr` over two no-ops to halt (45 R129) -/

/-- `jr` in EX_MEM, the two no-ops of its shadow behind it. -/
def State.shadowed (s : State) (i : Instr) : State := (s.secondFetch i 0#32).flowed noWrite 0#32

theorem shadowed_x : (s.shadowed i).x = s.x := by
  show (s.x.apply noWrite).apply noWrite = s.x
  simp only [Regs.apply_noWrite]

theorem decode_zero {haltWord : Word} (h : haltWord ≠ 0#32) : decode haltWord 0#32 = .known nop :=
  decodeInvertsEncode haltWord nop (nop_wellFormed h)

theorem Going.frozenIn_of_nop {f : IfId} (h : Going s) (h0 : s.haltWord ≠ 0#32) (hf : s.ifId = .live f)
    (hw : f.word = 0#32) : frozenIn s = false :=
  h.frozenIn_of_known (i := nop) hf (by rw [hw]; exact decode_zero h0) rfl nofun

theorem nextIdEx_carries_nop {f : IfId} (h0 : s.haltWord ≠ 0#32) (hf : s.ifId = .live f) (hw : f.word = 0#32) :
    idExCarries (nextIdEx s) (aluWrite s.x nop) :=
  nextIdEx_carries hf (by rw [hw]; exact decode_zero h0) rfl

/-- MEM of `jr` sets `pc` and commits nothing else; what it leaves in MEM_WB writes nothing. -/
theorem jr_commits {rs rt rd shamt : RegIdx} (he : s.exMem = .live (aloneRecord t (.jr rs rt rd shamt))) :
    memGoesOn s ∧ regsAfterMem s = regsAfterWb s ∧ memAfterMem s = s.mem ∧ pcAfterMem s = t.x.read rs ∧
      memWbCarries (nextMemWb s) noWrite := by
  refine ⟨fun e he' rs' rt' imm16 ho => ?_, ?_, ?_, ?_, ?_⟩
  · obtain rfl := Latch.live.inj (he.symm.trans he')
    rw [aloneRecord_op] at ho
    rcases ho with ho | ho <;> cases ho
  · simp only [regsAfterMem, he, aloneRecord_op]
  · simp only [memAfterMem, he, aloneRecord_op]
  · simp only [pcAfterMem, he, aloneRecord_op]
    simp [aloneRecord, exRecord, idRecord, encode]
  · simp only [nextMemWb, he, aloneRecord_op]
    exact ⟨by rw [aloneRecord_op]; nofun, by rw [aloneRecord_regWrite]; rfl⟩

/-- The halt instruction fetched at `target`, where `jr` has sent Fetch. -/
def State.landed (s : State) (target : Word) : State :=
  { s with pc := target + 4#32, ifId := .live { word := s.haltWord, nextPc := target + 4#32 }, idEx := nextIdEx s,
           exMem := nextExMem s, memWb := nextMemWb s, scratch := Scratch.idle }

/-- The tick in which MEM of `jr` sets the `pc` that IF of the same tick fetches from, no-ops behind it. -/
theorem step_landed {rs rt rd shamt : RegIdx} {w : Pending} (h : Going s) (h0 : s.haltWord ≠ 0#32)
    (hwb : memWbCarries s.memWb noWrite) (he : s.exMem = .live (aloneRecord t (.jr rs rt rd shamt)))
    (hid : idExCarries s.idEx w) {f : IfId} (hf : s.ifId = .live f) (hw : f.word = 0#32)
    (hhalt : s.mem.readWord (t.x.read rs) = some s.haltWord) :
    step s = .next (s.landed (t.x.read rs)) ∧ Flow (s.landed (t.x.read rs)) noWrite w (aluWrite s.x nop) := by
  obtain ⟨hgo, hx, hm, hpc, hnext⟩ := jr_commits he
  refine ⟨?_, ⟨h.run, h.fetchStall, h.haltSeen⟩, hnext, hid.next, nextIdEx_carries_nop h0 hf hw⟩
  rw [step_fetch h.run hwb.wbGoesOn hgo hid.exGoesOn (h.frozenIn_of_nop h0 hf hw) (by rw [hm, hpc]; exact hhalt), hx, hm, hpc,
    hwb.regsAfterWb_eq, Regs.apply_noWrite, State.landed]

/-- Settles O56: three ticks bring `jr` to EX_MEM, the fourth fetches halt, which drains behind the two no-ops. -/
theorem jumpRegisterInstructionRun : Obligations.JumpRegisterInstructionRun := by
  intro s rs rt rd shamt h h0 hwf hmem hhalt
  obtain ⟨hjr, hnop1, hnop2, -⟩ := hmem
  have hgoing := secondFetch_going h (.jr rs rt rd shamt) 0#32
  have hex := secondFetch_exMem h (.jr rs rt rd shamt) 0#32
  obtain ⟨-, -, -, -, -, hwb⟩ := hex.commits
  have hshadow : step (s.secondFetch (.jr rs rt rd shamt) 0#32) = .next (s.shadowed (.jr rs rt rd shamt)) :=
    step_flowed hgoing.run (secondFetch_memWb h (.jr rs rt rd shamt) 0#32) hex (secondFetch_exGoesOn hwf 0#32)
      (hgoing.frozenIn_of_nop h0 rfl rfl) hnop2
  obtain ⟨hland, hflow⟩ := step_landed (s := s.shadowed (.jr rs rt rd shamt)) (hgoing.flowed noWrite 0#32) h0 hwb
    (nextExMem_of_live (secondFetch_idEx hwf 0#32) rfl)
    (nextIdEx_carries_nop (s := s.secondFetch (.jr rs rt rd shamt) 0#32) h0 rfl rfl) rfl rfl hhalt
  rw [runTicks_secondFetch 6 h hwf rfl nofun hjr hnop1, runTicks_succ 5 hshadow, runTicks_succ 4 hland, hflow.drain rfl rfl]
  have hx : ((s.shadowed (.jr rs rt rd shamt)).landed (s.x.read rs)).x = s.x :=
    shadowed_x (s := s) (i := .jr rs rt rd shamt)
  simp only [apply_aluWrite_nop, Regs.apply_noWrite, hx]
  rfl

end Sys2Proof.Machine
end

section
/-! PROOFS. The run over zero memory (spec 70 R163): no-ops to the end of memory, then the fetch out of bounds. -/

namespace Sys2Proof.Machine

variable {s t : State}

/-- One tick more. -/
theorem runTicks_snoc {u : State} (n : Nat) (h : runTicks n s = .next t) (hu : step t = .next u) :
    runTicks (n + 1) s = .next u := by
  induction n generalizing s with
  | zero => obtain rfl := Host.Outcome.next.inj h; exact runTicks_succ 0 hu
  | succ n ih =>
    cases hs : step s with
    | next v => rw [runTicks_succ _ hs] at h ⊢; exact ih h
    | fault _ => simp only [runTicks, hs, reduceCtorEq] at h
    | refused _ => simp only [runTicks, hs, reduceCtorEq] at h

/-- A pipeline of no-ops and bubbles with a no-op in IF_ID. -/
structure NopFlow (s : State) : Prop where
  flow : ∃ w1 w2 w3, Flow s w1 w2 w3 ∧ w1.1 = 0#5 ∧ w2.1 = 0#5 ∧ w3.1 = 0#5
  haltWord : s.haltWord ≠ 0#32
  ifId : ∃ f, s.ifId = .live f ∧ f.word = 0#32

/-- A no-op fetched behind no-ops. -/
theorem NopFlow.fetches (h : NopFlow s) (hword : s.mem.readWord s.pc = some 0#32) :
    ∃ t, step s = .next t ∧ NopFlow t ∧ t.x = s.x ∧ t.mem = s.mem ∧ t.pc = s.pc + 4#32 := by
  obtain ⟨w1, w2, w3, hflow, h1, h2, h3⟩ := h.flow
  obtain ⟨f, hf, hw⟩ := h.ifId
  obtain ⟨hstep, hflow'⟩ := hflow.step_eq hf (by rw [hw]; exact decode_zero h.haltWord) rfl hword
  exact ⟨_, hstep, ⟨⟨w2, w3, _, hflow', h2, h3, rfl⟩, h.haltWord, _, rfl, rfl⟩, Regs.apply_of_zero _ h1, rfl, rfl⟩

/-- As many no-ops as memory has from `pc` on. -/
theorem NopFlow.runs (n : Nat) (h : NopFlow s)
    (hzero : ∀ k < n, s.mem.readWord (s.pc + BitVec.ofNat 32 (4 * k)) = some 0#32) :
    ∃ t, runTicks n s = .next t ∧ NopFlow t ∧ t.x = s.x ∧ t.mem = s.mem ∧ t.pc = s.pc + BitVec.ofNat 32 (4 * n) := by
  induction n generalizing s with
  | zero => exact ⟨s, rfl, h, rfl, rfl, by simp⟩
  | succ n ih =>
    obtain ⟨u, hstep, hu, hx, hm, hpc⟩ := h.fetches (by simpa using hzero 0 (by omega))
    have hshift : ∀ k, u.pc + BitVec.ofNat 32 (4 * k) = s.pc + BitVec.ofNat 32 (4 * (k + 1)) := fun k => by
      rw [hpc, BitVec.add_assoc, Nat.mul_succ, Nat.add_comm _ 4, BitVec.ofNat_add]
    obtain ⟨t, hrun, ht, hx', hm', hpc'⟩ := ih hu fun k hk => by
      rw [hm, hshift]; exact hzero (k + 1) (by omega)
    exact ⟨t, (runTicks_succ n hstep).trans hrun, ht, hx'.trans hx, hm'.trans hm, hpc'.trans (hshift n)⟩

/-- A no-op behind which nothing can be fetched: the run ends with the fault of the fetch. -/
theorem NopFlow.faults (h : NopFlow s) (hb : 0xFFFFC < s.pc.toNat) :
    ∃ t, step s = .next t ∧ t.run = fetchFault s.pc ∧ t.x = s.x ∧ t.mem = s.mem := by
  obtain ⟨w1, w2, w3, hflow, h1, h2, h3⟩ := h.flow
  obtain ⟨f, hf, hw⟩ := h.ifId
  obtain ⟨hgo, -, hx, hm, hpc, -⟩ := hflow.exMem.commits
  have hz := hflow.frozenIn_of_nop h.haltWord hf hw
  refine ⟨_, fetchOutOfBoundsEndsTheRun s hflow.run hflow.memWb.wbGoesOn hgo hflow.idEx.exGoesOn (not_fetchFrozen_iff.mpr hz)
    (by rwa [hpc]), by rw [hpc], ?_, hm⟩
  show regsAfterMem s = s.x
  rw [hx, hflow.memWb.regsAfterWb_eq, Regs.apply_of_zero _ h1]

theorem NopFlow.of_ready (h : s.ready) (h0 : s.haltWord ≠ 0#32) : NopFlow (s.firstFetch 0#32) :=
  ⟨⟨_, _, _, firstFetch_flow h 0#32, rfl, rfl, rfl⟩, h0, _, rfl, rfl⟩

/-- Memory past the seed reads as zero after reset. -/
theorem resetWith_readWord {haltWord : Word} {seed : List Byte} {a : Word} (hlen : seed.length ≤ a.toNat)
    (hb : a.toNat ≤ 0xFFFFC) : (State.resetWith haltWord seed).mem.readWord a = some 0#32 := by
  have hzero : ∀ b, a.toNat ≤ b → (State.resetWith haltWord seed).mem.readByte b = 0#8 := fun b hab => by
    rw [resetWith_readByte, List.getD_eq_default _ _ (hlen.trans hab)]
  rw [readWord_inBounds _ _ hb, Memory.wordAt, hzero _ le_rfl, hzero _ (by omega), hzero _ (by omega), hzero _ (by omega)]
  rfl

/-- Settles O58: 1 tick to fetch the first no-op, 261119 to fetch the others, and the fault. -/
theorem runOverZeroMemoryEndsAtTheTop : Obligations.RunOverZeroMemoryEndsAtTheTop := by
  intro haltWord seed h0 hlen
  have hready := resetWith_ready haltWord seed
  have hzero : ∀ k, k < 261120 →
      (State.resetWith haltWord seed).mem.readWord (0x1000#32 + BitVec.ofNat 32 (4 * k)) = some 0#32 := by
    intro k hk
    have ha : (0x1000#32 + BitVec.ofNat 32 (4 * k)).toNat = 0x1000 + 4 * k := by
      rw [BitVec.toNat_add, BitVec.toNat_ofNat, BitVec.toNat_ofNat]; omega
    exact resetWith_readWord (by omega) (by omega)
  obtain ⟨t, hrun, ht, hx, hm, hpc⟩ := (NopFlow.of_ready hready h0).runs 261119 fun k hk => by
    have hshift : (0x1000#32 + 4#32) + BitVec.ofNat 32 (4 * k) = 0x1000#32 + BitVec.ofNat 32 (4 * (k + 1)) := by
      rw [BitVec.add_assoc, Nat.mul_succ, Nat.add_comm _ 4, BitVec.ofNat_add]
    show (State.resetWith haltWord seed).mem.readWord ((0x1000#32 + 4#32) + BitVec.ofNat 32 (4 * k)) = _
    rw [hshift]; exact hzero (k + 1) (by omega)
  have hpc' : t.pc = 0x00100000#32 := hpc.trans (show (0x1000#32 + 4#32) + BitVec.ofNat 32 (4 * 261119) = _ by decide)
  obtain ⟨u, hstep, hfault, hux, hum⟩ := ht.faults (by rw [hpc']; decide)
  obtain ⟨w1, w2, w3, hflow, -⟩ := ht.flow
  have hrun' : runTicks 261120 (State.resetWith haltWord seed) = .next t :=
    (runTicks_of_ready 261119 hready (hzero 0 (by omega))).trans hrun
  exact ⟨⟨t, hrun', hflow.run⟩, u, runTicks_snoc 261120 hrun' hstep, by rw [hfault, hpc'], hux.trans hx, hum.trans hm⟩

end Sys2Proof.Machine
end

section
/-! PROOFS. The host's calls (spec 70 R165 to R169): `run` is the ticks up to the one that ends the run, `load` writes the words
of the program, and no call acts in the middle of a run. -/

namespace Sys2Proof.Machine

variable {s t : State}

/-! ### `run` (70 R167) -/

/-- A stopped machine makes no tick. -/
theorem runTicks_of_stopped {n : Nat} (hr : s.run ≠ .running) (h : runTicks n s = .next t) : n = 0 ∧ t = s := by
  cases n with
  | zero => exact ⟨rfl, (Host.Outcome.next.inj h).symm⟩
  | succ n =>
    unfold runTicks at h
    cases hs : step s with
    | next u => exact absurd (step_next_iff.mp hs).1 hr
    | fault _ => rw [hs] at h; cases h
    | refused _ => rw [hs] at h; cases h

/-- The tick that ends the run of `s` answers `answer` after `k` ticks that do not. -/
def EndsAfter (s : State) (answer : HostAnswer RunStatus) (k : Nat) : Prop :=
  ∃ t u, runTicks k s = .next t ∧ t.run = .running ∧ step t = .next u ∧ u.run ≠ .running ∧ answer = .next (u.run, u)

theorem endsAfter_zero_iff {answer : HostAnswer RunStatus} (hr : s.run = .running) (h : step s = .next t) :
    EndsAfter s answer 0 ↔ t.run ≠ .running ∧ answer = .next (t.run, t) := by
  constructor
  · rintro ⟨v, u, hv, -, hu, hend, ha⟩
    obtain rfl := Host.Outcome.next.inj hv
    obtain rfl := Host.Outcome.next.inj (h.symm.trans hu)
    exact ⟨hend, ha⟩
  · rintro ⟨hend, ha⟩
    exact ⟨s, t, rfl, hr, h, hend, ha⟩

theorem endsAfter_succ_iff {answer : HostAnswer RunStatus} {k : Nat} (h : step s = .next t) :
    EndsAfter s answer (k + 1) ↔ EndsAfter t answer k := by
  unfold EndsAfter
  rw [runTicks_succ k h]

theorem not_endsAfter_of_stopped {answer : HostAnswer RunStatus} {k : Nat} (hr : s.run ≠ .running) :
    ¬ EndsAfter s answer k := by
  rintro ⟨t, u, ht, htr, -⟩
  obtain ⟨-, rfl⟩ := runTicks_of_stopped hr ht
  exact hr htr

theorem ticksUntilStopped_eq_some_iff (n : Nat) {answer : HostAnswer RunStatus} (hr : s.run = .running) :
    ticksUntilStopped n s = some answer ↔ ∃ k < n, EndsAfter s answer k := by
  induction n generalizing s with
  | zero => simp [ticksUntilStopped]
  | succ n ih =>
    have hs : step s = .next (tickRule s) := step_next_iff.mpr ⟨hr, rfl⟩
    simp only [ticksUntilStopped, hs]
    rw [Nat.exists_lt_succ_left, endsAfter_zero_iff hr hs]
    simp only [endsAfter_succ_iff hs]
    by_cases ht : (tickRule s).run = .running
    · rw [if_pos ht, ih ht]
      simp [ht]
    · rw [if_neg ht]
      simp [ht, not_endsAfter_of_stopped ht, eq_comm]

theorem hostRun_iff {answer : HostAnswer RunStatus} (hb : s.betweenRuns = true) (hr : s.run = .running) :
    hostRun s answer ↔ ∃ k, EndsAfter s answer k := by
  have hwithin : ∀ n, hostRunWithin n s = ticksUntilStopped n s := fun n => by
    simp only [hostRunWithin, hr, hb, ne_eq, not_true_eq_false, if_false, if_true]
  simp only [hostRun, hwithin, ticksUntilStopped_eq_some_iff _ hr]
  constructor
  · rintro ⟨n, k, -, hk⟩; exact ⟨k, hk⟩
  · rintro ⟨k, hk⟩; exact ⟨k + 1, k, Nat.lt_succ_self k, hk⟩

/-- A call that answers the same whatever the number of ticks. -/
theorem hostRun_of_within {answer a : HostAnswer RunStatus} (h : ∀ n, hostRunWithin n s = some a) :
    hostRun s answer ↔ answer = a := by
  simp only [hostRun, h, Option.some.injEq, exists_const, eq_comm]

/-- Settles O60: `run` by its count of ticks; in the middle of a run some latch is live, and every call looks. -/
theorem hostRunTicksUntilStopped : Obligations.HostRunTicksUntilStopped := by
  intro s answer
  refine ⟨fun hb hr => hostRun_iff hb hr, fun hr => hostRun_of_within fun n => if_pos hr, fun t hshape h ht => ?_⟩
  have hmid : t.betweenRuns = false := by
    obtain ⟨hr, rfl⟩ := step_next_iff.mp h
    exact midRun_not_betweenRuns s hr hshape ht
  have honly : ∀ {α : Type} (a : HostAnswer α), betweenRunsOnly t a = .refused .hostDuringRun := fun a => by
    simp only [betweenRunsOnly, hmid, Bool.false_eq_true, if_false]
  refine ⟨hostRun_of_within fun n => ?_, fun _ _ => honly _, fun _ => honly _, fun _ _ => honly _⟩
  simp only [hostRunWithin, ht, hmid, ne_eq, not_true_eq_false, Bool.false_eq_true, if_false]

/-! ### `load` and `dump` (70 R166, R169) -/

/-- What every byte beside the program reads as after a load. -/
theorem Memory.readByte_loadWords_beside (ws : List Word) {m : Memory} {a b : Nat} (hwf : m.wf = true)
    (ha : a + 4 * ws.length ≤ Config.memSize) (hb : b < a ∨ a + 4 * ws.length ≤ b) :
    (m.loadWords a ws).readByte b = m.readByte b := by
  induction ws generalizing m a with
  | nil => rfl
  | cons w rest ih =>
    rw [List.length_cons] at ha hb
    rw [Memory.loadWords, ih (Memory.setWordAt_wf m a w hwf (by omega)) (by omega) (by omega),
      Memory.readByte_setWordAt m a b w hwf (by omega), if_neg (by omega)]

/-- Word `k` of the program stands at `a + 4k`. -/
theorem Memory.readByte_loadWords (ws : List Word) {m : Memory} {a k j : Nat} {w : Word} (hwf : m.wf = true)
    (ha : a + 4 * ws.length ≤ Config.memSize) (hk : ws[k]? = some w) (hj : j < 4) :
    (m.loadWords a ws).readByte (a + 4 * k + j) = byteOfWord w j := by
  induction ws generalizing m a k with
  | nil => cases hk
  | cons v rest ih =>
    rw [List.length_cons] at ha
    have hwf' := Memory.setWordAt_wf m a v hwf (by omega)
    cases k with
    | zero =>
      obtain rfl := Option.some.inj hk
      rw [Memory.loadWords, Memory.readByte_loadWords_beside rest hwf' (by omega) (by omega),
        Memory.readByte_setWordAt m a _ _ hwf (by omega), if_pos (by omega), show a + 4 * 0 + j - a = j by omega]
    | succ k =>
      rw [Memory.loadWords, show a + 4 * (k + 1) + j = a + 4 + 4 * k + j by omega]
      exact ih hwf' (by omega) hk

theorem wordsBeforeMalformed_eq (ws : List Word) {tail : List ProgramLine}
    (ht : tail = [] ∨ ∃ rest, tail = .malformed :: rest) : wordsBeforeMalformed (ws.map .word ++ tail) = ws := by
  induction ws with
  | nil => obtain rfl | ⟨rest, rfl⟩ := ht <;> rfl
  | cons w ws ih => rw [List.map_cons, List.cons_append, wordsBeforeMalformed, ih]

theorem malformed_mem_iff (ws : List Word) {tail : List ProgramLine}
    (ht : tail = [] ∨ ∃ rest, tail = .malformed :: rest) : .malformed ∈ ws.map .word ++ tail ↔ tail ≠ [] := by
  obtain rfl | ⟨rest, rfl⟩ := ht <;> simp

theorem betweenRunsOnly_eq {α : Type} (h : s.betweenRuns = true) (a : HostAnswer α) : betweenRunsOnly s a = a := if_pos h

/-- Settles O59: the load by the words before the malformed line; what is read after it, byte by byte. -/
theorem loadStoresTheProgram : Obligations.LoadStoresTheProgram := by
  intro s address ws tail hb hwf ht
  have hload : hostLoad address (ws.map .word ++ tail) s = if address + 4 * ws.length ≤ Config.memSize then
      .next ({ count := ws.length, malformed := decide (tail ≠ []) }, s.setMem (s.mem.loadWords address ws))
      else .refused .loadDoesNotFit := by
    rw [hostLoad, betweenRunsOnly_eq hb, wordsBeforeMalformed_eq ws ht]
    simp only [malformed_mem_iff ws ht]
  refine ⟨fun hfit => ⟨s.mem.loadWords address ws, ?_, fun k w hk => ?_, fun b hbeside => ?_⟩, fun hfit => ?_,
    fun a length hfit => ?_⟩
  · rw [hload, if_pos (by exact hfit)]; rfl
  · have hlt : k < ws.length := (List.getElem?_eq_some_iff.mp hk).1
    rw [hostDump, betweenRunsOnly_eq (by exact hb), if_pos (by unfold Config.memSize; omega)]
    have hbytes : (List.range 4).map (fun j => (s.mem.loadWords address ws).readByte (address + 4 * k + j)) =
        (List.range 4).map (byteOfWord w) :=
      List.map_congr_left fun j hj => Memory.readByte_loadWords ws hwf hfit hk (List.mem_range.mp hj)
    rw [hbytes]; rfl
  · exact Memory.readByte_loadWords_beside ws hwf hfit hbeside
  · rw [hload, if_neg (by unfold Config.memSize; omega)]
  · rw [hostDump, betweenRunsOnly_eq hb, if_neg (by unfold Config.memSize; omega)]

end Sys2Proof.Machine
end
